-- ==== Sys2Proof/Word.lean ====
section
/-! DEFINITION. The word types of RDQ: registers and buffer addresses are 32-bit (00_scope.md R7), samples are
8-bit, quantization codes are 4-bit. -/

namespace Sys2Proof

/-- A register value, a command word or a buffer address: 32 bits (R7, R17). -/
abbrev Word := BitVec 32

/-- A buffer byte or an image sample: 8 bits (R7, R33). Byte addition and subtraction wrap modulo 256 (R66, R69). -/
abbrev Byte := BitVec 8

/-- A quantization code: 4 bits (R14, R64). -/
abbrev Code := BitVec 4

end Sys2Proof
end

