-- ==== Sys2Proof/Config.lean ====
section
/-! DEFINITION. What one implementation of RDQ fixes (00_scope.md R7), as plain data, and the free values the spec
leaves open. A `Config` is a value that no step changes; `State.cfg` holds it because `exec` and `step` take one argument
(notes/assumptions/1.md). -/

namespace Sys2Proof

/-- LAYOUT, RDC's scan axis (R102). The illegal code 3 of R103 has no constructor. -/
inductive Layout where
  | row | planar | adaptive
deriving DecidableEq, Repr

/-- CHROMA (R102). -/
inductive Chroma where
  | full | sub2x2
deriving DecidableEq, Repr

/-- STORAGE (R102). -/
inductive Storage where
  | simple | packed
deriving DecidableEq, Repr

/-- COLOR (R102). -/
inductive Color where
  | rgb | ycocg
deriving DecidableEq, Repr

/-- DELTA (R102): a 4-bit quantized delta, or the 8-bit wrapped delta itself. -/
inductive DeltaKind where
  | q4 | raw8
deriving DecidableEq, Repr

/-- A mode descriptor, the seven fields of R102. -/
structure Descriptor where
  layout  : Layout
  chroma  : Chroma
  storage : Storage
  color   : Color
  delta   : DeltaKind
  grayOk  : Bool
  alphaOk : Bool
deriving DecidableEq, Repr

/-- What MODE_TABLE gives for a mode id (R104). -/
inductive ModeEntry where
  | unassigned
  | deprecated
  | descriptor (d : Descriptor)
deriving DecidableEq, Repr

/-- YCC_DIV: the rounding of the three divisions of the forward colour transform (R75). -/
inductive YccDiv where
  | floor | trunc | halfUp
deriving DecidableEq, Repr

/-- CSUB_ROUND: the rounding of the 2×2 chroma mean (R93). -/
inductive CsubRound where
  | floor | halfUp
deriving DecidableEq, Repr

/-- The implementation parameters of R7. MODE_TABLE, a map on the 16-bit ids, is held as the list of its entries that are
not UNASSIGNED, each id at most once. -/
structure Config where
  bufSize     : Nat
  maxWidth    : Nat
  maxHeight   : Nat
  modeTable   : List (BitVec 16 × ModeEntry)
  defaultMode : BitVec 16
  yccDiv      : YccDiv
  csubRound   : CsubRound
deriving DecidableEq, Repr

/-- MODE_TABLE[id] in a list of entries; an id without an entry is UNASSIGNED (R104). -/
def modeLookup : List (BitVec 16 × ModeEntry) → BitVec 16 → ModeEntry
  | [], _ => .unassigned
  | (k, e) :: rest, id => if k = id then e else modeLookup rest id

/-- MODE_TABLE[id] (R104). -/
def Config.entryOf (cfg : Config) (id : BitVec 16) : ModeEntry := modeLookup cfg.modeTable id

/-- FREE VALUE: the n-th unspecified byte. A host read of the destination range of a pending command (R48) and each
destination byte of a command abandoned by reset (R153) take the next one; `State.draws` counts them. Nothing constrains
it (notes/assumptions/4.md). -/
opaque Config.freeByte : Nat → BitVec 8

end Sys2Proof
end

