-- ==== Sys2Proof/Syntax.lean ====
section
/-! DEFINITION. RDQ's commands, one constructor per row of spec/opcode_table.json (30_encoding.md R56). A command carries
no operand in its word (R55), so no constructor has an argument. -/

namespace Sys2Proof

/-- The sixteen commands of R56. -/
inductive Instr where
  /-- QENC, R71 -/
  | qenc
  /-- QDEC, R72 -/
  | qdec
  /-- QREC, R73 -/
  | qrec
  /-- QSTEP, R74 -/
  | qstep
  /-- YCCF, R82 -/
  | yccf
  /-- YCCI, R83 -/
  | ycci
  /-- NPACK2, R89 -/
  | npack2
  /-- NPACK1, R90 -/
  | npack1
  /-- NUNPACK, R91 -/
  | nunpack
  /-- CAVG, R98 -/
  | cavg
  /-- CINT2, R99 -/
  | cint2
  /-- CINT4, R100 -/
  | cint4
  /-- RESOLVE, R128 -/
  | resolve
  /-- CLEN, R129 -/
  | clen
  /-- ENCODE, R132 -/
  | encode
  /-- DECODE, R133 -/
  | decode
deriving DecidableEq, Repr

end Sys2Proof
end

