-- ==== Sys2Proof/WellFormed.lean ====
section
/-! DEFINITION. What is well formed: a descriptor (44_modes.md R104), a configuration (00_scope.md R7), a command. -/

namespace Sys2Proof

/-- A legal descriptor (R104): (1) holds by the type of LAYOUT; (2) SUB2X2 needs YCOCG and a layout that is not ROW;
(3) PACKED needs Q4. -/
def Descriptor.legal (d : Descriptor) : Bool :=
  (d.chroma != .sub2x2 || (d.color == .ycocg && d.layout != .row)) && (d.storage != .packed || d.delta == .q4)

/-- A MODE_TABLE entry is UNASSIGNED, DEPRECATED or a legal descriptor (R104). -/
def ModeEntry.legal : ModeEntry → Bool
  | .unassigned => true
  | .deprecated => true
  | .descriptor d => d.legal

/-- BUF_SIZE is 1 .. 2^32 (R7). -/
def Config.bufSizeLegal (cfg : Config) : Bool := 1 ≤ cfg.bufSize && cfg.bufSize ≤ 2 ^ 32

/-- MAX_WIDTH and MAX_HEIGHT are 1 .. 2^16, with 4·MAX_WIDTH·MAX_HEIGHT < 2^31 (R7). -/
def Config.limitsLegal (cfg : Config) : Bool :=
  1 ≤ cfg.maxWidth && cfg.maxWidth ≤ 2 ^ 16 && 1 ≤ cfg.maxHeight && cfg.maxHeight ≤ 2 ^ 16 &&
    4 * cfg.maxWidth * cfg.maxHeight < 2 ^ 31

/-- Every entry of MODE_TABLE is legal (R104), and the list has each id once (the form of `Config.modeTable`). -/
def Config.tableLegal (cfg : Config) : Bool :=
  cfg.modeTable.all (fun row => row.2.legal) && decide ((cfg.modeTable.map Prod.fst).Nodup)

/-- DEFAULT_MODE is 1 .. 0xFFFE and MODE_TABLE gives it a descriptor (R7). -/
def Config.defaultLegal (cfg : Config) : Bool :=
  cfg.defaultMode != 0 && cfg.defaultMode != 0xFFFF &&
    match cfg.entryOf cfg.defaultMode with
    | .descriptor _ => true
    | .unassigned => false
    | .deprecated => false

/-- A valid configuration of the model (R7, R104; 93_implementation_defined.md row 13). -/
def Config.legal (cfg : Config) : Bool :=
  cfg.bufSizeLegal && cfg.limitsLegal && cfg.tableLegal && cfg.defaultLegal

/-- A command is well formed whatever it is: its word has no operand field that could hold an illegal value (R54, R55). -/
def Instr.wellFormed : Instr → Bool
  | .qenc | .qdec | .qrec | .qstep => true
  | .yccf | .ycci => true
  | .npack2 | .npack1 | .nunpack => true
  | .cavg | .cint2 | .cint4 => true
  | .resolve | .clen | .encode | .decode => true

end Sys2Proof
end

