-- ==== Sys2Proof/Decode.lean ====
section
/-! DEFINITION. The command word (30_encoding.md R54, R56, R60): decoding, total on every word, and encoding. -/

namespace Sys2Proof

/-- Why a word is no command (R60). -/
inductive DecodeError where
  /-- v[31:8] ≠ 0 -/
  | reservedBits (v : Word)
  /-- v[7:0] is not in the opcode map -/
  | reservedOpcode (opc : Byte)
deriving DecidableEq, Repr

/-- OPC, bits [7:0] of a command word (R54). -/
def cmdOpcode (v : Word) : Byte := v.extractLsb' 0 8

/-- RSVD, bits [31:8] of a command word (R54). -/
def cmdReserved (v : Word) : BitVec 24 := v.extractLsb' 8 24

/-- The opcode map of R56; every other value is reserved (R60). -/
def opcodeMap (opc : Byte) : Option Instr :=
  match opc with
  | 0x01#8 => some .qenc
  | 0x02#8 => some .qdec
  | 0x03#8 => some .qrec
  | 0x04#8 => some .qstep
  | 0x08#8 => some .yccf
  | 0x09#8 => some .ycci
  | 0x0C#8 => some .npack2
  | 0x0D#8 => some .npack1
  | 0x0E#8 => some .nunpack
  | 0x10#8 => some .cavg
  | 0x11#8 => some .cint2
  | 0x12#8 => some .cint4
  | 0x20#8 => some .resolve
  | 0x21#8 => some .clen
  | 0x22#8 => some .encode
  | 0x23#8 => some .decode
  | _ => none

/-- Decode a word written to CMD (R54: "A decoder reads OPC = v[7:0] and checks v[31:8] = 0"). -/
def decode (v : Word) : Except DecodeError Instr :=
  if cmdReserved v ≠ 0 then .error (.reservedBits v)
  else
    match opcodeMap (cmdOpcode v) with
    | some i => .ok i
    | none => .error (.reservedOpcode (cmdOpcode v))

/-- The opcode of a command, read from the rows of R56. -/
def opcodeOf : Instr → Byte
  | .qenc => 0x01
  | .qdec => 0x02
  | .qrec => 0x03
  | .qstep => 0x04
  | .yccf => 0x08
  | .ycci => 0x09
  | .npack2 => 0x0C
  | .npack1 => 0x0D
  | .nunpack => 0x0E
  | .cavg => 0x10
  | .cint2 => 0x11
  | .cint4 => 0x12
  | .resolve => 0x20
  | .clen => 0x21
  | .encode => 0x22
  | .decode => 0x23

/-- The word that issues a command: CMD = zext_32(OPC) (R56). -/
def encode (i : Instr) : Word := (opcodeOf i).setWidth 32

/-- The command read from a word of the opcode table's numbering: bits above `nbits` are 0, and a command is one 32-bit
word (R54), so a longer word is none. -/
def decodeTableWord (nbits w : Nat) : Option Instr :=
  if nbits ≤ 32 then
    match decode (BitVec.ofNat 32 (w % 2 ^ nbits)) with
    | .ok i => some i
    | .error _ => none
  else none

end Sys2Proof
end

