-- ==== Sys2Proof/Machine/Reference.lean ====
section
/-! DEFINITION. The reference configuration: the reference values of 00_scope.md R7 and the reference mode table RMT of
44_modes.md R107, which the spec calls its own choice and not the repository's numbering. -/

namespace Sys2Proof.Machine

/-- The reference mode table RMT (R107); every id without a row is UNASSIGNED. -/
def referenceModeTable : List (BitVec 16 × ModeEntry) :=
  [(1, .descriptor ⟨.row, .full, .simple, .rgb, .raw8, true, true⟩),
   (2, .descriptor ⟨.planar, .full, .simple, .rgb, .raw8, true, true⟩),
   (3, .descriptor ⟨.adaptive, .full, .simple, .rgb, .raw8, true, true⟩),
   (4, .deprecated),
   (5, .descriptor ⟨.row, .full, .simple, .ycocg, .q4, true, true⟩),
   (6, .descriptor ⟨.planar, .full, .simple, .ycocg, .q4, true, true⟩),
   (7, .descriptor ⟨.planar, .full, .packed, .ycocg, .q4, true, true⟩),
   (8, .descriptor ⟨.planar, .sub2x2, .simple, .ycocg, .q4, false, true⟩),
   (9, .descriptor ⟨.planar, .sub2x2, .packed, .ycocg, .q4, false, true⟩),
   (10, .descriptor ⟨.adaptive, .full, .packed, .ycocg, .q4, true, true⟩),
   (11, .descriptor ⟨.adaptive, .sub2x2, .packed, .ycocg, .q4, false, false⟩)]

/-- The reference values of R7. -/
def referenceConfig : Config where
  bufSize := 2 ^ 20
  maxWidth := 16384
  maxHeight := 16384
  modeTable := referenceModeTable
  defaultMode := 9
  yccDiv := .floor
  csubRound := .floor

end Sys2Proof.Machine
end

