-- ==== Sys2Proof/Machine/State.lean ====
section
/-! DEFINITION. The machine's state as plain data: the registers of 10_state.md R17, the hidden record PEND of R25, the
buffer memory BUF of 20_memory.md R33, what the outside world does next, and the model's own counter of free values. -/

namespace Sys2Proof.Machine

/-- STATUS, field by field (R20); bits [31:8] read as 0 and hold nothing. `statusWord` is the register's value. -/
structure Status where
  busy    : Bool
  done    : Bool
  err     : Bool
  drop    : Bool
  errcode : BitVec 4
deriving DecidableEq, Repr

/-- The registers of the window (R17), one name each. -/
inductive Reg where
  | cmd | status | opa | opb | res | mode | chan | width | height
  | srcAddr | srcStride | srcLen | dstAddr | dstCap | outLen | desc
deriving DecidableEq, Repr

/-- The frame commands that stay pending (R25). -/
inductive FrameOp where
  | encode | decode
deriving DecidableEq, Repr

/-- The snapshot a frame command takes of its registers (R25, R124). -/
structure Snapshot where
  mode      : BitVec 16
  chan      : BitVec 3
  width     : Word
  height    : Word
  srcAddr   : Word
  srcStride : Word
  srcLen    : Word
  dstAddr   : Word
  dstCap    : Word
deriving DecidableEq, Repr

/-- A pending frame command (R25): opcode, snapshot, resolved descriptor and output length. -/
structure Pending where
  op   : FrameOp
  snap : Snapshot
  desc : Descriptor
  nOut : Nat
deriving DecidableEq, Repr

/-- What happens next at RDQ's boundary: a bus transaction of the host (R15, R62), the sequencer's turn (R15, R131), or
reset (R152). `size` is an access's width in bytes. -/
inductive Event where
  /-- the host writes `data` at `offset` of the register window -/
  | regWrite (offset : Byte) (size : Nat) (data : Word)
  /-- the host reads at `offset` of the register window -/
  | regRead (offset : Byte) (size : Nat)
  /-- the host writes one byte of BUF; a byte address is a plain number, so that none wraps (R13) -/
  | bufWrite (addr : Nat) (data : Byte)
  /-- the host reads one byte of BUF -/
  | bufRead (addr : Nat)
  /-- the sequencer takes its turn: the pending command completes, if there is one -/
  | sequencer
  /-- the reset input is asserted -/
  | reset
deriving DecidableEq, Repr

/-- BUF: the listed bytes, addresses rising, none equal to what an unlisted address reads as (`Memory.wf`). -/
abbrev Memory := List Host.Cell

/-- The state of RDQ, of BUF and of the boundary. MODE and CHAN hold only the bits R17 gives them. CMD holds nothing
(R19). `inputs` is the one sequence of accesses that reaches RDQ (R45, R149), oldest first, with the sequencer's turns and
resets in their places (R156). `readData` is what the host's last read returned, a byte zero-extended. `draws` counts the
free values taken. `cfg` is the configuration of R7; no step changes it. -/
structure State where
  cfg       : Config
  status    : Status
  opa       : Word
  opb       : Word
  res       : Word
  mode      : BitVec 16
  chan      : BitVec 3
  width     : Word
  height    : Word
  srcAddr   : Word
  srcStride : Word
  srcLen    : Word
  dstAddr   : Word
  dstCap    : Word
  outLen    : Word
  desc      : Word
  pend      : Option Pending
  buf       : Memory
  inputs    : List Event
  readData  : Word
  draws     : Nat
deriving DecidableEq, Repr

/-- Where the machine stops with a fault. -/
inductive Fault where
  /-- A host-duty fault (R140 (1), R49): the host writes a byte of the source read range or destination write range of the
  pending command. Raised by `hostBufWrite`. Safe: the spec makes it a fault. -/
  | hostDutyBufferWrite (addr : Nat)
  /-- A host-duty fault (R140 (2), R18): a register access that is not an aligned 32-bit access. Raised by `hostRegWrite`
  and `hostRegRead`. Safe: the spec makes it a fault. -/
  | hostDutyRegisterAccess (offset : Byte) (size : Nat)
  /-- A host access to a BUF address that does not exist, at or above BUF_SIZE (R33). Raised by `hostBufWrite` and
  `hostBufRead`. Safe: the model stops. -/
  | noSuchBufferAddress (addr : Nat)
deriving DecidableEq, Repr

/-- Where the model gives no meaning. -/
inductive Refusal where
  /-- A command that has no meaning yet, by its mnemonic. Raised by no arm of `exec`. Safe. -/
  | notModelled (mnemonic : String)
  /-- The configuration breaks R7 or R104 and is "not a valid configuration of the model" (93_implementation_defined.md
  row 13). Raised by `step`. Safe: the spec asks for a refusal. -/
  | invalidConfiguration
deriving DecidableEq, Repr

/-- STATUS after reset: idle, no DONE, no error, no DROP (R32). -/
def Status.reset : Status where
  busy := false
  done := false
  err := false
  drop := false
  errcode := 0

/-- The machine right after reset (R32, R152): every register 0, PEND NONE. The configuration is the reference one
(notes/assumptions/2.md), no byte of BUF is listed (notes/assumptions/3.md) and nothing is about to happen. -/
def State.reset : State where
  cfg := referenceConfig
  status := Status.reset
  opa := 0
  opb := 0
  res := 0
  mode := 0
  chan := 0
  width := 0
  height := 0
  srcAddr := 0
  srcStride := 0
  srcLen := 0
  dstAddr := 0
  dstCap := 0
  outLen := 0
  desc := 0
  pend := none
  buf := []
  inputs := []
  readData := 0
  draws := 0

end Sys2Proof.Machine
end

