-- ==== Sys2Proof/Machine/Flags.lean ====
section
/-! DEFINITION. STATUS, RDQ's only flags (10_state.md R20, R21): its layout and every way a field of it is set or
cleared. -/

namespace Sys2Proof.Machine

/-- The value a read of STATUS returns: [0] BUSY, [1] DONE, [2] ERR, [3] DROP, [7:4] ERRCODE, [31:8] 0 (R20). -/
def statusWord (st : Status) : Word :=
  0#24 ++ st.errcode ++ BitVec.ofBool st.drop ++ BitVec.ofBool st.err ++ BitVec.ofBool st.done ++ BitVec.ofBool st.busy

/-- An accepted issue clears DONE, ERR, ERRCODE and DROP (R58). -/
def statusAccepted (st : Status) : Status :=
  { st with done := false, err := false, errcode := 0, drop := false }

/-- A CMD write while BUSY sets DROP and nothing else (R59). -/
def statusDropped (st : Status) : Status := { st with drop := true }

/-- A completion without error sets DONE. -/
def statusDone (st : Status) : Status := { st with done := true }

/-- A completion with an error records its code and sets ERR and DONE (R137). -/
def statusError (code : BitVec 4) (st : Status) : Status :=
  { st with errcode := code, err := true, done := true }

/-- A command that stays pending sets BUSY (R130). -/
def statusStarted (st : Status) : Status := { st with busy := true }

/-- The completion of a pending command clears BUSY and sets DONE (R131). -/
def statusFinished (st : Status) : Status := { st with busy := false, done := true }

end Sys2Proof.Machine
end

