-- ==== Sys2Proof/Machine/Operands.lean ====
section
/-! DEFINITION. The operand and result fields of the primitive commands: little-endian byte lanes of OPA, OPB and RES
(30_encoding.md R55, 20_memory.md R39). Bits outside the fields a command names are ignored on reading (R55). -/

namespace Sys2Proof.Machine

/-- Byte lane i, bits [8i+7:8i] (R39). -/
def byteLane (w : Word) (i : Nat) : Byte := w.extractLsb' (8 * i) 8

/-- A code operand, bits [3:0] (R55). -/
def codeField (w : Word) : Code := w.extractLsb' 0 4

/-- RES with one byte field; the other bits are 0 (R55). -/
def resByte (b : Byte) : Word := b.setWidth 32

/-- RES with one code field; the other bits are 0 (R55). -/
def resCode (c : Code) : Word := c.setWidth 32

/-- RES with a code in lane 0 and a byte in lane 1: {16'b0, r, 4'b0, c} (R74). -/
def resCodeByte (c : Code) (r : Byte) : Word := 0#16 ++ r ++ 0#4 ++ c

/-- RES with three byte fields, the first in the lowest lane: {8'b0, b2, b1, b0} (R82, R83). -/
def resBytes3 (b0 b1 b2 : Byte) : Word := 0#8 ++ b2 ++ b1 ++ b0

/-- RES with a code in each of the two low lanes: {20'b0, hi, 4'b0, lo} (R91). -/
def resCodes2 (lo hi : Code) : Word := 0#20 ++ hi ++ 0#4 ++ lo

/-- The low four bits of a byte, where a code byte holds its code (R114). -/
def lowNibble (b : Byte) : Code := b.extractLsb' 0 4

/-- The high four bits of a byte (R85). -/
def highNibble (b : Byte) : Code := b.extractLsb' 4 4

/-- A code as a byte, zero-extended (R114). -/
def codeByte (c : Code) : Byte := c.setWidth 8

end Sys2Proof.Machine
end

