-- ==== Sys2Proof/Machine/Ops.lean ====
section
/-! DEFINITION. The shared operations: bytes of BUF, the register window, the issue of a command (30_encoding.md R58),
its completion, and `raise` (60_exceptions.md R137), RDQ's one way of ending a command with an error. -/

namespace Sys2Proof.Machine

/-! ## BUF (20_memory.md) -/

/-- What a byte of BUF that is not listed reads as (notes/assumptions/3.md). -/
def unlistedByte : Byte := 0

/-- Memory's canonical form: addresses strictly rising, no entry equal to what an unlisted address reads as. -/
abbrev Memory.wf (m : Memory) : Prop :=
  m.Pairwise (fun p q => p.1 < q.1) ∧ ∀ cell ∈ m, cell.2 ≠ unlistedByte

/-- The byte at an address. -/
def readByte : Memory → Nat → Byte
  | [], _ => unlistedByte
  | (k, v) :: rest, a => if a = k then v else readByte rest a

/-- A cell in front of the rest, unless it holds what an unlisted address reads as. -/
def consByte (a : Nat) (v : Byte) (rest : Memory) : Memory := if v = unlistedByte then rest else (a, v) :: rest

/-- Store a byte at an address, keeping the canonical form. -/
def writeByte : Memory → Nat → Byte → Memory
  | [], a, v => consByte a v []
  | (k, w) :: rest, a, v =>
    if a < k then consByte a v ((k, w) :: rest)
    else if a = k then consByte a v rest
    else (k, w) :: writeByte rest a v

/-- MemRead(a, n): n single-byte reads from a upward (R10, R36). -/
def readBytes (m : Memory) (a n : Nat) : List Byte := (List.range n).map (fun i => readByte m (a + i))

/-- MemWrite(a, n, v): the n bytes of v, one write each, from a upward (R10, R36). -/
def writeBytes (m : Memory) (a : Nat) : List Byte → Memory
  | [] => m
  | b :: bs => writeBytes (writeByte m a b) (a + 1) bs

/-- Whether an address lies in the range [start, start + len). -/
def inRange (a start len : Nat) : Bool := start ≤ a && a < start + len

/-! ## The register window (10_state.md R17, R18) -/

/-- The register at a window offset; every offset without one is reserved (R17). -/
def regAt (offset : Byte) : Option Reg :=
  match offset with
  | 0x00#8 => some .cmd
  | 0x04#8 => some .status
  | 0x08#8 => some .opa
  | 0x0C#8 => some .opb
  | 0x10#8 => some .res
  | 0x14#8 => some .mode
  | 0x18#8 => some .chan
  | 0x1C#8 => some .width
  | 0x20#8 => some .height
  | 0x24#8 => some .srcAddr
  | 0x28#8 => some .srcStride
  | 0x2C#8 => some .srcLen
  | 0x30#8 => some .dstAddr
  | 0x34#8 => some .dstCap
  | 0x38#8 => some .outLen
  | 0x3C#8 => some .desc
  | _ => none

/-- The offset of a register (R17), for the host-program syntax of R62. -/
def offsetOf : Reg → Byte
  | .cmd => 0x00
  | .status => 0x04
  | .opa => 0x08
  | .opb => 0x0C
  | .res => 0x10
  | .mode => 0x14
  | .chan => 0x18
  | .width => 0x1C
  | .height => 0x20
  | .srcAddr => 0x24
  | .srcStride => 0x28
  | .srcLen => 0x2C
  | .dstAddr => 0x30
  | .dstCap => 0x34
  | .outLen => 0x38
  | .desc => 0x3C

/-- x[NAME] (R10, R17): CMD reads as 0, reserved bits of MODE, CHAN and STATUS read as 0 (R18 (4), (5)). -/
def readReg (r : Reg) (s : State) : Word :=
  match r with
  | .cmd => 0
  | .status => statusWord s.status
  | .opa => s.opa
  | .opb => s.opb
  | .res => s.res
  | .mode => s.mode.setWidth 32
  | .chan => s.chan.setWidth 32
  | .width => s.width
  | .height => s.height
  | .srcAddr => s.srcAddr
  | .srcStride => s.srcStride
  | .srcLen => s.srcLen
  | .dstAddr => s.dstAddr
  | .dstCap => s.dstCap
  | .outLen => s.outLen
  | .desc => s.desc

/-- A host write to a register other than CMD: a read-only register ignores it (R18 (2)), MODE and CHAN keep only their
own bits (R18 (4)), whether or not a command is in flight (R18 (6)). A write to CMD is an issue (R19), not this. -/
def writeReg (r : Reg) (v : Word) (s : State) : State :=
  match r with
  | .cmd | .status | .res | .outLen | .desc => s
  | .opa => { s with opa := v }
  | .opb => { s with opb := v }
  | .mode => { s with mode := v.setWidth 16 }
  | .chan => { s with chan := v.setWidth 3 }
  | .width => { s with width := v }
  | .height => { s with height := v }
  | .srcAddr => { s with srcAddr := v }
  | .srcStride => { s with srcStride := v }
  | .srcLen => { s with srcLen := v }
  | .dstAddr => { s with dstAddr := v }
  | .dstCap => { s with dstCap := v }

/-- The only register access that is defined: aligned and 32 bits wide (R18 (1)). -/
def alignedWordAccess (offset : Byte) (size : Nat) : Bool := size == 4 && offset.toNat % 4 == 0

/-! ## Issue, completion and errors -/

/-- A CMD write while BUSY = 1: DROP is set and nothing else changes (R59). -/
def dropIssue (s : State) : State := { s with status := statusDropped s.status }

/-- The first effect of an accepted issue (R58). -/
def acceptIssue (s : State) : State := { s with status := statusAccepted s.status }

/-- A command that completes without error at its issue. -/
def completeIssue (s : State) : State := { s with status := statusDone s.status }

/-- The issue of a command (R58): dropped while BUSY = 1, else accepted, cleared and performed in one step. -/
def issue (perform : State → State) (s : State) : Host.Outcome State Fault Refusal :=
  if s.status.busy then .next (dropIssue s) else .next (perform (acceptIssue s))

/-- The errors of R135. -/
inductive ErrorKind where
  | malformedData | variantNotSupported | constraintViolation | illegalCommand
deriving DecidableEq, Repr

/-- ERRCODE of an error (R135). -/
def errorCode : ErrorKind → BitVec 4
  | .malformedData => 1
  | .variantNotSupported => 2
  | .constraintViolation => 3
  | .illegalCommand => 4

/-- The commands whose error sets OUT_LEN to 0 (R23, R137); `none` is a word that is no command. -/
def errorClearsOutLen : Option Instr → Bool
  | some .clen | some .encode | some .decode => true
  | _ => false

/-- raise E (R137): the command ends, STATUS records the error, OUT_LEN is set to 0 for CLEN, ENCODE and DECODE; DESC
keeps what the resolve step wrote, RES, PEND and BUF are unchanged. -/
def raiseError (cmd : Option Instr) (e : ErrorKind) (s : State) : State :=
  { s with
    status := statusError (errorCode e) s.status
    outLen := if errorClearsOutLen cmd then 0 else s.outLen }

/-- A word written to CMD that is no command (R58, R60, R136). -/
def illegalCommand (s : State) : Host.Outcome State Fault Refusal := issue (raiseError none .illegalCommand) s

/-- A primitive command (R57): RES takes a function of OPA and OPB, and the command completes at issue. -/
def primitive (f : Word → Word → Word) (s : State) : Host.Outcome State Fault Refusal :=
  issue (fun t => completeIssue { t with res := f t.opa t.opb }) s

end Sys2Proof.Machine
end

