-- ==== Sys2Proof/Machine/NibblePacker.lean ====
section
/-! DEFINITION. The NibblePacker (42_nibble.md): packing and unpacking code sequences, and the commands NPACK2, NPACK1 and
NUNPACK. -/

namespace Sys2Proof.Machine

/-- ceil2(n) = (n + 1) div 2 (00_scope.md R11). -/
def ceil2 (n : Nat) : Nat := (n + 1) / 2

/-- One byte of two codes, the earlier in bits [3:0] (R38, R84). -/
def packByte (first second : Code) : Byte := second ++ first

/-- pack(q) (R84): two codes a byte; the last code of an odd sequence fills both nibbles of its byte. -/
def pack : List Code → List Byte
  | [] => []
  | [last] => [packByte last last]
  | first :: second :: rest => packByte first second :: pack rest

/-- unpack(B, n) (R85): code i is a nibble of byte i div 2, low for an even i; the padding nibble is never read. -/
def unpack (bytes : List Byte) (n : Nat) : List Code :=
  (List.range n).map (fun i =>
    let byte := bytes.getD (i / 2) 0
    if i % 2 = 0 then lowNibble byte else highNibble byte)

/-- NPACK2: pack two codes into one byte (R89). -/
def execNpack2 (s : State) : Host.Outcome State Fault Refusal :=
  primitive (fun opa opb => resByte (packByte (codeField opa) (codeField opb))) s

/-- NPACK1: the last byte of an odd-length sequence (R90). -/
def execNpack1 (s : State) : Host.Outcome State Fault Refusal :=
  primitive (fun opa _ => resByte (packByte (codeField opa) (codeField opa))) s

/-- NUNPACK: split a byte into its two codes (R91). -/
def execNunpack (s : State) : Host.Outcome State Fault Refusal :=
  primitive (fun opa _ => resCodes2 (lowNibble (byteLane opa 0)) (highNibble (byteLane opa 0))) s

end Sys2Proof.Machine
end

