-- ==== Sys2Proof/Machine/Planes.lean ====
section
/-! DEFINITION. A plane, one channel's two-dimensional sample array (00_scope.md R14), held as its rows. -/

namespace Sys2Proof.Machine

/-- A plane P of size wp × hp: the sample P[y][x] is element x of row y (R92, R108). -/
structure Plane where
  width  : Nat
  height : Nat
  rows   : List (List Byte)
deriving DecidableEq, Repr

/-- P[y][x]. -/
def planeAt (P : Plane) (x y : Nat) : Byte := (P.rows.getD y []).getD x 0

/-- The w × h plane whose sample at (x, y) is f x y. -/
def planeOf (w h : Nat) (f : Nat → Nat → Byte) : Plane where
  width := w
  height := h
  rows := (List.range h).map (fun y => (List.range w).map (fun x => f x y))

end Sys2Proof.Machine
end

