-- ==== Sys2Proof/Machine/ChromaSubsampler.lean ====
section
/-! DEFINITION. The ChromaSubsampler (43_chroma.md): 2×2 averaging, bilinear reconstruction, and the commands CAVG, CINT2
and CINT4. -/

namespace Sys2Proof.Machine

/-- CMEAN(a, b, c, d), rounded as CSUB_ROUND says (R93). -/
def cmean (mode : CsubRound) (a b c d : Byte) : Byte :=
  match mode with
  | .floor => BitVec.ofNat 8 ((a.toNat + b.toNat + c.toNat + d.toNat) / 4)
  | .halfUp => BitVec.ofNat 8 ((a.toNat + b.toNat + c.toNat + d.toNat + 2) / 4)

/-- The two-sample average with +1 rounding (R96, R99). -/
def average2 (a b : Byte) : Byte := BitVec.ofNat 8 ((a.toNat + b.toNat + 1) / 2)

/-- The four-sample average with 2-bit rounding (R96, R100). -/
def average4 (a b c d : Byte) : Byte := BitVec.ofNat 8 ((a.toNat + b.toNat + c.toNat + d.toNat + 2) / 4)

/-- The subsampled plane S of P: the mean of each 2×2 block, right and bottom edge replicated (R92). -/
def csub (mode : CsubRound) (P : Plane) : Plane :=
  planeOf (ceil2 P.width) (ceil2 P.height) (fun i j =>
    let x0 := 2 * i
    let y0 := 2 * j
    let x1 := min (2 * i + 1) (P.width - 1)
    let y1 := min (2 * j + 1) (P.height - 1)
    cmean mode (planeAt P x0 y0) (planeAt P x1 y0) (planeAt P x0 y1) (planeAt P x1 y1))

/-- F[y][x] of the reconstruction from S, neighbours clamped to the last column and row (R96, R97). -/
def interpolateAt (S : Plane) (x y : Nat) : Byte :=
  let i := x / 2
  let j := y / 2
  let i1 := min (i + 1) (S.width - 1)
  let j1 := min (j + 1) (S.height - 1)
  if x % 2 = 0 then
    if y % 2 = 0 then planeAt S i j else average2 (planeAt S i j) (planeAt S i j1)
  else
    if y % 2 = 0 then average2 (planeAt S i j) (planeAt S i1 j)
    else average4 (planeAt S i j) (planeAt S i1 j) (planeAt S i j1) (planeAt S i1 j1)

/-- CINTERP(S, w, h): the full w × h plane rebuilt from S (R96). -/
def cinterp (S : Plane) (w h : Nat) : Plane := planeOf w h (interpolateAt S)

/-- CAVG: mean of a 2×2 block (R98). -/
def execCavg (s : State) : Host.Outcome State Fault Refusal :=
  primitive
    (fun opa _ =>
      resByte (cmean s.cfg.csubRound (byteLane opa 0) (byteLane opa 1) (byteLane opa 2) (byteLane opa 3))) s

/-- CINT2: two-sample interpolation (R99). -/
def execCint2 (s : State) : Host.Outcome State Fault Refusal :=
  primitive (fun opa _ => resByte (average2 (byteLane opa 0) (byteLane opa 1))) s

/-- CINT4: four-sample interpolation (R100). -/
def execCint4 (s : State) : Host.Outcome State Fault Refusal :=
  primitive
    (fun opa _ => resByte (average4 (byteLane opa 0) (byteLane opa 1) (byteLane opa 2) (byteLane opa 3))) s

end Sys2Proof.Machine
end

