-- ==== Sys2Proof/Machine/ColorTransform.lean ====
section
/-! DEFINITION. The ColorTransform RGB ↔ YCoCg (41_color.md) and the commands YCCF and YCCI. All arithmetic is on
unbounded integers (00_scope.md R13). -/

namespace Sys2Proof.Machine

/-- sat8(v) = min(max(v, 0), 255) (R11). -/
def sat8 (v : Int) : Byte := BitVec.ofNat 8 (min (max v 0) 255).toNat

/-- A sample as an integer. -/
def sampleInt (b : Byte) : Int := (b.toNat : Int)

/-- DIV(n, d, MODE) for d > 0 (R75); Lean's `/` on integers is floor division for a positive divisor. -/
def roundDiv (mode : YccDiv) (n d : Int) : Int :=
  match mode with
  | .floor => n / d
  | .trunc => if 0 ≤ n then n / d else -((-n) / d)
  | .halfUp => (2 * n + d) / (2 * d)

/-- y of the forward transform (R76). -/
def yccY (mode : YccDiv) (r g b : Byte) : Byte :=
  sat8 (roundDiv mode (2 * sampleInt g + sampleInt r + sampleInt b) 4)

/-- co of the forward transform (R76). -/
def yccCo (mode : YccDiv) (r b : Byte) : Byte :=
  sat8 (roundDiv mode (sampleInt r - sampleInt b) 2 + 128)

/-- cg of the forward transform (R76). -/
def yccCg (mode : YccDiv) (r g b : Byte) : Byte :=
  sat8 (roundDiv mode (2 * sampleInt g - sampleInt r - sampleInt b) 4 + 128)

/-- r of the inverse transform (R78). -/
def yccR (y co cg : Byte) : Byte := sat8 (sampleInt y + sampleInt co - sampleInt cg)

/-- g of the inverse transform (R78). -/
def yccG (y cg : Byte) : Byte := sat8 (sampleInt y + sampleInt cg - 128)

/-- b of the inverse transform (R78). -/
def yccB (y co cg : Byte) : Byte := sat8 (sampleInt y - sampleInt co - sampleInt cg + 256)

/-- YCCF: forward colour transform, rounded as YCC_DIV says (R82). -/
def execYccf (s : State) : Host.Outcome State Fault Refusal :=
  primitive
    (fun opa _ =>
      let r := byteLane opa 0
      let g := byteLane opa 1
      let b := byteLane opa 2
      resBytes3 (yccY s.cfg.yccDiv r g b) (yccCo s.cfg.yccDiv r b) (yccCg s.cfg.yccDiv r g b)) s

/-- YCCI: inverse colour transform (R83). -/
def execYcci (s : State) : Host.Outcome State Fault Refusal :=
  primitive
    (fun opa _ =>
      let y := byteLane opa 0
      let co := byteLane opa 1
      let cg := byteLane opa 2
      resBytes3 (yccR y co cg) (yccG y cg) (yccB y co cg)) s

end Sys2Proof.Machine
end

