-- ==== Sys2Proof/Machine/Quantizer.lean ====
section
/-! DEFINITION. The DeltaQuantizer (40_quantizer.md): the table REP, quantization, reconstruction, and the commands QENC,
QDEC, QREC and QSTEP. -/

namespace Sys2Proof.Machine

/-- REP, the 16-entry quantizer table (R64). -/
def repTable : List Byte := [0, 1, 3, 7, 15, 31, 63, 95, 128, 161, 193, 225, 241, 249, 253, 255]

/-- REP[c], the representative of a code (R64). -/
def rep (c : Code) : Byte := repTable.getD c.toNat 0

/-- The wrapped delta of an actual sample against a predicted one, (a − p) mod 256 (R66). -/
def wrappedDelta (p a : Byte) : Byte := a - p

/-- The largest code among 0 .. n whose representative does not exceed δ; code 0 always qualifies (R67). -/
def qcodeUpTo : Nat → Byte → Code
  | 0, _ => 0
  | n + 1, δ => if rep (BitVec.ofNat 4 (n + 1)) ≤ δ then BitVec.ofNat 4 (n + 1) else qcodeUpTo n δ

/-- qcode(δ) = max of the codes c in 0..15 with REP[c] ≤ δ (R67); δ = 128 gives code 8 (R68). -/
def qcode (δ : Byte) : Code := qcodeUpTo 15 δ

/-- recon(p, c) = (p + REP[c]) mod 256 (R69). -/
def recon (p : Byte) (c : Code) : Byte := p + rep c

/-- QENC: quantize a delta (R71). -/
def execQenc (s : State) : Host.Outcome State Fault Refusal :=
  primitive (fun opa opb => resCode (qcode (wrappedDelta (byteLane opa 0) (byteLane opb 0)))) s

/-- QDEC: the representative of a code (R72). -/
def execQdec (s : State) : Host.Outcome State Fault Refusal :=
  primitive (fun opa _ => resByte (rep (codeField opa))) s

/-- QREC: reconstruct a sample from its predictor and code (R73). -/
def execQrec (s : State) : Host.Outcome State Fault Refusal :=
  primitive (fun opa opb => resByte (recon (byteLane opa 0) (codeField opb))) s

/-- QSTEP: one self-consistent encoder step, code and reconstruction (R74). -/
def execQstep (s : State) : Host.Outcome State Fault Refusal :=
  primitive
    (fun opa opb =>
      let p := byteLane opa 0
      let c := qcode (wrappedDelta p (byteLane opb 0))
      resCodeByte c (recon p c)) s

end Sys2Proof.Machine
end

