-- ==== Sys2Proof/Machine/Modes.lean ====
section
/-! DEFINITION. Mode variants and their registry (44_modes.md): desc8, resolution, planes and lines, line coding, storage,
the encode and decode functions ENC and DEC, and compute_length. -/

namespace Sys2Proof.Machine

/-! ## Descriptors and resolution -/

/-- The LAYOUT field of desc8 (R103). -/
def layoutCode : Layout → BitVec 2
  | .row => 0
  | .planar => 1
  | .adaptive => 2

/-- desc8, bit 7 down to bit 0: ALPHA_OK, GRAY_OK, DELTA, COLOR, STORAGE, CHROMA, LAYOUT (R103). -/
def desc8 (d : Descriptor) : Byte :=
  BitVec.ofBool d.alphaOk ++ BitVec.ofBool d.grayOk ++ BitVec.ofBool (d.delta == .raw8) ++
    BitVec.ofBool (d.color == .ycocg) ++ BitVec.ofBool (d.storage == .packed) ++
    BitVec.ofBool (d.chroma == .sub2x2) ++ layoutCode d.layout

/-- The value DESC takes when resolution succeeds: {eff_mode[15:0], 0x00, desc8[7:0]} (R24). -/
def descWord (effMode : BitVec 16) (d : Descriptor) : Word := effMode ++ 0#8 ++ desc8 d

/-- The id consulted: DEFAULT_MODE stands for id 0 (R105, R106). -/
def effectiveMode (cfg : Config) (m : BitVec 16) : BitVec 16 := if m = 0 then cfg.defaultMode else m

/-- Whether a descriptor accepts a channel count (R102, R106). -/
def acceptsChannels (d : Descriptor) (c : Nat) : Bool :=
  c == 3 || (c == 1 && d.grayOk) || (c == 4 && d.alphaOk)

/-- resolve(m, c) (R106); `none` is VariantNotSupported. -/
def resolveMode (cfg : Config) (m : BitVec 16) (c : Nat) : Option (BitVec 16 × Descriptor) :=
  if c ≠ 1 ∧ c ≠ 3 ∧ c ≠ 4 then none
  else if m = 0xFFFF then none
  else
    match cfg.entryOf (effectiveMode cfg m) with
    | .unassigned => none
    | .deprecated => none
    | .descriptor d => if acceptsChannels d c then some (effectiveMode cfg m, d) else none

/-! ## Planes and lines -/

/-- The sizes (wp, hp) of the planes, in order (R108). -/
def planeSizes (d : Descriptor) (c w h : Nat) : List (Nat × Nat) :=
  if c = 1 then [(w, h)]
  else
    match d.color with
    | .rgb => List.replicate c (w, h)
    | .ycocg =>
      (match d.chroma with
       | .full => [(w, h), (w, h), (w, h)]
       | .sub2x2 => [(w, h), (ceil2 w, ceil2 h), (ceil2 w, ceil2 h)]) ++
      (if c = 4 then [(w, h)] else [])

/-- PLANES_ENC (R108): the planes of the source image, img(x, y, k) being its samples. -/
def planesEnc (cfg : Config) (d : Descriptor) (c w h : Nat) (img : Nat → Nat → Nat → Byte) : List Plane :=
  if c = 1 then [planeOf w h (fun x y => img x y 0)]
  else
    match d.color with
    | .rgb => (List.range c).map (fun k => planeOf w h (fun x y => img x y k))
    | .ycocg =>
      let Y := planeOf w h (fun x y => yccY cfg.yccDiv (img x y 0) (img x y 1) (img x y 2))
      let CO := planeOf w h (fun x y => yccCo cfg.yccDiv (img x y 0) (img x y 2))
      let CG := planeOf w h (fun x y => yccCg cfg.yccDiv (img x y 0) (img x y 1) (img x y 2))
      (match d.chroma with
       | .full => [Y, CO, CG]
       | .sub2x2 => [Y, csub cfg.csubRound CO, csub cfg.csubRound CG]) ++
      (if c = 4 then [planeOf w h (fun x y => img x y 3)] else [])

/-- COLS, from the image's own width and height (R109). -/
def scansColumns (d : Descriptor) (w h : Nat) : Bool := d.layout == .adaptive && decide (w < h)

/-- LINES(P, wp, hp): the rows from top to bottom, or the columns from left to right (R110). -/
def planeLines (cols : Bool) (P : Plane) : List (List Byte) :=
  if cols then (List.range P.width).map (fun i => (List.range P.height).map (fun j => planeAt P i j))
  else (List.range P.height).map (fun j => (List.range P.width).map (fun i => planeAt P i j))

/-! ## Line coding -/

/-- The deltas of the samples after a header, each against the reconstructed predecessor `pred`: a code as a byte under Q4,
the wrapped delta itself under RAW8 (R111). -/
def lineDeltas (kind : DeltaKind) : Byte → List Byte → List Byte
  | _, [] => []
  | pred, a :: rest =>
    match kind with
    | .q4 =>
      let k := qcode (wrappedDelta pred a)
      codeByte k :: lineDeltas kind (recon pred k) rest
    | .raw8 => wrappedDelta pred a :: lineDeltas kind a rest

/-- LINE_ENC (R111): the verbatim header and the deltas. A line has at least one sample. -/
def lineEnc (kind : DeltaKind) : List Byte → Byte × List Byte
  | [] => (0, [])
  | hdr :: rest => (hdr, lineDeltas kind hdr rest)

/-- What a stored delta adds to the predecessor (R112). -/
def deltaStep (kind : DeltaKind) (q : Byte) : Byte :=
  match kind with
  | .q4 => rep (lowNibble q)
  | .raw8 => q

/-- LINE_DEC (R112): the header and one reconstructed sample for each delta. -/
def lineDec (kind : DeltaKind) : Byte → List Byte → List Byte
  | v, [] => [v]
  | v, q :: qs => v :: lineDec kind (v + deltaStep kind q) qs

/-! ## Storage -/

/-- SEG(d, n): the bytes a segment of n deltas takes (R114). -/
def segLen (d : Descriptor) (n : Nat) : Nat :=
  match d.storage with
  | .simple => n
  | .packed => ceil2 n

/-- STORE(d, q) (R114). -/
def storeDeltas (d : Descriptor) (q : List Byte) : List Byte :=
  match d.storage with
  | .simple => q
  | .packed => pack (q.map lowNibble)

/-- LOAD(d, B, n): under SIMPLE Q4 the decoder ignores bits [7:4] (R114). -/
def loadDeltas (d : Descriptor) (bytes : List Byte) (n : Nat) : List Byte :=
  match d.storage with
  | .packed => (unpack bytes n).map codeByte
  | .simple =>
    match d.delta with
    | .q4 => (bytes.take n).map (fun b => codeByte (lowNibble b))
    | .raw8 => bytes.take n

/-! ## Streams -/

/-- Row y of ROW_STREAM: c headers, then the stored deltas in pixel-interleaved order (R115). -/
def rowStreamAt (d : Descriptor) (c w : Nat) (planes : List Plane) (y : Nat) : List Byte :=
  let coded := (List.range c).map (fun k =>
    lineEnc d.delta ((List.range w).map (fun x => planeAt (planes.getD k (planeOf 0 0 (fun _ _ => 0))) x y)))
  coded.map Prod.fst ++
    storeDeltas d ((List.range (w - 1)).flatMap (fun t => coded.map (fun hq => hq.2.getD t 0)))

/-- ROW_STREAM (R115). -/
def rowStream (d : Descriptor) (c w h : Nat) (planes : List Plane) : List Byte :=
  (List.range h).flatMap (rowStreamAt d c w planes)

/-- PLANE_STREAM: one header a line, then the plane's stored deltas (R116). -/
def planeStream (d : Descriptor) (cols : Bool) (P : Plane) : List Byte :=
  let coded := (planeLines cols P).map (lineEnc d.delta)
  coded.map Prod.fst ++ storeDeltas d (coded.flatMap Prod.snd)

/-- ENC (R117). -/
def encodeImage (cfg : Config) (d : Descriptor) (c w h : Nat) (img : Nat → Nat → Nat → Byte) : List Byte :=
  let planes := planesEnc cfg d c w h img
  match d.layout with
  | .row => rowStream d c w h planes
  | .planar | .adaptive => planes.flatMap (planeStream d (scansColumns d w h))

/-- The bytes PLANE_STREAM gives a plane of size (wp, hp) (R118). -/
def planeLen (d : Descriptor) (cols : Bool) (size : Nat × Nat) : Nat :=
  if cols then size.1 + segLen d (size.1 * (size.2 - 1)) else size.2 + segLen d (size.2 * (size.1 - 1))

/-- The bytes ROW_STREAM gives a row (R118). -/
def rowLen (d : Descriptor) (c w : Nat) : Nat := c + segLen d ((w - 1) * c)

/-- compute_length, clen(d, c, w, h) (R118). -/
def computeLength (d : Descriptor) (c w h : Nat) : Nat :=
  match d.layout with
  | .row => h * rowLen d c w
  | .planar | .adaptive => ((planeSizes d c w h).map (planeLen d (scansColumns d w h))).sum

/-! ## Decoding -/

/-- One row of a ROW stream: c reconstructed lines of w samples (R119). -/
def rowDec (d : Descriptor) (c w : Nat) (bytes : List Byte) : List (List Byte) :=
  let q := loadDeltas d (bytes.drop c) ((w - 1) * c)
  (List.range c).map (fun k =>
    lineDec d.delta (bytes.getD k 0) ((List.range (w - 1)).map (fun t => q.getD (t * c + k) 0)))

/-- The planes of a ROW stream (R119). -/
def rowPlanes (d : Descriptor) (c w h : Nat) (bytes : List Byte) : List Plane :=
  let rows := (List.range h).map (fun y => rowDec d c w (bytes.drop (y * rowLen d c w)))
  (List.range c).map (fun k => { width := w, height := h, rows := rows.map (fun r => r.getD k []) })

/-- One plane of a PLANAR or ADAPTIVE stream: m lines of n samples, laid out as rows or as columns (R119). -/
def planeDec (d : Descriptor) (cols : Bool) (size : Nat × Nat) (bytes : List Byte) : Plane :=
  let m := if cols then size.1 else size.2
  let n := if cols then size.2 else size.1
  let q := loadDeltas d (bytes.drop m) (m * (n - 1))
  let lines := (List.range m).map (fun l =>
    lineDec d.delta (bytes.getD l 0) ((q.drop (l * (n - 1))).take (n - 1)))
  if cols then planeOf size.1 size.2 (fun x y => (lines.getD x []).getD y 0)
  else { width := size.1, height := size.2, rows := lines }

/-- The planes of a PLANAR or ADAPTIVE stream, one after the other (R119). -/
def planesDec (d : Descriptor) (cols : Bool) : List (Nat × Nat) → List Byte → List Plane
  | [], _ => []
  | size :: rest, bytes =>
    planeDec d cols size bytes :: planesDec d cols rest (bytes.drop (planeLen d cols size))

/-- The samples of the pixel (x, y), channel 0 first (R120). -/
def pixelDec (d : Descriptor) (c : Nat) (P : Nat → Plane) (CO CG : Plane) (x y : Nat) : List Byte :=
  if c = 1 then [planeAt (P 0) x y]
  else
    match d.color with
    | .rgb => (List.range c).map (fun k => planeAt (P k) x y)
    | .ycocg =>
      let yy := planeAt (P 0) x y
      let co := planeAt CO x y
      let cg := planeAt CG x y
      [yccR yy co cg, yccG yy cg, yccB yy co cg] ++ (if c = 4 then [planeAt (P 3) x y] else [])

/-- PIXELS_DEC (R120): the output samples in the order of R126, pixel by pixel along each row. A subsampled chroma plane is
interpolated before the inverse colour transform. -/
def pixelsDec (d : Descriptor) (c w h : Nat) (planes : List Plane) : List Byte :=
  let P := fun k => planes.getD k (planeOf 0 0 (fun _ _ => 0))
  let full := fun k =>
    match d.chroma with
    | .full => P k
    | .sub2x2 => cinterp (P k) w h
  (List.range h).flatMap (fun y => (List.range w).flatMap (fun x => pixelDec d c P (full 1) (full 2) x y))

/-- The planes DEC reads from a stream (R119). Bytes past clen are not read. -/
def decodePlanes (d : Descriptor) (c w h : Nat) (bytes : List Byte) : List Plane :=
  match d.layout with
  | .row => rowPlanes d c w h bytes
  | .planar | .adaptive => planesDec d (scansColumns d w h) (planeSizes d c w h) bytes

/-- DEC (R119), its w·h·c samples in the order of R126. -/
def decodeImage (d : Descriptor) (c w h : Nat) (bytes : List Byte) : List Byte :=
  pixelsDec d c w h (decodePlanes d c w h bytes)

end Sys2Proof.Machine
end

