-- ==== Sys2Proof/Machine/Engine.lean ====
section
/-! DEFINITION. The frame commands (45_engine.md): the snapshot, the checks of 60_exceptions.md R138, RESOLVE and CLEN, the
issue of ENCODE and DECODE, and the sequencer's completion step. -/

namespace Sys2Proof.Machine

/-! ## Snapshot and ranges -/

/-- The snapshot an accepted frame command takes (R124). -/
def takeSnapshot (s : State) : Snapshot where
  mode := s.mode
  chan := s.chan
  width := s.width
  height := s.height
  srcAddr := s.srcAddr
  srcStride := s.srcStride
  srcLen := s.srcLen
  dstAddr := s.dstAddr
  dstCap := s.dstCap

/-- compute_length for a snapshot's dimensions and channel count. -/
def streamLength (d : Descriptor) (n : Snapshot) : Nat :=
  computeLength d n.chan.toNat n.width.toNat n.height.toNat

/-- The length of the source read range (R127, n_in of R138). -/
def sourceLength (op : FrameOp) (d : Descriptor) (n : Snapshot) : Nat :=
  match op with
  | .encode => (n.height.toNat - 1) * n.srcStride.toNat + n.width.toNat * n.chan.toNat
  | .decode => streamLength d n

/-- The length of the destination write range (R127, n_out of R130 and R138). -/
def outputLength (op : FrameOp) (d : Descriptor) (n : Snapshot) : Nat :=
  match op with
  | .encode => streamLength d n
  | .decode => n.width.toNat * n.height.toNat * n.chan.toNat

/-- Whether an address lies in a pending command's source read range (R127). -/
def inSource (p : Pending) (a : Nat) : Bool := inRange a p.snap.srcAddr.toNat (sourceLength p.op p.desc p.snap)

/-- Whether an address lies in a pending command's destination write range (R127). -/
def inDestination (p : Pending) (a : Nat) : Bool := inRange a p.snap.dstAddr.toNat (outputLength p.op p.desc p.snap)

/-! ## The checks of a frame command (R138) -/

/-- Step 2: the dimensions. -/
def dimensionsBad (cfg : Config) (n : Snapshot) : Bool :=
  n.width == 0 || n.height == 0 || decide (cfg.maxWidth < n.width.toNat) || decide (cfg.maxHeight < n.height.toNat)

/-- Step 3: the source's size. -/
def sourceBad (op : FrameOp) (d : Descriptor) (n : Snapshot) : Bool :=
  (op == .encode && decide (n.srcStride.toNat < n.width.toNat * n.chan.toNat)) ||
    decide (n.srcLen.toNat < sourceLength op d n)

/-- Step 4: the capacity, the two ranges inside BUF, no overlap. All arithmetic is unbounded (R13). -/
def placementBad (cfg : Config) (op : FrameOp) (d : Descriptor) (n : Snapshot) : Bool :=
  decide (n.dstCap.toNat < outputLength op d n) ||
    decide (cfg.bufSize < n.srcAddr.toNat + sourceLength op d n) ||
    decide (cfg.bufSize < n.dstAddr.toNat + outputLength op d n) ||
    (decide (n.srcAddr.toNat < n.dstAddr.toNat + outputLength op d n) &&
      decide (n.dstAddr.toNat < n.srcAddr.toNat + sourceLength op d n))

/-- Steps 2 to 4 for ENCODE and DECODE: the first check that fails, if one does (R138, R139). -/
def frameError (cfg : Config) (op : FrameOp) (d : Descriptor) (n : Snapshot) : Option ErrorKind :=
  if dimensionsBad cfg n then some .constraintViolation
  else if sourceBad op d n then some .malformedData
  else if placementBad cfg op d n then some .constraintViolation
  else none

/-- Step 1 of every frame command (R138): resolve, write DESC (R24), then go on with the descriptor. -/
def withResolved (cmd : Instr) (proceed : Descriptor → State → State) (s : State) : State :=
  match resolveMode s.cfg (takeSnapshot s).mode (takeSnapshot s).chan.toNat with
  | none => raiseError (some cmd) .variantNotSupported { s with desc := 0 }
  | some (e, d) => proceed d { s with desc := descWord e d }

/-! ## Commands that complete at issue -/

/-- RESOLVE: validate a mode and channel count (R128). -/
def execResolve (s : State) : Host.Outcome State Fault Refusal :=
  issue (withResolved .resolve (fun _ t => completeIssue t)) s

/-- CLEN after the resolve step: the dimensions, then compute_length (R129, R138 step 2). -/
def performClen (d : Descriptor) (s : State) : State :=
  if dimensionsBad s.cfg (takeSnapshot s) then raiseError (some .clen) .constraintViolation s
  else completeIssue { s with outLen := BitVec.ofNat 32 (streamLength d (takeSnapshot s)) }

/-- CLEN: compute_length (R129). -/
def execClen (s : State) : Host.Outcome State Fault Refusal := issue (withResolved .clen performClen) s

/-! ## Commands that stay pending -/

/-- The pending record of a validated frame command (R130). -/
def pendingOf (op : FrameOp) (d : Descriptor) (n : Snapshot) : Pending where
  op := op
  snap := n
  desc := d
  nOut := outputLength op d n

/-- The issue of ENCODE or DECODE after the resolve step: the checks, then PEND and BUSY (R130). -/
def startFrame (cmd : Instr) (op : FrameOp) (d : Descriptor) (s : State) : State :=
  match frameError s.cfg op d (takeSnapshot s) with
  | some e => raiseError (some cmd) e s
  | none => { s with status := statusStarted s.status, pend := some (pendingOf op d (takeSnapshot s)) }

/-- ENCODE: TransformEngine encode (R132), pending from here to the completion step. -/
def execEncode (s : State) : Host.Outcome State Fault Refusal :=
  issue (withResolved .encode (startFrame .encode .encode)) s

/-- DECODE: TransformEngine decode (R133), pending from here to the completion step. -/
def execDecode (s : State) : Host.Outcome State Fault Refusal :=
  issue (withResolved .decode (startFrame .decode .decode)) s

/-! ## The completion step -/

/-- The address of img(x, y, k), the sample of channel k at pixel (x, y) (R125). -/
def sampleAddress (n : Snapshot) (x y k : Nat) : Nat :=
  n.srcAddr.toNat + y * n.srcStride.toNat + x * n.chan.toNat + k

/-- The bytes a pending command writes (R131): ENC of the source image, or the samples of DEC of the source stream. -/
def frameBytes (cfg : Config) (buf : Memory) (p : Pending) : List Byte :=
  let c := p.snap.chan.toNat
  let w := p.snap.width.toNat
  let h := p.snap.height.toNat
  match p.op with
  | .encode => encodeImage cfg p.desc c w h (fun x y k => readByte buf (sampleAddress p.snap x y k))
  | .decode => decodeImage p.desc c w h (readBytes buf p.snap.srcAddr.toNat (computeLength p.desc c w h))

/-- The sequencer's completion step (R131), one atomic step. -/
def completePending (p : Pending) (s : State) : State :=
  { s with
    buf := writeBytes s.buf p.snap.dstAddr.toNat (frameBytes s.cfg s.buf p)
    outLen := BitVec.ofNat 32 p.nOut
    pend := none
    status := statusFinished s.status }

/-- The sequencer's turn: the completion step is enabled exactly when PEND ≠ NONE (R131). -/
def sequencerTurn (s : State) : State :=
  match s.pend with
  | some p => completePending p s
  | none => s

end Sys2Proof.Machine
end

