-- ==== Sys2Proof/Machine/Dispatch.lean ====
section
/-! DEFINITION. One arm per command: what a write of its word to CMD does (30_encoding.md R58). -/

namespace Sys2Proof.Machine

def exec (i : Instr) (s : State) : Host.Outcome State Fault Refusal :=
  match i with
  | .qenc => Sys2Proof.Machine.execQenc s
  | .qdec => Sys2Proof.Machine.execQdec s
  | .qrec => Sys2Proof.Machine.execQrec s
  | .qstep => Sys2Proof.Machine.execQstep s
  | .yccf => Sys2Proof.Machine.execYccf s
  | .ycci => Sys2Proof.Machine.execYcci s
  | .npack2 => Sys2Proof.Machine.execNpack2 s
  | .npack1 => Sys2Proof.Machine.execNpack1 s
  | .nunpack => Sys2Proof.Machine.execNunpack s
  | .cavg => Sys2Proof.Machine.execCavg s
  | .cint2 => Sys2Proof.Machine.execCint2 s
  | .cint4 => Sys2Proof.Machine.execCint4 s
  | .resolve => Sys2Proof.Machine.execResolve s
  | .clen => Sys2Proof.Machine.execClen s
  | .encode => Sys2Proof.Machine.execEncode s
  | .decode => Sys2Proof.Machine.execDecode s

end Sys2Proof.Machine
end

