-- ==== Sys2Proof/Machine/Bus.lean ====
section
/-! DEFINITION. What happens at RDQ's boundary: the host's register and BUF accesses (10_state.md R18, 20_memory.md R48 and
R49, 60_exceptions.md R140) and reset (70_reset_and_hazards.md R152, R153). -/

namespace Sys2Proof.Machine

/-- A host write of a value to CMD (R19, R58). -/
def issueWord (v : Word) (s : State) : Host.Outcome State Fault Refusal :=
  match Sys2Proof.decode v with
  | .ok i => exec i s
  | .error _ => illegalCommand s

/-- A host write in the register window (R18): a reserved offset ignores it, CMD issues a command. -/
def hostRegWrite (offset : Byte) (size : Nat) (v : Word) (s : State) : Host.Outcome State Fault Refusal :=
  if alignedWordAccess offset size then
    match regAt offset with
    | some .cmd => issueWord v s
    | some r => .next (writeReg r v s)
    | none => .next s
  else .fault (.hostDutyRegisterAccess offset size)

/-- A host read in the register window: a reserved offset reads as 0 (R18 (3)), and no read has a side effect (R42). -/
def hostRegRead (offset : Byte) (size : Nat) (s : State) : Host.Outcome State Fault Refusal :=
  if alignedWordAccess offset size then
    match regAt offset with
    | some r => .next { s with readData := readReg r s }
    | none => .next { s with readData := 0 }
  else .fault (.hostDutyRegisterAccess offset size)

/-- Whether the host must leave a BUF byte alone: it is in a range of the pending command (R49). -/
def ownedByPending (pend : Option Pending) (a : Nat) : Bool :=
  match pend with
  | some p => inSource p a || inDestination p a
  | none => false

/-- Whether a BUF byte reads as an unspecified value: it is in the pending command's destination write range (R48). -/
def unspecifiedByte (pend : Option Pending) (a : Nat) : Bool :=
  match pend with
  | some p => inDestination p a
  | none => false

/-- A host write of one BUF byte (R33, R49, R140). -/
def hostBufWrite (addr : Nat) (v : Byte) (s : State) : Host.Outcome State Fault Refusal :=
  if s.cfg.bufSize ≤ addr then .fault (.noSuchBufferAddress addr)
  else if ownedByPending s.pend addr then .fault (.hostDutyBufferWrite addr)
  else .next { s with buf := writeByte s.buf addr v }

/-- A host read of one BUF byte: the stored byte, or the next free value in the destination write range of the pending
command (R48). -/
def hostBufRead (addr : Nat) (s : State) : Host.Outcome State Fault Refusal :=
  if s.cfg.bufSize ≤ addr then .fault (.noSuchBufferAddress addr)
  else if unspecifiedByte s.pend addr then
    .next { s with readData := resByte (Config.freeByte s.draws), draws := s.draws + 1 }
  else .next { s with readData := resByte (readByte s.buf addr) }

/-- n free values, from the k-th on. -/
def freeBytes (k n : Nat) : List Byte := (List.range n).map (fun i => Config.freeByte (k + i))

/-- The number of bytes reset leaves unspecified: the destination write range of a pending command (R153). -/
def abandonedLength (s : State) : Nat :=
  match s.pend with
  | some p => outputLength p.op p.desc p.snap
  | none => 0

/-- BUF after reset: every byte keeps its value but those of the destination write range of an abandoned command, which
take a free value each (R153). -/
def bufAfterReset (s : State) : Memory :=
  match s.pend with
  | some p => writeBytes s.buf p.snap.dstAddr.toNat (freeBytes s.draws (abandonedLength s))
  | none => s.buf

/-- Reset is asserted (R152, R153): the registers, STATUS and PEND take their reset values. The configuration, what comes
next at the boundary and what the host has already read are not RDQ's to reset. -/
def applyReset (s : State) : State :=
  { State.reset with
    cfg := s.cfg
    buf := bufAfterReset s
    inputs := s.inputs
    readData := s.readData
    draws := s.draws + abandonedLength s }

/-- One event at the boundary. -/
def performEvent (e : Event) (s : State) : Host.Outcome State Fault Refusal :=
  match e with
  | .regWrite offset size v => hostRegWrite offset size v s
  | .regRead offset size => hostRegRead offset size s
  | .bufWrite addr v => hostBufWrite addr v s
  | .bufRead addr => hostBufRead addr s
  | .sequencer => .next (sequencerTurn s)
  | .reset => .next (applyReset s)

/-- The events of the boundary in order; when there is none left, the sequencer completes what is pending (R156), and an
idle machine stays as it is (R151). -/
def stepEvents (s : State) : Host.Outcome State Fault Refusal :=
  match s.inputs with
  | [] => .next (sequencerTurn s)
  | e :: rest => performEvent e { s with inputs := rest }

/-- The event that hands a command word to RDQ: an aligned 32-bit write to CMD. -/
def commandEvent (v : Word) : Event := .regWrite (offsetOf .cmd) 4 v

end Sys2Proof.Machine
end

