-- ==== Sys2Proof/Machine/Step.lean ====
section
/-! DEFINITION. One step: the next event at RDQ's boundary, or the sequencer's completion step (10_state.md R15). -/

namespace Sys2Proof.Machine

/-- One step of the machine. A configuration that breaks R7 or R104 is refused (93_implementation_defined.md row 13). -/
def step (s : State) : Host.Outcome State Fault Refusal :=
  if s.cfg.legal then stepEvents s else .refused .invalidConfiguration

/-- `s` with the word of an opcode-table row (bits above `nbits` zero) as the host's next write to CMD: RDQ fetches no
instruction (R27, R35), a command reaches it by that write (R19). -/
def State.withFetchWord (s : State) (nbits w : Nat) : State :=
  { s with inputs := commandEvent (BitVec.ofNat 32 (w % 2 ^ nbits)) :: s.inputs }

end Sys2Proof.Machine
end

