-- ==== Sys2Proof/Safety.lean ====
section
/-! DEFINITION. What a reachable state satisfies, and what a safe run is: the machine's invariant, from 10_state.md R20 and
R25, 60_exceptions.md R135 and R138, and the form of the model's memory. -/

namespace Sys2Proof.Machine

/-- BUF is in canonical form and lists only addresses that exist, 0 .. BUF_SIZE − 1 (R33). -/
abbrev State.BufOk (s : State) : Prop := Memory.wf s.buf ∧ ∀ cell ∈ s.buf, cell.1 < s.cfg.bufSize

/-- The invariants of STATUS the spec names: ERR = 1 exactly when ERRCODE ≠ 0, BUSY = 1 implies DONE = 0 (R20), ERRCODE ≤ 4
(R135), and a pending command has no error (R130). -/
abbrev Status.Ok (st : Status) : Prop :=
  (st.err = true ↔ st.errcode ≠ 0) ∧ (st.busy = true → st.done = false) ∧ st.errcode ≤ 4 ∧
    (st.busy = true → st.err = false)

/-- A pending record is one that the issue of ENCODE or DECODE made (R130): its descriptor is what its MODE and CHAN resolve
to, its snapshot passed every check of R138, and its output length is that of R130. -/
abbrev Pending.Ok (cfg : Config) (p : Pending) : Prop :=
  (resolveMode cfg p.snap.mode p.snap.chan.toNat).map Prod.snd = some p.desc ∧
    frameError cfg p.op p.desc p.snap = none ∧ p.nOut = outputLength p.op p.desc p.snap

/-- PEND, when there is one, is `Pending.Ok`. -/
def State.PendOk (s : State) : Prop := ∀ p, s.pend = some p → Pending.Ok s.cfg p

/-- The machine's invariant: a valid configuration (R104), BUF's form, STATUS, BUSY = 1 exactly when PEND ≠ NONE (R25), and
PEND. -/
structure State.Inv (s : State) : Prop where
  cfg    : s.cfg.legal = true
  buf    : s.BufOk
  status : Status.Ok s.status
  busy   : s.status.busy = s.pend.isSome
  pend   : s.PendOk

/-- `k` steps, stopping at the first fault or refusal: `Host.Core.run` on this machine. -/
def runSteps : Nat → State → Host.Outcome State Fault Refusal
  | 0, s => .next s
  | k + 1, s =>
    match step s with
    | .next t => runSteps k t
    | .fault f => .fault f
    | .refused r => .refused r

/-- A step that is safe: it answers a next state. The unsafe ones break a host duty (R140), name an address that does not
exist (R33), or run an invalid configuration (R104). -/
def State.StepsSafely (s : State) : Prop := ∃ t, step s = .next t

end Sys2Proof.Machine
end

