-- ==== Sys2Proof/Certificates/Slice0/Obligations.lean ====
section
/-! DEFINITION. The statements for the provers. `Sys2Proof.Rule` holds the spec's own formulas on plain numbers, written from
the rules and not from the model; each statement compares the model with them, or with a rule's words. -/

namespace Sys2Proof.Rule

open Sys2Proof.Machine

/-- Byte lane i of a register as a number (R39). -/
def lane (w : Word) (i : Nat) : Nat := w.toNat / 256 ^ i % 256

/-- The code operand w[3:0] as a number (R55). -/
def nibble (w : Word) : Nat := w.toNat % 16

/-- REP[c] as a number (R64). -/
def rep (c : Nat) : Nat := [0, 1, 3, 7, 15, 31, 63, 95, 128, 161, 193, 225, 241, 249, 253, 255].getD c 0

/-- δ = (actual − predicted) mod 256 (R66). -/
def delta (p a : Nat) : Nat := (((a : Int) - p) % 256).toNat

/-- c is the largest code whose representative does not exceed δ (R67). -/
def isQcode (δ c : Nat) : Prop := c ≤ 15 ∧ rep c ≤ δ ∧ ∀ k ≤ 15, rep k ≤ δ → k ≤ c

/-- DIV(n, d, MODE) (R75), with `div` floor division. -/
def div (mode : YccDiv) (n d : Int) : Int :=
  match mode with
  | .floor => Int.fdiv n d
  | .trunc => if n ≥ 0 then Int.fdiv n d else -(Int.fdiv (-n) d)
  | .halfUp => Int.fdiv (2 * n + d) (2 * d)

/-- sat8 (R11) as a number. -/
def sat (v : Int) : Nat := (min (max v 0) 255).toNat

/-- s >> 2 or (s + 2) >> 2, as CSUB_ROUND says (R93). -/
def mean4 (mode : CsubRound) (s : Nat) : Nat :=
  match mode with
  | .floor => s / 4
  | .halfUp => (s + 2) / 4

/-- y of R76 for the samples r, g and b. -/
def luma (mode : YccDiv) (r g b : Nat) : Nat := sat (div mode (2 * g + r + b) 4)

/-- co of R76. -/
def orange (mode : YccDiv) (r b : Nat) : Nat := sat (div mode ((r : Int) - b) 2 + 128)

/-- cg of R76. -/
def green (mode : YccDiv) (r g b : Nat) : Nat := sat (div mode (2 * g - r - b) 4 + 128)

/-- CSUB of R92 at (i, j), for a w × h plane given by its samples. -/
def csub (mode : CsubRound) (w h : Nat) (P : Nat → Nat → Nat) (i j : Nat) : Nat :=
  mean4 mode (P (2 * i) (2 * j) + P (min (2 * i + 1) (w - 1)) (2 * j) + P (2 * i) (min (2 * j + 1) (h - 1)) +
    P (min (2 * i + 1) (w - 1)) (min (2 * j + 1) (h - 1)))

/-- SEG(d, n) (R114). -/
def seg (d : Descriptor) (n : Nat) : Nat :=
  match d.storage with
  | .simple => n
  | .packed => (n + 1) / 2

/-- Delta i of a stored segment, as the number its byte or nibble holds (R84, R114). -/
def storedDelta (d : Descriptor) (bytes : List Byte) (i : Nat) : Nat :=
  match d.storage with
  | .simple => (bytes.getD i 0).toNat
  | .packed => if i % 2 = 0 then (bytes.getD (i / 2) 0).toNat % 16 else (bytes.getD (i / 2) 0).toNat / 16

/-- Sample (x, y) of plane k of a list of planes. -/
def sampleOf (planes : List Plane) (k x y : Nat) : Nat :=
  (planeAt (planes.getD k { width := 0, height := 0, rows := [] }) x y).toNat

/-- desc8 as a number (R103). -/
def desc8 (d : Descriptor) : Nat :=
  (match d.layout with | .row => 0 | .planar => 1 | .adaptive => 2) +
    (match d.chroma with | .full => 0 | .sub2x2 => 4) +
    (match d.storage with | .simple => 0 | .packed => 8) +
    (match d.color with | .rgb => 0 | .ycocg => 16) +
    (match d.delta with | .q4 => 0 | .raw8 => 32) +
    (if d.grayOk then 64 else 0) + (if d.alphaOk then 128 else 0)

/-- {eff_mode[15:0], 0x00, desc8[7:0]} (R24). -/
def descValue (e : BitVec 16) (d : Descriptor) : Word := BitVec.ofNat 32 (e.toNat * 65536 + desc8 d)

/-- The id that is looked up (R105, R106). -/
def effective (cfg : Config) (m : BitVec 16) : BitVec 16 := if m = 0 then cfg.defaultMode else m

/-- resolve(m, c) returns (e, d) (R106). -/
def resolves (cfg : Config) (m : BitVec 16) (c : Nat) (e : BitVec 16) (d : Descriptor) : Prop :=
  (c = 1 ∨ c = 3 ∨ c = 4) ∧ m ≠ 0xFFFF ∧ e = effective cfg m ∧ cfg.entryOf e = .descriptor d ∧
    (c = 1 → d.grayOk = true) ∧ (c = 4 → d.alphaOk = true)

/-- resolve(m, c) raises VariantNotSupported, cause by cause (R106, R135). -/
def resolveFails (cfg : Config) (m : BitVec 16) (c : Nat) : Prop :=
  (c ≠ 1 ∧ c ≠ 3 ∧ c ≠ 4) ∨ m = 0xFFFF ∨ cfg.entryOf (effective cfg m) = .unassigned ∨
    cfg.entryOf (effective cfg m) = .deprecated ∨
    ∃ d, cfg.entryOf (effective cfg m) = .descriptor d ∧
      ((c = 1 ∧ d.grayOk = false) ∨ (c = 4 ∧ d.alphaOk = false))

/-- STATUS after a completion without error, issued while BUSY = 0: DONE alone (R20, R58). -/
def doneStatus : Status := { busy := false, done := true, err := false, drop := false, errcode := 0 }

/-- STATUS after a completion with an error, issued while BUSY = 0: DONE, ERR and the code (R58, R137). -/
def errorStatus (code : BitVec 4) : Status :=
  { busy := false, done := true, err := true, drop := false, errcode := code }

/-- STATUS after the issue of a command that stays pending: BUSY alone (R58, R130). -/
def busyStatus : Status := { busy := true, done := false, err := false, drop := false, errcode := 0 }

/-- The host's aligned 32-bit write to CMD, offset 0x00 (R17, R19). -/
def commandWrite (v : Word) : Event := .regWrite 0x00#8 4 v

/-- The dimension check of a frame command fails (R138, step 2). -/
def dimensionsFail (s : State) : Prop :=
  s.width.toNat = 0 ∨ s.height.toNat = 0 ∨ s.width.toNat > s.cfg.maxWidth ∨ s.height.toNat > s.cfg.maxHeight

/-- n_in of R138 for the registers of `s`. -/
def nIn (op : FrameOp) (d : Descriptor) (s : State) : Nat :=
  match op with
  | .encode => (s.height.toNat - 1) * s.srcStride.toNat + s.width.toNat * s.chan.toNat
  | .decode => computeLength d s.chan.toNat s.width.toNat s.height.toNat

/-- n_out of R138 for the registers of `s`. -/
def nOut (op : FrameOp) (d : Descriptor) (s : State) : Nat :=
  match op with
  | .encode => computeLength d s.chan.toNat s.width.toNat s.height.toNat
  | .decode => s.width.toNat * s.height.toNat * s.chan.toNat

/-- The source check of ENCODE or DECODE fails (R138, step 3). -/
def sourceFails (op : FrameOp) (d : Descriptor) (s : State) : Prop :=
  (op = .encode ∧ s.srcStride.toNat < s.width.toNat * s.chan.toNat) ∨ s.srcLen.toNat < nIn op d s

/-- The capacity, range and overlap checks of ENCODE or DECODE fail (R138, step 4). -/
def placementFails (op : FrameOp) (d : Descriptor) (s : State) : Prop :=
  s.dstCap.toNat < nOut op d s ∨ s.srcAddr.toNat + nIn op d s > s.cfg.bufSize ∨
    s.dstAddr.toNat + nOut op d s > s.cfg.bufSize ∨
    (s.srcAddr.toNat < s.dstAddr.toNat + nOut op d s ∧ s.dstAddr.toNat < s.srcAddr.toNat + nIn op d s)

/-- The command of a pending operation. -/
def commandOf : FrameOp → Instr
  | .encode => .encode
  | .decode => .decode

/-- The twelve primitive commands (R57). -/
def isPrimitive (i : Instr) : Prop :=
  i ∈ [Instr.qenc, .qdec, .qrec, .qstep, .yccf, .ycci, .npack2, .npack1, .nunpack, .cavg, .cint2, .cint4]

/-- A byte of BUF lies in the source read range of a pending command (R127). -/
def inSourceRange (p : Pending) (a : Nat) : Prop :=
  p.snap.srcAddr.toNat ≤ a ∧ a < p.snap.srcAddr.toNat +
    (match p.op with
     | .encode => (p.snap.height.toNat - 1) * p.snap.srcStride.toNat + p.snap.width.toNat * p.snap.chan.toNat
     | .decode => computeLength p.desc p.snap.chan.toNat p.snap.width.toNat p.snap.height.toNat)

/-- A byte of BUF lies in the destination write range of a pending command (R127). -/
def inDestinationRange (p : Pending) (a : Nat) : Prop :=
  p.snap.dstAddr.toNat ≤ a ∧ a < p.snap.dstAddr.toNat +
    (match p.op with
     | .encode => computeLength p.desc p.snap.chan.toNat p.snap.width.toNat p.snap.height.toNat
     | .decode => p.snap.width.toNat * p.snap.height.toNat * p.snap.chan.toNat)

/-- The source pixel buffer's samples: img(x, y, k) = the byte at SRC_ADDR + y·SRC_STRIDE + x·c + k (R125). -/
def img (buf : Memory) (n : Snapshot) (x y k : Nat) : Byte :=
  readByte buf (n.srcAddr.toNat + y * n.srcStride.toNat + x * n.chan.toNat + k)

/-- An image's samples in the order of R126: byte (y·w + x)·c + k is the sample of channel k at (x, y). -/
def imageBytes (c w h : Nat) (f : Nat → Nat → Nat → Byte) : List Byte :=
  (List.range (w * h * c)).map (fun i => f (i / c % w) (i / c / w) (i % c))

/-- A channel count a descriptor accepts (R102). -/
def accepts (d : Descriptor) (c : Nat) : Prop :=
  c = 3 ∨ (c = 1 ∧ d.grayOk = true) ∨ (c = 4 ∧ d.alphaOk = true)

end Sys2Proof.Rule

open Sys2Proof Sys2Proof.Machine

/-! ## The command word -/

/-- R56: the opcode map, every word of it and no other (match with mask 0xFFFFFFFF). -/
def Obligations.CommandWordsAreTheOpcodeMap : Prop :=
  ∀ (v : Word) (i : Instr), Sys2Proof.decode v = .ok i ↔
    (v.toNat, i) ∈ [(0x01, Instr.qenc), (0x02, .qdec), (0x03, .qrec), (0x04, .qstep), (0x08, .yccf), (0x09, .ycci),
      (0x0C, .npack2), (0x0D, .npack1), (0x0E, .nunpack), (0x10, .cavg), (0x11, .cint2), (0x12, .cint4),
      (0x20, .resolve), (0x21, .clen), (0x22, .encode), (0x23, .decode)]

/-- A word of each family, written out from R56, decodes to its command, and `encode` gives it back. -/
def Obligations.WrittenOutWordsDecode : Prop :=
  Sys2Proof.decode 0x00000004#32 = .ok .qstep ∧ Sys2Proof.decode 0x00000008#32 = .ok .yccf ∧
    Sys2Proof.decode 0x0000000E#32 = .ok .nunpack ∧ Sys2Proof.decode 0x00000012#32 = .ok .cint4 ∧
    Sys2Proof.decode 0x00000021#32 = .ok .clen ∧ Sys2Proof.decode 0x00000023#32 = .ok .decode ∧
    Sys2Proof.encode .qstep = 0x00000004#32 ∧ Sys2Proof.encode .yccf = 0x00000008#32 ∧
    Sys2Proof.encode .nunpack = 0x0000000E#32 ∧ Sys2Proof.encode .cint4 = 0x00000012#32 ∧
    Sys2Proof.encode .clen = 0x00000021#32 ∧ Sys2Proof.encode .decode = 0x00000023#32

/-- Decode and encode agree in both directions, for every command and for every word. -/
def Obligations.DecodeAndEncodeAgree : Prop :=
  (∀ i : Instr, i.wellFormed = true ∧ Sys2Proof.decode (Sys2Proof.encode i) = .ok i) ∧
    ∀ (v : Word) (i : Instr), Sys2Proof.decode v = .ok i → Sys2Proof.encode i = v

/-- R19 and R58: when the host's next access writes a command's word to CMD, the step is `exec` of that command on the state past
that access. What comes next at the boundary stands in `inputs` (the model's choice, notes/assumptions/7.md). -/
def Obligations.StepRunsTheDecodedCommand : Prop :=
  ∀ (s : State) (v : Word) (i : Instr) (rest : List Event),
    s.cfg.legal = true → s.inputs = Rule.commandWrite v :: rest → Sys2Proof.decode v = .ok i →
      step s = exec i { s with inputs := rest }

/-- R60, R136: a word that is no command completes at once with ERRCODE 4 and changes STATUS only. -/
def Obligations.IllegalWordCompletesWithIllegalCommand : Prop :=
  ∀ (s : State) (v : Word) (rest : List Event),
    s.cfg.legal = true → s.inputs = Rule.commandWrite v :: rest → s.status.busy = false →
    (v.toNat / 256 ≠ 0 ∨
      v.toNat % 256 ∉ [0x01, 0x02, 0x03, 0x04, 0x08, 0x09, 0x0C, 0x0D, 0x0E, 0x10, 0x11, 0x12, 0x20, 0x21, 0x22, 0x23]) →
      step s = .next { s with inputs := rest, status := Rule.errorStatus 4 }

/-- R59: a CMD write while BUSY = 1, whatever its value, sets DROP and changes nothing else. -/
def Obligations.CommandWriteWhileBusyOnlySetsDrop : Prop :=
  (∀ (s : State) (v : Word) (rest : List Event),
    s.cfg.legal = true → s.inputs = Rule.commandWrite v :: rest → s.status.busy = true →
      step s = .next { s with inputs := rest, status := { s.status with drop := true } }) ∧
    ∀ (i : Instr) (s : State), s.status.busy = true →
      exec i s = .next { s with status := { s.status with drop := true } }

/-! ## DeltaQuantizer -/

/-- R71, with R66 and R67: QENC writes the largest code whose representative does not exceed the wrapped delta. -/
def Obligations.QencWritesTheLargestCodeNotAboveDelta : Prop :=
  Sys2Proof.decode 0x00000001#32 = .ok .qenc ∧
    ∀ s : State, s.status.busy = false →
      ∃ c, Rule.isQcode (Rule.delta (Rule.lane s.opa 0) (Rule.lane s.opb 0)) c ∧
        exec .qenc s = .next { s with res := BitVec.ofNat 32 c, status := Rule.doneStatus }

/-- R72: QDEC writes the representative of OPA[3:0]. -/
def Obligations.QdecWritesTheRepresentative : Prop :=
  Sys2Proof.decode 0x00000002#32 = .ok .qdec ∧
    ∀ s : State, s.status.busy = false →
      exec .qdec s =
        .next { s with res := BitVec.ofNat 32 (Rule.rep (Rule.nibble s.opa)), status := Rule.doneStatus }

/-- R73, with R69: QREC adds the representative of OPB[3:0] to OPA[7:0], modulo 256. -/
def Obligations.QrecAddsTheRepresentative : Prop :=
  Sys2Proof.decode 0x00000003#32 = .ok .qrec ∧
    ∀ s : State, s.status.busy = false →
      exec .qrec s =
        .next { s with
          res := BitVec.ofNat 32 ((Rule.lane s.opa 0 + Rule.rep (Rule.nibble s.opb)) % 256)
          status := Rule.doneStatus }

/-- R74: QSTEP writes the code of QENC in RES[3:0] and the reconstruction from it in RES[15:8]. -/
def Obligations.QstepWritesCodeAndReconstruction : Prop :=
  Sys2Proof.decode 0x00000004#32 = .ok .qstep ∧
    ∀ s : State, s.status.busy = false →
      ∃ c, Rule.isQcode (Rule.delta (Rule.lane s.opa 0) (Rule.lane s.opb 0)) c ∧
        exec .qstep s =
          .next { s with
            res := BitVec.ofNat 32 ((Rule.lane s.opa 0 + Rule.rep c) % 256 * 256 + c)
            status := Rule.doneStatus }

/-- R70: for every predictor and actual sample, the decoded delta is a representative, quantization is monotonic in δ, the
wrapped error is δ − REP[code] and at most 32, it is 0 exactly at the representatives, and a reconstruction that wraps is
256 + a − e. -/
def Obligations.QuantizerErrorIsWrappedAndAtMost32 : Prop :=
  ∀ p a : Byte,
    let δ := (wrappedDelta p a).toNat
    let c := qcode (wrappedDelta p a)
    let e := (a - recon p c).toNat
    (rep c).toNat ∈ [0, 1, 3, 7, 15, 31, 63, 95, 128, 161, 193, 225, 241, 249, 253, 255] ∧
      (∀ p' a' : Byte, δ ≤ (wrappedDelta p' a').toNat → c.toNat ≤ (qcode (wrappedDelta p' a')).toNat) ∧
      e = δ - (rep c).toNat ∧ (rep c).toNat ≤ δ ∧ e ≤ 32 ∧
      (e = 0 ↔ δ ∈ [0, 1, 3, 7, 15, 31, 63, 95, 128, 161, 193, 225, 241, 249, 253, 255]) ∧
      (a.toNat < e → (recon p c).toNat = 256 + a.toNat - e) ∧ (e ≤ a.toNat → (recon p c).toNat = a.toNat - e)

/-! ## ColorTransform -/

/-- R82, with R75 and R76: YCCF writes y, co and cg, rounded as YCC_DIV says and saturated, one byte lane each. -/
def Obligations.YccfWritesTheForwardTransform : Prop :=
  Sys2Proof.decode 0x00000008#32 = .ok .yccf ∧
    ∀ (s : State) (r g b : Int), s.status.busy = false →
      r = Rule.lane s.opa 0 → g = Rule.lane s.opa 1 → b = Rule.lane s.opa 2 →
      exec .yccf s =
        .next { s with
          res := BitVec.ofNat 32
            (Rule.sat (Rule.div s.cfg.yccDiv (2 * g + r + b) 4) +
              256 * Rule.sat (Rule.div s.cfg.yccDiv (r - b) 2 + 128) +
              65536 * Rule.sat (Rule.div s.cfg.yccDiv (2 * g - r - b) 4 + 128))
          status := Rule.doneStatus }

/-- R83, with R78: YCCI writes r, g and b, saturated, one byte lane each. -/
def Obligations.YcciWritesTheInverseTransform : Prop :=
  Sys2Proof.decode 0x00000009#32 = .ok .ycci ∧
    ∀ (s : State) (y co cg : Int), s.status.busy = false →
      y = Rule.lane s.opa 0 → co = Rule.lane s.opa 1 → cg = Rule.lane s.opa 2 →
      exec .ycci s =
        .next { s with
          res := BitVec.ofNat 32
            (Rule.sat (y + co - cg) + 256 * Rule.sat (y + cg - 128) + 65536 * Rule.sat (y - co - cg + 256))
          status := Rule.doneStatus }

/-- From R77: where the forward transform leaves 0..255 before saturation. Under FLOOR and TRUNC it never does; under HALF_UP
co does exactly when r − b = 255, cg exactly when 2g − r − b = 510, both by reaching 256, and y never. -/
def Obligations.ForwardTransformSaturatesOnlyUnderHalfUp : Prop :=
  ∀ (mode : YccDiv) (r g b : Byte) (R G B y co cg : Int),
    R = r.toNat → G = g.toNat → B = b.toNat →
    y = roundDiv mode (2 * G + R + B) 4 → co = roundDiv mode (R - B) 2 + 128 →
    cg = roundDiv mode (2 * G - R - B) 4 + 128 →
      (0 ≤ y ∧ y ≤ 255) ∧ 0 ≤ co ∧ 0 ≤ cg ∧
        (mode ≠ .halfUp → co ≤ 255 ∧ cg ≤ 255) ∧
        (mode = .trunc → 1 ≤ co ∧ 1 ≤ cg) ∧
        (mode = .halfUp → co ≤ 256 ∧ cg ≤ 256 ∧ (co = 256 ↔ R - B = 255) ∧ (cg = 256 ↔ 2 * G - R - B = 510))

/-- R81: exchanging R and B keeps y and cg and turns co into 256 − co where the rounding is symmetric, and the inverse then
exchanges R and B. -/
def Obligations.ExchangingRedAndBlueNegatesCo : Prop :=
  ∀ (mode : YccDiv) (r g b : Byte),
    yccY mode b g r = yccY mode r g b ∧ yccCg mode b g r = yccCg mode r g b ∧
      ((mode = .trunc ∨ ((r.toNat : Int) - b.toNat) % 2 = 0) →
        (yccCo mode b r).toNat + (yccCo mode r b).toNat = 256 ∧
          ∀ y cg : Byte,
            yccR y (yccCo mode b r) cg = yccB y (yccCo mode r b) cg ∧
              yccB y (yccCo mode b r) cg = yccR y (yccCo mode r b) cg)

/-- From R79: the forward and then the inverse transform change each channel by at most 1 under FLOOR and HALF_UP and by at
most 2 under TRUNC. -/
def Obligations.ColorRoundTripErrorIsSmall : Prop :=
  ∀ (mode : YccDiv) (r g b : Byte),
    let y := yccY mode r g b
    let co := yccCo mode r b
    let cg := yccCg mode r g b
    let close := fun (after before : Byte) =>
      ((after.toNat : Int) - before.toNat).natAbs ≤ (if mode = .trunc then 2 else 1)
    close (yccR y co cg) r ∧ close (yccG y cg) g ∧ close (yccB y co cg) b

/-! ## NibblePacker -/

/-- R89, R90, R91: NPACK2, NPACK1 and NUNPACK. -/
def Obligations.NibbleCommandsPackAndUnpack : Prop :=
  (Sys2Proof.decode 0x0000000C#32 = .ok .npack2 ∧ Sys2Proof.decode 0x0000000D#32 = .ok .npack1 ∧
    Sys2Proof.decode 0x0000000E#32 = .ok .nunpack) ∧
    ∀ s : State, s.status.busy = false →
      exec .npack2 s =
          .next { s with
            res := BitVec.ofNat 32 (16 * Rule.nibble s.opb + Rule.nibble s.opa), status := Rule.doneStatus } ∧
        exec .npack1 s =
          .next { s with
            res := BitVec.ofNat 32 (16 * Rule.nibble s.opa + Rule.nibble s.opa), status := Rule.doneStatus } ∧
        exec .nunpack s =
          .next { s with
            res := BitVec.ofNat 32 (256 * (Rule.lane s.opa 0 / 16) + Rule.lane s.opa 0 % 16)
            status := Rule.doneStatus }

/-- R84: pack(q) has ceil2(n) bytes; byte j holds code 2j in bits [3:0] and code 2j+1, or code 2j again when there is none, in
bits [7:4]. -/
def Obligations.PackPutsTheEarlierCodeInTheLowNibble : Prop :=
  ∀ q : List Code,
    (pack q).length = (q.length + 1) / 2 ∧
      ∀ j, 2 * j < q.length →
        ((pack q).getD j 0).toNat =
          (q.getD (2 * j) 0).toNat +
            16 * (if 2 * j + 1 < q.length then q.getD (2 * j + 1) 0 else q.getD (2 * j) 0).toNat

/-- R87: unpack(pack(q), n) = q for every sequence of n codes; the bytes that follow make no difference. -/
def Obligations.UnpackOfPackIsTheSequence : Prop :=
  ∀ (q : List Code) (more : List Byte), unpack (pack q) q.length = q ∧ unpack (pack q ++ more) q.length = q

/-! ## ChromaSubsampler -/

/-- R98, with R93: CAVG writes the mean of the four byte lanes of OPA, rounded as CSUB_ROUND says. -/
def Obligations.CavgWritesTheMeanOfFour : Prop :=
  Sys2Proof.decode 0x00000010#32 = .ok .cavg ∧
    ∀ s : State, s.status.busy = false →
      exec .cavg s =
        .next { s with
          res := BitVec.ofNat 32 (Rule.mean4 s.cfg.csubRound
            (Rule.lane s.opa 0 + Rule.lane s.opa 1 + Rule.lane s.opa 2 + Rule.lane s.opa 3))
          status := Rule.doneStatus }

/-- R99, R100: CINT2 averages two byte lanes with +1 rounding, CINT4 four with +2 rounding. -/
def Obligations.InterpolationCommandsRoundUp : Prop :=
  (Sys2Proof.decode 0x00000011#32 = .ok .cint2 ∧ Sys2Proof.decode 0x00000012#32 = .ok .cint4) ∧
    ∀ s : State, s.status.busy = false →
      exec .cint2 s =
          .next { s with
            res := BitVec.ofNat 32 ((Rule.lane s.opa 0 + Rule.lane s.opa 1 + 1) / 2), status := Rule.doneStatus } ∧
        exec .cint4 s =
          .next { s with
            res := BitVec.ofNat 32
              ((Rule.lane s.opa 0 + Rule.lane s.opa 1 + Rule.lane s.opa 2 + Rule.lane s.opa 3 + 2) / 4)
            status := Rule.doneStatus }

/-- R96: every pixel of the rebuilt plane, by the parity of its position, neighbours clamped to the last column and row. -/
def Obligations.InterpolationFollowsTheParityOfThePixel : Prop :=
  ∀ (S : Plane) (w h x y : Nat), S.width = (w + 1) / 2 → S.height = (h + 1) / 2 → x < w → y < h →
    let F := (planeAt (cinterp S w h) x y).toNat
    let at' := fun i j => (planeAt S (min i (S.width - 1)) (min j (S.height - 1))).toNat
    (x % 2 = 0 → y % 2 = 0 → F = at' (x / 2) (y / 2)) ∧
      (x % 2 = 1 → y % 2 = 0 → F = (at' (x / 2) (y / 2) + at' (x / 2 + 1) (y / 2) + 1) / 2) ∧
      (x % 2 = 0 → y % 2 = 1 → F = (at' (x / 2) (y / 2) + at' (x / 2) (y / 2 + 1) + 1) / 2) ∧
      (x % 2 = 1 → y % 2 = 1 →
        F = (at' (x / 2) (y / 2) + at' (x / 2 + 1) (y / 2) + at' (x / 2) (y / 2 + 1) + at' (x / 2 + 1) (y / 2 + 1) + 2) / 4)

/-! ## Planes, lines, streams and lengths -/

/-- R108: the planes of the source image, their number, their order, their sizes and every sample of each. -/
def Obligations.PlanesOfTheSourceImage : Prop :=
  ∀ (cfg : Config) (d : Descriptor) (c w h : Nat) (img : Nat → Nat → Nat → Byte),
    d.legal = true → Rule.accepts d c → 1 ≤ w → 1 ≤ h →
    let planes := planesEnc cfg d c w h img
    let sizes := planes.map (fun P => (P.width, P.height))
    let s := fun x y k => (img x y k).toNat
    let Y := fun x y => Rule.luma cfg.yccDiv (s x y 0) (s x y 1) (s x y 2)
    let CO := fun x y => Rule.orange cfg.yccDiv (s x y 0) (s x y 2)
    let CG := fun x y => Rule.green cfg.yccDiv (s x y 0) (s x y 1) (s x y 2)
    (c = 1 → sizes = [(w, h)] ∧ ∀ x y, x < w → y < h → Rule.sampleOf planes 0 x y = s x y 0) ∧
      (c ≠ 1 → d.color = .rgb →
        sizes = List.replicate c (w, h) ∧
          ∀ x y k, x < w → y < h → k < c → Rule.sampleOf planes k x y = s x y k) ∧
      (c ≠ 1 → d.color = .ycocg →
        (∀ x y, x < w → y < h → Rule.sampleOf planes 0 x y = Y x y) ∧
          (c = 4 → ∀ x y, x < w → y < h → Rule.sampleOf planes 3 x y = s x y 3) ∧
          (d.chroma = .full →
            sizes = List.replicate c (w, h) ∧
              ∀ x y, x < w → y < h → Rule.sampleOf planes 1 x y = CO x y ∧ Rule.sampleOf planes 2 x y = CG x y) ∧
          (d.chroma = .sub2x2 →
            sizes = [(w, h), ((w + 1) / 2, (h + 1) / 2), ((w + 1) / 2, (h + 1) / 2)] ++ List.replicate (c - 3) (w, h) ∧
              ∀ i j, i < (w + 1) / 2 → j < (h + 1) / 2 →
                Rule.sampleOf planes 1 i j = Rule.csub cfg.csubRound w h CO i j ∧
                  Rule.sampleOf planes 2 i j = Rule.csub cfg.csubRound w h CG i j))

/-- R109 and R110: lines are columns exactly for ADAPTIVE images higher than they are wide; a plane has one line for each row
or column, in order, each running right or down. -/
def Obligations.LinesAreRowsOrColumns : Prop :=
  (∀ (d : Descriptor) (w h : Nat), scansColumns d w h = true ↔ d.layout = .adaptive ∧ h > w) ∧
    ∀ P : Plane,
      ((planeLines false P).length = P.height ∧
        ∀ j, j < P.height →
          ((planeLines false P).getD j []).length = P.width ∧
            ∀ x, x < P.width → ((planeLines false P).getD j []).getD x 0 = planeAt P x j) ∧
      ((planeLines true P).length = P.width ∧
        ∀ i, i < P.width →
          ((planeLines true P).getD i []).length = P.height ∧
            ∀ y, y < P.height → ((planeLines true P).getD i []).getD y 0 = planeAt P i y)

/-- R112: a line is rebuilt from its header by adding, modulo 256, the representative of each code or each wrapped delta. -/
def Obligations.LinesDecodeByAddingEachDelta : Prop :=
  ∀ (kind : DeltaKind) (hdr : Byte) (q : List Byte),
    let v := lineDec kind hdr q
    v.length = q.length + 1 ∧ v.getD 0 0 = hdr ∧
      ∀ t, t < q.length →
        (v.getD (t + 1) 0).toNat =
          ((v.getD t 0).toNat +
            (match kind with
             | .q4 => Rule.rep ((q.getD t 0).toNat % 16)
             | .raw8 => (q.getD t 0).toNat)) % 256

/-- R111: a line is coded as its first sample and one delta for each later sample, against the predecessor the decoder will
rebuild: its code under Q4, the wrapped delta itself under RAW8, where that predecessor is the true sample. -/
def Obligations.LinesAreCodedAgainstTheReconstructedPredecessor : Prop :=
  ∀ (hdr : Byte) (rest : List Byte),
    let line := hdr :: rest
    (∀ kind, (lineEnc kind line).1 = hdr ∧ (lineEnc kind line).2.length = rest.length) ∧
      (∀ t, t < rest.length →
        Rule.isQcode
          (Rule.delta ((lineDec .q4 hdr (lineEnc .q4 line).2).getD t 0).toNat (line.getD (t + 1) 0).toNat)
          ((lineEnc .q4 line).2.getD t 0).toNat) ∧
      ∀ t, t < rest.length →
        ((lineEnc .raw8 line).2.getD t 0).toNat = Rule.delta (line.getD t 0).toNat (line.getD (t + 1) 0).toNat

/-- From R115: where everything stands in a ROW stream. Row y starts at y·(c + SEG) with its c headers, channel by channel; the
stored deltas follow in pixel-interleaved order. -/
def Obligations.RowStreamsInterleaveThePixels : Prop :=
  ∀ (cfg : Config) (d : Descriptor) (c w h : Nat) (img : Nat → Nat → Nat → Byte),
    d.legal = true → Rule.accepts d c → 1 ≤ w → 1 ≤ h → d.layout = .row →
    let stream := encodeImage cfg d c w h img
    let planes := planesEnc cfg d c w h img
    let coded := fun y k =>
      lineEnc d.delta ((List.range w).map (fun x => BitVec.ofNat 8 (Rule.sampleOf planes k x y)))
    ∀ y, y < h →
      let row := stream.drop (y * (c + Rule.seg d ((w - 1) * c)))
      (∀ k, k < c → row.getD k 0 = (coded y k).1) ∧
        ∀ x k, 1 ≤ x → x < w → k < c →
          Rule.storedDelta d (row.drop c) ((x - 1) * c + k) = ((coded y k).2.getD (x - 1) 0).toNat

/-- From R116: where everything stands in a PLANAR or ADAPTIVE stream. The planes follow one another; each is its header block,
one byte a line, and then its stored deltas, line after line. -/
def Obligations.PlaneStreamsPutTheHeadersFirst : Prop :=
  ∀ (cfg : Config) (d : Descriptor) (c w h : Nat) (img : Nat → Nat → Nat → Byte),
    d.legal = true → Rule.accepts d c → 1 ≤ w → 1 ≤ h → d.layout ≠ .row →
    let stream := encodeImage cfg d c w h img
    let planes := planesEnc cfg d c w h img
    let cols := scansColumns d w h
    let size := fun (P : Plane) =>
      if cols then P.width + Rule.seg d (P.width * (P.height - 1)) else P.height + Rule.seg d (P.height * (P.width - 1))
    ∀ (before after : List Plane) (P : Plane), planes = before ++ P :: after →
      let block := stream.drop ((before.map size).sum)
      let lines := planeLines cols P
      let n := if cols then P.height else P.width
      ∀ l, l < lines.length →
        block.getD l 0 = (lineEnc d.delta (lines.getD l [])).1 ∧
          ∀ t, t < n - 1 →
            Rule.storedDelta d (block.drop lines.length) (l * (n - 1) + t) =
              ((lineEnc d.delta (lines.getD l [])).2.getD t 0).toNat

/-- R120 and R126: what the decoded planes become, sample by sample, in the order of the output buffer. -/
def Obligations.PixelsOfTheDecodedPlanes : Prop :=
  ∀ (d : Descriptor) (c w h : Nat) (planes : List Plane), Rule.accepts d c →
    let out := fun x y k => ((pixelsDec d c w h planes).getD ((y * w + x) * c + k) 0).toNat
    let chromaPlane := fun k =>
      let P := planes.getD k { width := 0, height := 0, rows := [] }
      match d.chroma with
      | .sub2x2 => cinterp P w h
      | .full => P
    (pixelsDec d c w h planes).length = w * h * c ∧
      ∀ x y, x < w → y < h →
        (c = 1 → out x y 0 = Rule.sampleOf planes 0 x y) ∧
          (c ≠ 1 → d.color = .rgb → ∀ k, k < c → out x y k = Rule.sampleOf planes k x y) ∧
          (c ≠ 1 → d.color = .ycocg →
            ∀ Y CO CG : Int, Y = Rule.sampleOf planes 0 x y → CO = (planeAt (chromaPlane 1) x y).toNat →
              CG = (planeAt (chromaPlane 2) x y).toNat →
              out x y 0 = Rule.sat (Y + CO - CG) ∧ out x y 1 = Rule.sat (Y + CG - 128) ∧
                out x y 2 = Rule.sat (Y - CO - CG + 256) ∧ (c = 4 → out x y 3 = Rule.sampleOf planes 3 x y))

/-- R113: a line decodes to itself under RAW8, and under Q4 to a line of the same length whose header is exact and whose
every sample is within a wrapped error of 32. -/
def Obligations.LineDecodesWithinTheQuantizerError : Prop :=
  ∀ (hdr : Byte) (rest : List Byte),
    let line := hdr :: rest
    (lineDec .raw8 (lineEnc .raw8 line).1 (lineEnc .raw8 line).2 = line) ∧
      (let v := lineDec .q4 (lineEnc .q4 line).1 (lineEnc .q4 line).2
       v.length = line.length ∧ v.getD 0 0 = hdr ∧ ∀ t, t < line.length → (line.getD t 0 - v.getD t 0).toNat ≤ 32)

/-- R123: compute_length is the exact length of what ENC gives, for every legal descriptor, every channel count it accepts
and every size. -/
def Obligations.EncodedLengthIsComputeLength : Prop :=
  ∀ (cfg : Config) (d : Descriptor) (c w h : Nat) (f : Nat → Nat → Nat → Byte),
    d.legal = true → Rule.accepts d c → 1 ≤ w → 1 ≤ h →
      (encodeImage cfg d c w h f).length = computeLength d c w h

/-- R121: RAW8 gray and RAW8 RGB images round-trip exactly, for every image and every size. -/
def Obligations.RawImagesRoundTripExactly : Prop :=
  ∀ (cfg : Config) (d : Descriptor) (c w h : Nat) (f : Nat → Nat → Nat → Byte),
    d.legal = true → Rule.accepts d c → 1 ≤ w → 1 ≤ h → d.delta = .raw8 → (c = 1 ∨ d.color = .rgb) →
      decodeImage d c w h (encodeImage cfg d c w h f) = Rule.imageBytes c w h f

/-- From R122: under Q4 every sample of every coded plane decodes within a wrapped error of 32, and every header,
the first sample of a line, exactly. -/
def Obligations.QuantizedPlanesDecodeWithin32 : Prop :=
  ∀ (cfg : Config) (d : Descriptor) (c w h : Nat) (img : Nat → Nat → Nat → Byte),
    d.legal = true → Rule.accepts d c → d.delta = .q4 → 1 ≤ w → 1 ≤ h →
    let planes := planesEnc cfg d c w h img
    let back := decodePlanes d c w h (encodeImage cfg d c w h img)
    back.length = planes.length ∧
      ∀ k, k < planes.length →
        let P := planes.getD k { width := 0, height := 0, rows := [] }
        let Q := back.getD k { width := 0, height := 0, rows := [] }
        Q.width = P.width ∧ Q.height = P.height ∧
          ∀ x y, x < P.width → y < P.height →
            (planeAt P x y - planeAt Q x y).toNat ≤ 32 ∧
              ((if scansColumns d w h then y = 0 else x = 0) → planeAt Q x y = planeAt P x y)

/-- From R122 and R120: a gray or RGB image under Q4 decodes within a wrapped error of 32 at every sample, in every layout
and storage. -/
def Obligations.QuantizedGrayOrRgbImageErrorIsAtMost32 : Prop :=
  ∀ (cfg : Config) (d : Descriptor) (c w h : Nat) (f : Nat → Nat → Nat → Byte),
    d.legal = true → Rule.accepts d c → d.delta = .q4 → (c = 1 ∨ d.color = .rgb) → 1 ≤ w → 1 ≤ h →
      ∀ x y k, x < w → y < h → k < c →
        (f x y k - (decodeImage d c w h (encodeImage cfg d c w h f)).getD ((y * w + x) * c + k) 0).toNat ≤ 32

/-- From R118: for SIMPLE descriptors without subsampling the length is w·h·c. -/
def Obligations.SimpleUnsubsampledLengthIsTheImageSize : Prop :=
  ∀ (d : Descriptor) (c w h : Nat),
    d.storage = .simple → d.chroma = .full → Rule.accepts d c → 1 ≤ w → 1 ≤ h → computeLength d c w h = w * h * c

/-- From R7 and R8: under a legal configuration's limits every output length is at most w·h·c, below 2^31, so OUT_LEN holds it
exactly. -/
def Obligations.OutputLengthFitsOutLen : Prop :=
  ∀ (cfg : Config) (d : Descriptor) (c w h : Nat),
    cfg.legal = true → d.legal = true → Rule.accepts d c → 1 ≤ w → 1 ≤ h → w ≤ cfg.maxWidth → h ≤ cfg.maxHeight →
      1 ≤ computeLength d c w h ∧ computeLength d c w h ≤ w * h * c ∧ w * h * c < 2 ^ 31 ∧
        (BitVec.ofNat 32 (computeLength d c w h)).toNat = computeLength d c w h ∧
        (BitVec.ofNat 32 (w * h * c)).toNat = w * h * c

/-- R119: DEC reads no byte past clen. -/
def Obligations.DecodeIgnoresBytesPastComputeLength : Prop :=
  ∀ (d : Descriptor) (c w h : Nat) (bytes more : List Byte),
    d.legal = true → Rule.accepts d c → 1 ≤ w → 1 ≤ h → bytes.length = computeLength d c w h →
      decodeImage d c w h (bytes ++ more) = decodeImage d c w h bytes

/-- R125: what ENCODE writes depends on no byte of BUF but the samples of the image; in particular row padding is not
read. -/
def Obligations.EncodeReadsOnlyTheSamples : Prop :=
  ∀ (cfg : Config) (buf buf' : Memory) (p : Pending),
    p.op = .encode → Rule.accepts p.desc p.snap.chan.toNat → p.desc.legal = true →
    1 ≤ p.snap.width.toNat → 1 ≤ p.snap.height.toNat →
    (∀ x y k, x < p.snap.width.toNat → y < p.snap.height.toNat → k < p.snap.chan.toNat →
      Rule.img buf p.snap x y k = Rule.img buf' p.snap x y k) →
      frameBytes cfg buf p = frameBytes cfg buf' p

/-! ## Frame commands -/

/-- R128, with R106: RESOLVE writes DESC, or reports VariantNotSupported with DESC 0; nothing else changes. -/
def Obligations.ResolveWritesDescOrReportsVariantNotSupported : Prop :=
  Sys2Proof.decode 0x00000020#32 = .ok .resolve ∧
    ∀ s : State, s.status.busy = false →
      (∀ e d, Rule.resolves s.cfg s.mode s.chan.toNat e d →
        exec .resolve s = .next { s with desc := Rule.descValue e d, status := Rule.doneStatus }) ∧
      (Rule.resolveFails s.cfg s.mode s.chan.toNat →
        exec .resolve s = .next { s with desc := 0, status := Rule.errorStatus 2 }) ∧
      ((∃ e d, Rule.resolves s.cfg s.mode s.chan.toNat e d) ∨ Rule.resolveFails s.cfg s.mode s.chan.toNat)

/-- R129: CLEN resolves, checks the dimensions, and writes compute_length to OUT_LEN; an error sets OUT_LEN to 0. -/
def Obligations.ClenWritesComputeLengthOrItsError : Prop :=
  Sys2Proof.decode 0x00000021#32 = .ok .clen ∧
    ∀ s : State, s.status.busy = false →
      (Rule.resolveFails s.cfg s.mode s.chan.toNat →
        exec .clen s = .next { s with desc := 0, outLen := 0, status := Rule.errorStatus 2 }) ∧
      ∀ e d, Rule.resolves s.cfg s.mode s.chan.toNat e d →
        (Rule.dimensionsFail s →
          exec .clen s =
            .next { s with desc := Rule.descValue e d, outLen := 0, status := Rule.errorStatus 3 }) ∧
        (¬ Rule.dimensionsFail s →
          exec .clen s =
            .next { s with
              desc := Rule.descValue e d
              outLen := BitVec.ofNat 32 (computeLength d s.chan.toNat s.width.toNat s.height.toNat)
              status := Rule.doneStatus })

/-- R130 for ENCODE: when every check of R138 passes, the command is pending with its snapshot, BUSY is set, DESC is written
and nothing else changes. -/
def Obligations.EncodeStartsWhenEveryCheckPasses : Prop :=
  Sys2Proof.decode 0x00000022#32 = .ok .encode ∧
    ∀ (s : State) (e : BitVec 16) (d : Descriptor), s.status.busy = false →
      Rule.resolves s.cfg s.mode s.chan.toNat e d → ¬ Rule.dimensionsFail s → ¬ Rule.sourceFails .encode d s →
      ¬ Rule.placementFails .encode d s →
        exec .encode s =
          .next { s with
            desc := Rule.descValue e d
            status := Rule.busyStatus
            pend := some
              { op := .encode
                snap :=
                  { mode := s.mode, chan := s.chan, width := s.width, height := s.height, srcAddr := s.srcAddr,
                    srcStride := s.srcStride, srcLen := s.srcLen, dstAddr := s.dstAddr, dstCap := s.dstCap }
                desc := d
                nOut := computeLength d s.chan.toNat s.width.toNat s.height.toNat } }

/-- R130 for DECODE: when every check of R138 passes, the command is pending with its snapshot and output length w·h·c, BUSY is
set, DESC is written and nothing else changes. -/
def Obligations.DecodeStartsWhenEveryCheckPasses : Prop :=
  Sys2Proof.decode 0x00000023#32 = .ok .decode ∧
    ∀ (s : State) (e : BitVec 16) (d : Descriptor), s.status.busy = false →
      Rule.resolves s.cfg s.mode s.chan.toNat e d → ¬ Rule.dimensionsFail s → ¬ Rule.sourceFails .decode d s →
      ¬ Rule.placementFails .decode d s →
        exec .decode s =
          .next { s with
            desc := Rule.descValue e d
            status := Rule.busyStatus
            pend := some
              { op := .decode
                snap :=
                  { mode := s.mode, chan := s.chan, width := s.width, height := s.height, srcAddr := s.srcAddr,
                    srcStride := s.srcStride, srcLen := s.srcLen, dstAddr := s.dstAddr, dstCap := s.dstCap }
                desc := d
                nOut := s.width.toNat * s.height.toNat * s.chan.toNat } }

/-- The checks of R138 for ENCODE and DECODE, in order: the first that fails completes the command at once with its error.
STATUS records it and OUT_LEN is 0 (R137); DESC takes the value of the resolve step, 0 where that is what failed (R24). PEND,
every byte of BUF and every register but these three are as they were. -/
def Obligations.FrameCommandReportsTheFirstFailingCheck : Prop :=
  ∀ (op : FrameOp) (s : State), s.status.busy = false →
    (Rule.resolveFails s.cfg s.mode s.chan.toNat →
      exec (Rule.commandOf op) s = .next { s with desc := 0, outLen := 0, status := Rule.errorStatus 2 }) ∧
    ∀ e d, Rule.resolves s.cfg s.mode s.chan.toNat e d →
      (Rule.dimensionsFail s →
        exec (Rule.commandOf op) s =
          .next { s with desc := Rule.descValue e d, outLen := 0, status := Rule.errorStatus 3 }) ∧
      (¬ Rule.dimensionsFail s → Rule.sourceFails op d s →
        exec (Rule.commandOf op) s =
          .next { s with desc := Rule.descValue e d, outLen := 0, status := Rule.errorStatus 1 }) ∧
      (¬ Rule.dimensionsFail s → ¬ Rule.sourceFails op d s → Rule.placementFails op d s →
        exec (Rule.commandOf op) s =
          .next { s with desc := Rule.descValue e d, outLen := 0, status := Rule.errorStatus 3 })

/-- R131: the completion step of a pending ENCODE writes ENC of the source image from DST_ADDR upward, sets OUT_LEN, clears
PEND and BUSY and sets DONE; every other byte of BUF and every other register keeps its value. The step
is taken at the sequencer's turn, or when nothing is left at the boundary: how the two agents interleave is the model's choice
(notes/assumptions/7.md), which R156 allows. -/
def Obligations.EncodeCompletionWritesTheStream : Prop :=
  ∀ (s : State) (p : Pending) (rest : List Event),
    s.Inv → s.pend = some p → p.op = .encode → (s.inputs = .sequencer :: rest ∨ (s.inputs = [] ∧ rest = [])) →
    let c := p.snap.chan.toNat
    let w := p.snap.width.toNat
    let h := p.snap.height.toNat
    let bytes := encodeImage s.cfg p.desc c w h (Rule.img s.buf p.snap)
    bytes.length = computeLength p.desc c w h ∧
      ∃ t, step s = .next t ∧
        t = { s with
          inputs := rest, buf := t.buf, outLen := BitVec.ofNat 32 (computeLength p.desc c w h), pend := none
          status := { s.status with busy := false, done := true } } ∧
        (∀ i, i < bytes.length → readByte t.buf (p.snap.dstAddr.toNat + i) = bytes.getD i 0) ∧
        (∀ a, ¬ (p.snap.dstAddr.toNat ≤ a ∧ a < p.snap.dstAddr.toNat + bytes.length) →
          readByte t.buf a = readByte s.buf a)

/-- R131: the completion step of a pending DECODE writes the samples of DEC of the source stream from DST_ADDR upward, stride w·c
(R126), sets OUT_LEN, clears PEND and BUSY and sets DONE; every other byte of BUF and every other register keeps its value.
The step is taken at the sequencer's turn, or when nothing is left at the boundary: how the two agents interleave is the model's
choice (notes/assumptions/7.md), which R156 allows. -/
def Obligations.DecodeCompletionWritesThePixels : Prop :=
  ∀ (s : State) (p : Pending) (rest : List Event),
    s.Inv → s.pend = some p → p.op = .decode → (s.inputs = .sequencer :: rest ∨ (s.inputs = [] ∧ rest = [])) →
    let c := p.snap.chan.toNat
    let w := p.snap.width.toNat
    let h := p.snap.height.toNat
    let source := (List.range (computeLength p.desc c w h)).map (fun i => readByte s.buf (p.snap.srcAddr.toNat + i))
    let bytes := decodeImage p.desc c w h source
    bytes.length = w * h * c ∧
      ∃ t, step s = .next t ∧
        t = { s with
          inputs := rest, buf := t.buf, outLen := BitVec.ofNat 32 (w * h * c), pend := none
          status := { s.status with busy := false, done := true } } ∧
        (∀ x y k, x < w → y < h → k < c →
          readByte t.buf (p.snap.dstAddr.toNat + (y * w + x) * c + k) = bytes.getD ((y * w + x) * c + k) 0) ∧
        (∀ a, ¬ (p.snap.dstAddr.toNat ≤ a ∧ a < p.snap.dstAddr.toNat + w * h * c) → readByte t.buf a = readByte s.buf a)

/-! ## The boundary -/

/-- From R18: the access rules of the register window, (1) to (6), whether or not a command is in flight; a write to CMD is an
issue (R19) and has its own statements. That an access which is not aligned and 32 bits wide ends in a fault is the model's
reading of R18 and R140 (notes/assumptions/16.md); what a read returned stands in the model's `readData`
(notes/assumptions/6.md). -/
def Obligations.RegisterWindowAccessRules : Prop :=
  ∀ (s : State) (offset : Byte) (size : Nat) (v : Word) (rest : List Event), s.cfg.legal = true →
    ((size ≠ 4 ∨ offset.toNat % 4 ≠ 0) →
      (s.inputs = .regWrite offset size v :: rest → step s = .fault (.hostDutyRegisterAccess offset size)) ∧
      (s.inputs = .regRead offset size :: rest → step s = .fault (.hostDutyRegisterAccess offset size))) ∧
    (size = 4 → offset.toNat % 4 = 0 →
      (s.inputs = .regWrite offset size v :: rest →
        ((offset.toNat ∈ [0x04, 0x10, 0x38, 0x3C] ∨ 0x40 ≤ offset.toNat) → step s = .next { s with inputs := rest }) ∧
        (offset.toNat = 0x08 → step s = .next { s with inputs := rest, opa := v }) ∧
        (offset.toNat = 0x0C → step s = .next { s with inputs := rest, opb := v }) ∧
        (offset.toNat = 0x14 → step s = .next { s with inputs := rest, mode := BitVec.ofNat 16 (v.toNat % 65536) }) ∧
        (offset.toNat = 0x18 → step s = .next { s with inputs := rest, chan := BitVec.ofNat 3 (v.toNat % 8) }) ∧
        (offset.toNat = 0x1C → step s = .next { s with inputs := rest, width := v }) ∧
        (offset.toNat = 0x20 → step s = .next { s with inputs := rest, height := v }) ∧
        (offset.toNat = 0x24 → step s = .next { s with inputs := rest, srcAddr := v }) ∧
        (offset.toNat = 0x28 → step s = .next { s with inputs := rest, srcStride := v }) ∧
        (offset.toNat = 0x2C → step s = .next { s with inputs := rest, srcLen := v }) ∧
        (offset.toNat = 0x30 → step s = .next { s with inputs := rest, dstAddr := v }) ∧
        (offset.toNat = 0x34 → step s = .next { s with inputs := rest, dstCap := v })) ∧
      (s.inputs = .regRead offset size :: rest →
        ((offset.toNat = 0x00 ∨ 0x40 ≤ offset.toNat) → step s = .next { s with inputs := rest, readData := 0 }) ∧
        (offset.toNat = 0x14 →
          step s = .next { s with inputs := rest, readData := BitVec.ofNat 32 s.mode.toNat }) ∧
        (offset.toNat = 0x18 →
          step s = .next { s with inputs := rest, readData := BitVec.ofNat 32 s.chan.toNat })))

/-- What a read of each register returns (R17), STATUS by the layout of R20, and no read has a side effect (R42): only the
value read, the model's `readData`, changes (notes/assumptions/6.md). -/
def Obligations.RegisterReadsReturnTheRegisterAndChangeNothing : Prop :=
  ∀ (s : State) (rest : List Event), s.cfg.legal = true →
    let reads := fun (offset : Byte) (v : Word) =>
      s.inputs = .regRead offset 4 :: rest → step s = .next { s with inputs := rest, readData := v }
    reads 0x04#8 (BitVec.ofNat 32
        ((if s.status.busy then 1 else 0) + (if s.status.done then 2 else 0) + (if s.status.err then 4 else 0) +
          (if s.status.drop then 8 else 0) + 16 * s.status.errcode.toNat)) ∧
      reads 0x08#8 s.opa ∧ reads 0x0C#8 s.opb ∧ reads 0x10#8 s.res ∧ reads 0x1C#8 s.width ∧ reads 0x20#8 s.height ∧
      reads 0x24#8 s.srcAddr ∧ reads 0x28#8 s.srcStride ∧ reads 0x2C#8 s.srcLen ∧ reads 0x30#8 s.dstAddr ∧
      reads 0x34#8 s.dstCap ∧ reads 0x38#8 s.outLen ∧ reads 0x3C#8 s.desc

/-- R49 and R140 (1): a host write to a byte of a range of the pending command is a host-duty fault; a host write to any other
byte of BUF stores the byte and changes nothing else. -/
def Obligations.HostWriteToAPendingRangeFaults : Prop :=
  ∀ (s : State) (a : Nat) (v : Byte) (rest : List Event),
    s.cfg.legal = true → Memory.wf s.buf → s.inputs = .bufWrite a v :: rest → a < s.cfg.bufSize →
      (∀ p, s.pend = some p → (Rule.inSourceRange p a ∨ Rule.inDestinationRange p a) →
        step s = .fault (.hostDutyBufferWrite a)) ∧
      ((∀ p, s.pend = some p → ¬ Rule.inSourceRange p a ∧ ¬ Rule.inDestinationRange p a) →
        ∃ t, step s = .next t ∧ t = { s with inputs := rest, buf := t.buf } ∧ readByte t.buf a = v ∧
          ∀ b, b ≠ a → readByte t.buf b = readByte s.buf b)

/-- R48 and R42: a host read of a byte in the destination write range of the pending command returns a free value, whatever it
is, and takes one draw; a host read of any other byte of BUF returns what is stored there. No read changes BUF or a
register. The counter of draws and `readData` are the model's (notes/assumptions/4.md, 6.md). -/
def Obligations.HostReadOfAPendingDestinationIsAFreeValue : Prop :=
  ∀ (s : State) (a : Nat) (rest : List Event),
    s.cfg.legal = true → s.inputs = .bufRead a :: rest → a < s.cfg.bufSize →
      (∀ p, s.pend = some p → Rule.inDestinationRange p a →
        step s = .next { s with
          inputs := rest, readData := BitVec.ofNat 32 (Config.freeByte s.draws).toNat, draws := s.draws + 1 }) ∧
      ((∀ p, s.pend = some p → ¬ Rule.inDestinationRange p a) →
        step s = .next { s with inputs := rest, readData := BitVec.ofNat 32 (readByte s.buf a).toNat })

/-- The model's choice (notes/assumptions/5.md, from R33): a host access to a byte address at or above BUF_SIZE names no byte of
BUF and is a fault. -/
def Obligations.HostAccessOutsideBufFaults : Prop :=
  ∀ (s : State) (a : Nat) (v : Byte) (rest : List Event), s.cfg.legal = true → s.cfg.bufSize ≤ a →
    (s.inputs = .bufWrite a v :: rest → step s = .fault (.noSuchBufferAddress a)) ∧
      (s.inputs = .bufRead a :: rest → step s = .fault (.noSuchBufferAddress a))

/-- R152 and R153: reset sets every register, STATUS and PEND to their reset values; of BUF, only the destination write range
of an abandoned command may change, each byte of it to a free value, whatever it is (notes/assumptions/4.md).
That reset leaves the configuration and what comes next at the boundary is the model's reading (notes/assumptions/17.md). -/
def Obligations.ResetClearsRegistersAndAbandonsThePendingCommand : Prop :=
  ∀ (s : State) (rest : List Event), s.cfg.legal = true → Memory.wf s.buf → s.inputs = .reset :: rest →
    ∃ t, step s = .next t ∧ (∀ r : Reg, readReg r t = 0) ∧
      t.status = { busy := false, done := false, err := false, drop := false, errcode := 0 } ∧ t.pend = none ∧
      t.cfg = s.cfg ∧ t.inputs = rest ∧
      (s.pend = none → t.buf = s.buf) ∧
      (∀ p, s.pend = some p →
        (∀ a, Rule.inDestinationRange p a →
          readByte t.buf a = Config.freeByte (s.draws + (a - p.snap.dstAddr.toNat))) ∧
        ∀ a, ¬ Rule.inDestinationRange p a → readByte t.buf a = readByte s.buf a)

/-- R32: right after reset every register of the window reads 0, STATUS is 0 and PEND is NONE. -/
def Obligations.ResetStateIsAllZero : Prop :=
  (∀ r : Reg, readReg r State.reset = 0) ∧ State.reset.pend = none ∧
    State.reset.status = { busy := false, done := false, err := false, drop := false, errcode := 0 }

/-- R154: right after reset every frame command fails with VariantNotSupported, and QDEC and QSTEP give RES = 0. -/
def Obligations.FirstCommandAfterReset : Prop :=
  (∀ i ∈ [Instr.resolve, .clen, .encode, .decode],
    exec i State.reset = .next { State.reset with status := Rule.errorStatus 2 }) ∧
    exec .qdec State.reset = .next { State.reset with status := Rule.doneStatus } ∧
    exec .qstep State.reset = .next { State.reset with status := Rule.doneStatus }

/-! ## Whole-machine rules -/

/-- The reset state meets the machine's invariant. -/
def Obligations.ResetStateMeetsTheInvariant : Prop := State.reset.Inv

/-- Every step keeps the machine's invariant: BUF's form, the STATUS invariants of R20, R130 and R135, BUSY = 1 exactly when
PEND ≠ NONE (R25), and a pending record that passed every check. -/
def Obligations.EveryStepKeepsTheInvariant : Prop :=
  ∀ s t : State, s.Inv → step s = .next t → t.Inv

/-- Who writes the result registers (R22, R23, R24): RES changes only at an accepted primitive command or at reset; DESC only
at an accepted frame command or at reset; OUT_LEN only at an accepted CLEN, ENCODE or DECODE, at a completion, or at reset. -/
def Obligations.ResultRegistersHaveTheirWriters : Prop :=
  ∀ s t : State, step s = .next t →
    let accepted := fun (i : Instr) =>
      s.status.busy = false ∧ ∃ v rest, s.inputs = Rule.commandWrite v :: rest ∧ Sys2Proof.decode v = .ok i
    let isReset := ∃ rest, s.inputs = .reset :: rest
    (t.res ≠ s.res → isReset ∨ ∃ i, accepted i ∧ Rule.isPrimitive i) ∧
      (t.desc ≠ s.desc → isReset ∨ accepted .resolve ∨ accepted .clen ∨ accepted .encode ∨ accepted .decode) ∧
      (t.outLen ≠ s.outLen → isReset ∨ accepted .clen ∨ accepted .encode ∨ accepted .decode ∨
        (s.pend.isSome ∧ t.pend = none))

/-- From R33, R42 and R153: a byte of BUF changes only by a host write to it, by the completion of a pending command or by its
abandonment at reset, and in the last two cases only in its destination write range. -/
def Obligations.BufChangesOnlyWhereARuleSaysSo : Prop :=
  ∀ (s t : State) (a : Nat), s.Inv → step s = .next t → readByte t.buf a ≠ readByte s.buf a →
    (∃ v rest, s.inputs = .bufWrite a v :: rest) ∨
      ∃ p, s.pend = some p ∧ t.pend = none ∧ Rule.inDestinationRange p a

/-- From R16: no step changes the configuration, which State holds by the model's choice (notes/assumptions/1.md). A
configuration that breaks R7 or R104 is refused: 93_implementation_defined.md row 13 asks for a refusal of an illegal MODE_TABLE;
that the refusal comes at every step, and for any breach of R7, is the model's reading (notes/assumptions/15.md). -/
def Obligations.ConfigurationIsFixed : Prop :=
  (∀ s t : State, step s = .next t → t.cfg = s.cfg) ∧
    ∀ s : State, s.cfg.legal = false → step s = .refused .invalidConfiguration

/-- From R63 and R156: WAIT, which reads STATUS until a read returns BUSY = 0, ends. While a command is pending every read
returns BUSY = 1, whatever their number n; the sequencer's turn completes the command, and the next read returns BUSY = 0 and
DONE = 1. If the host does no more after n reads, the command completes all the same. The reads and the sequencer's turn stand in
`inputs` (the model's choice, notes/assumptions/7.md), how many reads come first is free (notes/assumptions/13.md), and what a
read returned stands in `readData` (notes/assumptions/6.md). -/
def Obligations.WaitTerminatesWithTheCommandComplete : Prop :=
  ∀ (s : State) (p : Pending) (n : Nat) (more : List Event), s.Inv → s.pend = some p →
    let readStatus := Event.regRead 0x04#8 4
    let complete := fun t : State =>
      t.pend = none ∧ t.status = { s.status with busy := false, done := true } ∧ t.outLen = BitVec.ofNat 32 p.nOut
    (s.inputs = List.replicate n readStatus ++ more →
      ∀ k, k ≤ n → ∃ u, runSteps k s = .next u ∧ u.pend = some p ∧ u.status = s.status ∧ u.buf = s.buf ∧
        (1 ≤ k → u.readData.toNat % 2 = 1)) ∧
      (s.inputs = List.replicate n readStatus ++ .sequencer :: readStatus :: more →
        ∃ t, runSteps (n + 2) s = .next t ∧ complete t ∧ t.inputs = more ∧
          t.readData.toNat % 2 = 0 ∧ t.readData.toNat / 2 % 2 = 1) ∧
      (s.inputs = List.replicate n readStatus → ∃ t, runSteps (n + 1) s = .next t ∧ complete t)

/-- From R156 and R157: it makes no difference whether the completion step comes before or after a host access that keeps the
host's duties and sees nothing of the completion: a register write other than to CMD, a register read other than of STATUS and
OUT_LEN, a read or write of a BUF byte outside the ranges of the pending command. The interleaving is the order of `inputs` (the
model's choice, notes/assumptions/7.md). -/
def Obligations.CompletionCommutesWithAllowedHostAccesses : Prop :=
  ∀ (s : State) (p : Pending) (e : Event) (rest : List Event), s.Inv → s.pend = some p →
    ((∃ offset v, e = .regWrite offset 4 v ∧ offset.toNat % 4 = 0 ∧ offset.toNat ≠ 0x00) ∨
      (∃ offset, e = .regRead offset 4 ∧ offset.toNat % 4 = 0 ∧ offset.toNat ≠ 0x04 ∧ offset.toNat ≠ 0x38) ∨
      (∃ a v, e = .bufWrite a v ∧ a < s.cfg.bufSize ∧ ¬ Rule.inSourceRange p a ∧ ¬ Rule.inDestinationRange p a) ∨
      (∃ a, e = .bufRead a ∧ a < s.cfg.bufSize ∧ ¬ Rule.inDestinationRange p a)) →
      ∃ t, runSteps 2 { s with inputs := e :: .sequencer :: rest } = .next t ∧
        runSteps 2 { s with inputs := .sequencer :: e :: rest } = .next t
end

