-- ==== Sys2Proof/Laws/Operands.lean ====
section
/-! SUPPORT. The operand and result fields, STATUS and DESC as numbers. -/

namespace Sys2Proof.Machine

/-- Concatenation as a sum. -/
theorem toNat_append_eq_add {m n : Nat} (x : BitVec m) (y : BitVec n) : (x ++ y).toNat = x.toNat * 2 ^ n + y.toNat := by
  rw [BitVec.toNat_append, ← Nat.shiftLeft_add_eq_or_of_lt y.isLt, Nat.shiftLeft_eq]

theorem byteLane_toNat (w : Word) (i : Nat) : (byteLane w i).toNat = w.toNat / 256 ^ i % 256 := by
  simp [byteLane, BitVec.extractLsb'_toNat, Nat.shiftRight_eq_div_pow, Nat.pow_mul]

theorem codeField_toNat (w : Word) : (codeField w).toNat = w.toNat % 16 := by
  simp [codeField, BitVec.extractLsb'_toNat]

theorem lowNibble_toNat (b : Byte) : (lowNibble b).toNat = b.toNat % 16 := by
  simp [lowNibble, BitVec.extractLsb'_toNat]

theorem highNibble_toNat (b : Byte) : (highNibble b).toNat = b.toNat / 16 := by
  have := b.isLt
  simp [highNibble, BitVec.extractLsb'_toNat, Nat.shiftRight_eq_div_pow]
  omega

theorem codeByte_toNat (c : Code) : (codeByte c).toNat = c.toNat := by
  have := c.isLt
  simp [codeByte]
  omega

theorem resByte_toNat (b : Byte) : (resByte b).toNat = b.toNat := by
  have := b.isLt
  simp [resByte]
  omega

theorem resCode_toNat (c : Code) : (resCode c).toNat = c.toNat := by
  have := c.isLt
  simp [resCode]
  omega

theorem resCodeByte_toNat (c : Code) (r : Byte) : (resCodeByte c r).toNat = r.toNat * 256 + c.toNat := by
  change (0#16 ++ r ++ 0#4 ++ c : BitVec (16 + 8 + 4 + 4)).toNat = _
  simp only [toNat_append_eq_add, BitVec.toNat_ofNat]
  omega

theorem resBytes3_toNat (b0 b1 b2 : Byte) :
    (resBytes3 b0 b1 b2).toNat = b0.toNat + 256 * b1.toNat + 65536 * b2.toNat := by
  change (0#8 ++ b2 ++ b1 ++ b0 : BitVec (8 + 8 + 8 + 8)).toNat = _
  simp only [toNat_append_eq_add, BitVec.toNat_ofNat]
  omega

theorem resCodes2_toNat (lo hi : Code) : (resCodes2 lo hi).toNat = 256 * hi.toNat + lo.toNat := by
  change (0#20 ++ hi ++ 0#4 ++ lo : BitVec (20 + 4 + 4 + 4)).toNat = _
  simp only [toNat_append_eq_add, BitVec.toNat_ofNat]
  omega

theorem packByte_toNat (first second : Code) : (packByte first second).toNat = 16 * second.toNat + first.toNat := by
  change (second ++ first : BitVec (4 + 4)).toNat = _
  rw [toNat_append_eq_add]
  omega

@[simp] theorem lowNibble_packByte (first second : Code) : lowNibble (packByte first second) = first := by
  apply BitVec.eq_of_toNat_eq
  have := first.isLt
  rw [lowNibble_toNat, packByte_toNat]
  omega

@[simp] theorem highNibble_packByte (first second : Code) : highNibble (packByte first second) = second := by
  apply BitVec.eq_of_toNat_eq
  have := first.isLt
  rw [highNibble_toNat, packByte_toNat]
  omega

@[simp] theorem lowNibble_codeByte (c : Code) : lowNibble (codeByte c) = c := by
  apply BitVec.eq_of_toNat_eq
  have := c.isLt
  rw [lowNibble_toNat, codeByte_toNat]
  omega

/-- STATUS as a number, field by field (R20). -/
theorem statusWord_toNat (st : Status) :
    (statusWord st).toNat =
      st.busy.toNat + 2 * st.done.toNat + 4 * st.err.toNat + 8 * st.drop.toNat + 16 * st.errcode.toNat := by
  change (0#24 ++ st.errcode ++ BitVec.ofBool st.drop ++ BitVec.ofBool st.err ++ BitVec.ofBool st.done ++
    BitVec.ofBool st.busy : BitVec (24 + 4 + 1 + 1 + 1 + 1)).toNat = _
  simp only [toNat_append_eq_add, BitVec.toNat_ofNat, BitVec.toNat_ofBool]
  omega

/-- DESC as a number (R24). -/
theorem descWord_toNat (e : BitVec 16) (d : Descriptor) :
    (descWord e d).toNat = e.toNat * 65536 + (desc8 d).toNat := by
  change (e ++ 0#8 ++ desc8 d : BitVec (16 + 8 + 8)).toNat = _
  simp only [toNat_append_eq_add, BitVec.toNat_ofNat]
  omega

end Sys2Proof.Machine
end

