-- ==== Sys2Proof/Laws/Codec.lean ====
section
/-! SUPPORT. The codec's shared functions, one lemma each: list slices, planes, lines, the length of what each function gives,
and what stands where in a list of planes. -/

namespace Sys2Proof.Machine

/-! ## Lists of equal pieces -/

theorem flatMap_length_const {α β : Type} (l : List α) (f : α → List β) (n : Nat) (h : ∀ a ∈ l, (f a).length = n) :
    (l.flatMap f).length = l.length * n := by
  induction l with
  | nil => simp
  | cons a l ih =>
    simp only [List.flatMap_cons, List.length_append, List.length_cons]
    rw [h a (by simp), ih (fun b hb => h b (by simp [hb])), Nat.succ_mul, Nat.add_comm]

/-- Piece i of a concatenation of pieces of length n. -/
theorem flatMap_piece {α β : Type} (f : α → List β) (n : Nat) : ∀ (l : List α) (i : Nat) (hi : i < l.length),
    (∀ a ∈ l, (f a).length = n) → ((l.flatMap f).drop (i * n)).take n = f l[i]
  | [], i, hi, _ => by simp at hi
  | a :: l, 0, _, h => by simp [← h a (by simp)]
  | a :: l, i + 1, hi, h => by
    have ha := h a (by simp)
    rw [List.flatMap_cons, show (i + 1) * n = (f a).length + i * n by rw [ha, Nat.succ_mul, Nat.add_comm], List.drop_append]
    simp only [List.drop_eq_nil_of_le (show (f a).length ≤ (f a).length + i * n by omega), List.nil_append,
      Nat.add_sub_cancel_left]
    simpa using flatMap_piece f n l i (by simpa using hi) (fun b hb => h b (by simp [hb]))

/-- Element j of piece i. -/
theorem flatMap_getD {α β : Type} (f : α → List β) (n : Nat) (z : β) (l : List α) (i j : Nat) (hi : i < l.length)
    (hj : j < n) (h : ∀ a ∈ l, (f a).length = n) : (l.flatMap f).getD (i * n + j) z = (f l[i]).getD j z := by
  rw [← flatMap_piece f n l i hi h]
  simp [List.getD, hj, List.getElem?_drop]

theorem getD_append_first {α : Type} (l m : List α) (i : Nat) (z : α) (h : i < l.length) :
    (l ++ m).getD i z = l.getD i z := by simp [List.getD, List.getElem?_append_left h]

theorem getD_map_range {β : Type} (n : Nat) (f : Nat → β) (i : Nat) (z : β) (h : i < n) :
    ((List.range n).map f).getD i z = f i := by simp [List.getD, h]

/-! ## Planes and lines -/

@[simp] theorem planeOf_width (w h : Nat) (f : Nat → Nat → Byte) : (planeOf w h f).width = w := rfl
@[simp] theorem planeOf_height (w h : Nat) (f : Nat → Nat → Byte) : (planeOf w h f).height = h := rfl

theorem planeAt_planeOf {w h x y : Nat} (f : Nat → Nat → Byte) (hx : x < w) (hy : y < h) :
    planeAt (planeOf w h f) x y = f x y := by
  unfold planeAt planeOf
  simp only
  rw [getD_map_range _ _ _ _ hy, getD_map_range _ _ _ _ hx]

theorem planeOf_congr {w h : Nat} {f g : Nat → Nat → Byte} (H : ∀ x y, x < w → y < h → f x y = g x y) :
    planeOf w h f = planeOf w h g := by
  simp only [planeOf, Plane.mk.injEq, true_and]
  apply List.map_congr_left
  intro y hy
  apply List.map_congr_left
  intro x hx
  exact H x y (List.mem_range.1 hx) (List.mem_range.1 hy)

theorem planeLines_length (cols : Bool) (P : Plane) :
    (planeLines cols P).length = if cols then P.width else P.height := by
  cases cols <;> simp [planeLines]

theorem planeLines_each (cols : Bool) (P : Plane) :
    ∀ l ∈ planeLines cols P, l.length = if cols then P.height else P.width := by
  cases cols <;> simp [planeLines]

/-! ## Lines -/

theorem lineDeltas_length (k : DeltaKind) : ∀ (p : Byte) (l : List Byte), (lineDeltas k p l).length = l.length
  | _, [] => rfl
  | _, _ :: _ => by cases k <;> simp [lineDeltas, lineDeltas_length]

theorem lineEnc_length (k : DeltaKind) (l : List Byte) : (lineEnc k l).2.length = l.length - 1 := by
  cases l <;> simp [lineEnc, lineDeltas_length]

/-- Every delta of a Q4 line is a code, in the low nibble of its byte. -/
theorem lineDeltas_codes : ∀ (p : Byte) (l : List Byte), ∀ b ∈ lineDeltas .q4 p l, codeByte (lowNibble b) = b
  | _, [], b, h => by simp [lineDeltas] at h
  | p, a :: r, b, h => by
    simp only [lineDeltas, List.mem_cons] at h
    rcases h with rfl | h
    · simp
    · exact lineDeltas_codes _ r b h

/-! ## Storage and streams -/

theorem pack_length : ∀ q : List Code, (pack q).length = (q.length + 1) / 2
  | [] => rfl
  | [_] => by simp [pack]
  | _ :: _ :: r => by simp [pack, pack_length r]; omega

theorem storeDeltas_length (d : Descriptor) (q : List Byte) : (storeDeltas d q).length = segLen d q.length := by
  unfold storeDeltas segLen
  cases d.storage <;> simp [pack_length, ceil2]

theorem planeStream_length (d : Descriptor) (cols : Bool) (P : Plane) :
    (planeStream d cols P).length = planeLen d cols (P.width, P.height) := by
  unfold planeStream planeLen
  simp only [List.length_append, List.length_map, storeDeltas_length]
  have h : ((List.map (lineEnc d.delta) (planeLines cols P)).flatMap Prod.snd).length =
      (if cols then P.width else P.height) * ((if cols then P.height else P.width) - 1) := by
    rw [flatMap_length_const _ _ ((if cols then P.height else P.width) - 1), List.length_map, planeLines_length]
    intro a ha
    obtain ⟨l, hl, rfl⟩ := List.mem_map.1 ha
    rw [lineEnc_length, planeLines_each cols P l hl]
  rw [h, planeLines_length]
  cases cols <;> rfl

theorem rowStreamAt_length (d : Descriptor) (c w : Nat) (planes : List Plane) (y : Nat) :
    (rowStreamAt d c w planes y).length = rowLen d c w := by
  unfold rowStreamAt rowLen
  simp only [List.length_append, List.length_map, List.length_range, storeDeltas_length]
  rw [flatMap_length_const _ _ c]
  · simp
  · intro a _
    simp

theorem planesEnc_sizes (cfg : Config) (d : Descriptor) (c w h : Nat) (f : Nat → Nat → Nat → Byte) :
    (planesEnc cfg d c w h f).map (fun P => (P.width, P.height)) = planeSizes d c w h := by
  unfold planesEnc planeSizes
  split
  · simp [planeOf]
  · cases d.color
    · simp [planeOf, Function.comp_def]
    · by_cases hc4 : c = 4 <;> cases d.chroma <;> simp [hc4, planeOf, csub]

/-! ## Decoding -/

theorem planeDec_size (d : Descriptor) (cols : Bool) (size : Nat × Nat) (bytes : List Byte) :
    (planeDec d cols size bytes).width = size.1 ∧ (planeDec d cols size bytes).height = size.2 := by
  unfold planeDec
  cases cols <;> exact ⟨rfl, rfl⟩

theorem planesDec_length (d : Descriptor) (cols : Bool) : ∀ (sizes : List (Nat × Nat)) (bytes : List Byte),
    (planesDec d cols sizes bytes).length = sizes.length
  | [], _ => rfl
  | _ :: sizes, _ => by simp [planesDec, planesDec_length d cols sizes]

/-- Plane k of a decoded concatenation of planes is decoded from plane k's stream and whatever follows it. -/
theorem planesDec_getD {d : Descriptor} (cols : Bool) : ∀ (planes : List Plane) (more : List Byte) (k : Nat)
    (hk : k < planes.length) (z : Plane), ∃ rest,
      (planesDec d cols (planes.map (fun P => (P.width, P.height))) (planes.flatMap (planeStream d cols) ++ more)).getD k z =
        planeDec d cols (planes[k].width, planes[k].height) (planeStream d cols planes[k] ++ rest)
  | [], _, k, hk, _ => by simp at hk
  | P :: planes, more, 0, _, z => ⟨planes.flatMap (planeStream d cols) ++ more, by simp [planesDec]⟩
  | P :: planes, more, k + 1, hk, z => by
    obtain ⟨rest, h⟩ := planesDec_getD cols planes more k (by simpa using hk) z
    refine ⟨rest, ?_⟩
    simp only [List.map_cons, planesDec, List.getD_cons_succ, List.flatMap_cons, List.append_assoc,
      List.getElem_cons_succ]
    rw [List.drop_left' (planeStream_length d cols P)]
    exact h

theorem pixelDec_length {d : Descriptor} {c : Nat} (h : acceptsChannels d c = true) (P : Nat → Plane) (CO CG : Plane)
    (x y : Nat) : (pixelDec d c P CO CG x y).length = c := by
  have hc : c = 1 ∨ c = 3 ∨ c = 4 := by simp [acceptsChannels] at h; omega
  unfold pixelDec
  rcases hc with rfl | rfl | rfl <;> simp <;> cases d.color <;> simp

end Sys2Proof.Machine
end

