-- ==== Sys2Proof/Laws/Memory.lean ====
section
/-! SUPPORT. The laws of BUF: a read after a write, the frame of a write, the canonical form, and that equal contents are equal
memories. -/

namespace Sys2Proof.Machine

/-! ## Reading -/

@[simp] theorem readByte_nil (a : Nat) : readByte [] a = unlistedByte := rfl

theorem readByte_cons (k : Nat) (v : Byte) (rest : Memory) (a : Nat) :
    readByte ((k, v) :: rest) a = if a = k then v else readByte rest a := rfl

/-- An address below every listed one reads as an unlisted address. -/
theorem readByte_below {m : Memory} {a : Nat} (h : ∀ cell ∈ m, a < cell.1) : readByte m a = unlistedByte := by
  induction m with
  | nil => rfl
  | cons cell rest ih =>
    have hlt := h cell (by simp)
    rw [readByte_cons, if_neg (by omega)]
    exact ih (fun c hc => h c (by simp [hc]))

theorem readByte_consByte {m : Memory} {a : Nat} (v : Byte) (h : ∀ cell ∈ m, a < cell.1) (b : Nat) :
    readByte (consByte a v m) b = if b = a then v else readByte m b := by
  unfold consByte
  split
  · next hv =>
    split
    · next hb => rw [hb, readByte_below h, hv]
    · rfl
  · rfl

/-! ## Writing one byte -/

/-- The addresses a written memory lists are the one written or were listed before. -/
theorem writeByte_addresses (m : Memory) (a : Nat) (v : Byte) :
    ∀ cell ∈ writeByte m a v, cell.1 = a ∨ ∃ old ∈ m, old.1 = cell.1 := by
  induction m with
  | nil =>
    intro cell hc
    simp only [writeByte, consByte] at hc
    split at hc <;> simp_all
  | cons head rest ih =>
    obtain ⟨k, w⟩ := head
    intro cell hc
    simp only [writeByte, consByte] at hc
    split at hc
    · split at hc <;> simp at hc ⊢ <;> aesop
    · split at hc
      · split at hc <;> simp at hc ⊢ <;> aesop
      · rcases List.mem_cons.1 hc with rfl | hc
        · exact Or.inr ⟨_, by simp, rfl⟩
        · rcases ih cell hc with h | ⟨old, ho, he⟩
          · exact Or.inl h
          · exact Or.inr ⟨old, by simp [ho], he⟩

/-- A write keeps the canonical form. -/
theorem writeByte_wf {m : Memory} (h : Memory.wf m) (a : Nat) (v : Byte) : Memory.wf (writeByte m a v) := by
  induction m with
  | nil =>
    simp only [writeByte, consByte]
    split <;> simp_all [Memory.wf]
  | cons head rest ih =>
    obtain ⟨k, w⟩ := head
    obtain ⟨hp, hn⟩ := h
    have hk : ∀ c ∈ rest, k < c.1 := (List.pairwise_cons.1 hp).1
    have hr : Memory.wf rest := ⟨(List.pairwise_cons.1 hp).2, fun c hc => hn c (by simp [hc])⟩
    have hw : w ≠ unlistedByte := hn (k, w) (by simp)
    simp only [writeByte]
    split
    · next hlt =>
      unfold consByte
      split
      · exact ⟨hp, hn⟩
      · next hv =>
        refine ⟨List.pairwise_cons.2 ⟨?_, hp⟩, ?_⟩
        · intro c hc
          rcases List.mem_cons.1 hc with rfl | hc
          · exact hlt
          · exact Nat.lt_trans hlt (hk c hc)
        · intro c hc
          rcases List.mem_cons.1 hc with rfl | hc
          · exact hv
          · exact hn c hc
    · split
      · next hge heq =>
        subst heq
        unfold consByte
        split
        · exact hr
        · next hv =>
          refine ⟨List.pairwise_cons.2 ⟨hk, hr.1⟩, ?_⟩
          intro c hc
          rcases List.mem_cons.1 hc with rfl | hc
          · exact hv
          · exact hr.2 c hc
      · next hge hne =>
        have hrest := ih hr
        refine ⟨List.pairwise_cons.2 ⟨?_, hrest.1⟩, ?_⟩
        · intro c hc
          rcases writeByte_addresses rest a v c hc with h | ⟨old, ho, he⟩
          · simp only [h]; omega
          · rw [← he]; exact hk old ho
        · intro c hc
          rcases List.mem_cons.1 hc with rfl | hc
          · exact hw
          · exact hrest.2 c hc

/-- Read after write: the written address holds the value, every other address what it held. -/
theorem readByte_writeByte {m : Memory} (h : Memory.wf m) (a : Nat) (v : Byte) (b : Nat) :
    readByte (writeByte m a v) b = if b = a then v else readByte m b := by
  induction m with
  | nil => exact readByte_consByte v (by simp) b
  | cons head rest ih =>
    obtain ⟨k, w⟩ := head
    have hk : ∀ c ∈ rest, k < c.1 := (List.pairwise_cons.1 h.1).1
    have hr : Memory.wf rest := ⟨(List.pairwise_cons.1 h.1).2, fun c hc => h.2 c (by simp [hc])⟩
    simp only [writeByte]
    split
    · next hlt =>
      refine readByte_consByte v ?_ b
      intro c hc
      rcases List.mem_cons.1 hc with rfl | hc
      · exact hlt
      · exact Nat.lt_trans hlt (hk c hc)
    · split
      · next hge heq =>
        subst heq
        rw [readByte_consByte v hk b, readByte_cons]
        split <;> rfl
      · next hge hne =>
        rw [readByte_cons, readByte_cons, ih hr]
        split
        · next hb => subst hb; rw [if_neg (fun hc => hne hc.symm)]
        · rfl

/-! ## Writing a sequence of bytes -/

@[simp] theorem writeBytes_nil (m : Memory) (a : Nat) : writeBytes m a [] = m := rfl

theorem writeBytes_cons (m : Memory) (a : Nat) (b : Byte) (bs : List Byte) :
    writeBytes m a (b :: bs) = writeBytes (writeByte m a b) (a + 1) bs := rfl

theorem writeBytes_wf (bs : List Byte) : ∀ {m : Memory}, Memory.wf m → ∀ a, Memory.wf (writeBytes m a bs) := by
  induction bs with
  | nil => intro m h a; exact h
  | cons b bs ih => intro m h a; exact ih (writeByte_wf h a b) (a + 1)

theorem writeBytes_addresses (bs : List Byte) : ∀ (m : Memory) (a : Nat), ∀ cell ∈ writeBytes m a bs,
    (a ≤ cell.1 ∧ cell.1 < a + bs.length) ∨ ∃ old ∈ m, old.1 = cell.1 := by
  induction bs with
  | nil => intro m a cell hc; exact Or.inr ⟨cell, hc, rfl⟩
  | cons b bs ih =>
    intro m a cell hc
    rcases ih (writeByte m a b) (a + 1) cell hc with h | ⟨old, ho, he⟩
    · left; simp only [List.length_cons]; omega
    · rcases writeByte_addresses m a b old ho with h | ⟨o, hm, ho'⟩
      · left; simp only [List.length_cons]; omega
      · exact Or.inr ⟨o, hm, ho'.trans he⟩

/-- A byte of the written range reads as the byte of the sequence, every other byte as before. -/
theorem readByte_writeBytes (bs : List Byte) : ∀ {m : Memory}, Memory.wf m → ∀ a b,
    readByte (writeBytes m a bs) b =
      if a ≤ b ∧ b < a + bs.length then bs.getD (b - a) 0 else readByte m b := by
  induction bs with
  | nil => intro m h a b; simp
  | cons v bs ih =>
    intro m h a b
    rw [writeBytes_cons, ih (writeByte_wf h a v), readByte_writeByte h]
    simp only [List.length_cons]
    by_cases hb : b = a
    · subst hb; simp
    · by_cases hin : a + 1 ≤ b ∧ b < a + 1 + bs.length
      · rw [if_pos hin, if_pos (by omega), show b - a = (b - (a + 1)) + 1 by omega, List.getD_cons_succ]
      · rw [if_neg hin, if_neg hb, if_neg (by omega)]

/-! ## Equal contents are equal memories -/

theorem memory_ext {m n : Memory} (hm : Memory.wf m) (hn : Memory.wf n) (h : ∀ a, readByte m a = readByte n a) :
    m = n := by
  induction m generalizing n with
  | nil =>
    cases n with
    | nil => rfl
    | cons c rest =>
      have := h c.1
      rw [readByte_cons, if_pos rfl] at this
      exact absurd this.symm (hn.2 c (by simp))
  | cons c rest ih =>
    obtain ⟨k, v⟩ := c
    have hk : ∀ c ∈ rest, k < c.1 := (List.pairwise_cons.1 hm.1).1
    have hr : Memory.wf rest := ⟨(List.pairwise_cons.1 hm.1).2, fun c hc => hm.2 c (by simp [hc])⟩
    have hv : v ≠ unlistedByte := hm.2 (k, v) (by simp)
    cases n with
    | nil =>
      have := h k
      rw [readByte_cons, if_pos rfl] at this
      exact absurd this hv
    | cons d tail =>
      obtain ⟨l, w⟩ := d
      have hl : ∀ c ∈ tail, l < c.1 := (List.pairwise_cons.1 hn.1).1
      have ht : Memory.wf tail := ⟨(List.pairwise_cons.1 hn.1).2, fun c hc => hn.2 c (by simp [hc])⟩
      have hw : w ≠ unlistedByte := hn.2 (l, w) (by simp)
      have hkl : k = l := by
        rcases Nat.lt_trichotomy k l with hlt | heq | hgt
        · have hh := h k
          rw [readByte_cons, if_pos rfl, readByte_cons, if_neg (by omega),
            readByte_below (fun c hc => Nat.lt_trans hlt (hl c hc))] at hh
          exact absurd hh hv
        · exact heq
        · have hh := h l
          rw [readByte_cons, if_neg (by omega), readByte_below (fun c hc => Nat.lt_trans hgt (hk c hc)), readByte_cons,
            if_pos rfl] at hh
          exact absurd hh.symm hw
      subst hkl
      have hvw : v = w := by
        have hh := h k
        rwa [readByte_cons, if_pos rfl, readByte_cons, if_pos rfl] at hh
      subst hvw
      have hrest : rest = tail := by
        refine ih hr ht (fun a => ?_)
        by_cases ha : a = k
        · subst ha
          rw [readByte_below hk, readByte_below hl]
        · have hh := h a
          rwa [readByte_cons, if_neg ha, readByte_cons, if_neg ha] at hh
      rw [hrest]

/-- Reset's memory has the canonical form. -/
theorem reset_buf_wf : Memory.wf State.reset.buf := by simp [State.reset, Memory.wf]

end Sys2Proof.Machine
end

