-- ==== Sys2Proof/Laws/State.lean ====
section
/-! SUPPORT. One lemma per field per update of State: what each shared update leaves and what it writes. -/

namespace Sys2Proof.Machine

/-! ## A dropped issue -/

@[simp] theorem dropIssue_cfg (s : State) : (dropIssue s).cfg = s.cfg := rfl
@[simp] theorem dropIssue_status (s : State) : (dropIssue s).status = statusDropped s.status := rfl
@[simp] theorem dropIssue_opa (s : State) : (dropIssue s).opa = s.opa := rfl
@[simp] theorem dropIssue_opb (s : State) : (dropIssue s).opb = s.opb := rfl
@[simp] theorem dropIssue_res (s : State) : (dropIssue s).res = s.res := rfl
@[simp] theorem dropIssue_mode (s : State) : (dropIssue s).mode = s.mode := rfl
@[simp] theorem dropIssue_chan (s : State) : (dropIssue s).chan = s.chan := rfl
@[simp] theorem dropIssue_width (s : State) : (dropIssue s).width = s.width := rfl
@[simp] theorem dropIssue_height (s : State) : (dropIssue s).height = s.height := rfl
@[simp] theorem dropIssue_srcAddr (s : State) : (dropIssue s).srcAddr = s.srcAddr := rfl
@[simp] theorem dropIssue_srcStride (s : State) : (dropIssue s).srcStride = s.srcStride := rfl
@[simp] theorem dropIssue_srcLen (s : State) : (dropIssue s).srcLen = s.srcLen := rfl
@[simp] theorem dropIssue_dstAddr (s : State) : (dropIssue s).dstAddr = s.dstAddr := rfl
@[simp] theorem dropIssue_dstCap (s : State) : (dropIssue s).dstCap = s.dstCap := rfl
@[simp] theorem dropIssue_outLen (s : State) : (dropIssue s).outLen = s.outLen := rfl
@[simp] theorem dropIssue_desc (s : State) : (dropIssue s).desc = s.desc := rfl
@[simp] theorem dropIssue_pend (s : State) : (dropIssue s).pend = s.pend := rfl
@[simp] theorem dropIssue_buf (s : State) : (dropIssue s).buf = s.buf := rfl
@[simp] theorem dropIssue_inputs (s : State) : (dropIssue s).inputs = s.inputs := rfl
@[simp] theorem dropIssue_readData (s : State) : (dropIssue s).readData = s.readData := rfl
@[simp] theorem dropIssue_draws (s : State) : (dropIssue s).draws = s.draws := rfl

/-! ## An accepted issue -/

@[simp] theorem acceptIssue_cfg (s : State) : (acceptIssue s).cfg = s.cfg := rfl
@[simp] theorem acceptIssue_status (s : State) : (acceptIssue s).status = statusAccepted s.status := rfl
@[simp] theorem acceptIssue_opa (s : State) : (acceptIssue s).opa = s.opa := rfl
@[simp] theorem acceptIssue_opb (s : State) : (acceptIssue s).opb = s.opb := rfl
@[simp] theorem acceptIssue_res (s : State) : (acceptIssue s).res = s.res := rfl
@[simp] theorem acceptIssue_mode (s : State) : (acceptIssue s).mode = s.mode := rfl
@[simp] theorem acceptIssue_chan (s : State) : (acceptIssue s).chan = s.chan := rfl
@[simp] theorem acceptIssue_width (s : State) : (acceptIssue s).width = s.width := rfl
@[simp] theorem acceptIssue_height (s : State) : (acceptIssue s).height = s.height := rfl
@[simp] theorem acceptIssue_srcAddr (s : State) : (acceptIssue s).srcAddr = s.srcAddr := rfl
@[simp] theorem acceptIssue_srcStride (s : State) : (acceptIssue s).srcStride = s.srcStride := rfl
@[simp] theorem acceptIssue_srcLen (s : State) : (acceptIssue s).srcLen = s.srcLen := rfl
@[simp] theorem acceptIssue_dstAddr (s : State) : (acceptIssue s).dstAddr = s.dstAddr := rfl
@[simp] theorem acceptIssue_dstCap (s : State) : (acceptIssue s).dstCap = s.dstCap := rfl
@[simp] theorem acceptIssue_outLen (s : State) : (acceptIssue s).outLen = s.outLen := rfl
@[simp] theorem acceptIssue_desc (s : State) : (acceptIssue s).desc = s.desc := rfl
@[simp] theorem acceptIssue_pend (s : State) : (acceptIssue s).pend = s.pend := rfl
@[simp] theorem acceptIssue_buf (s : State) : (acceptIssue s).buf = s.buf := rfl
@[simp] theorem acceptIssue_inputs (s : State) : (acceptIssue s).inputs = s.inputs := rfl
@[simp] theorem acceptIssue_readData (s : State) : (acceptIssue s).readData = s.readData := rfl
@[simp] theorem acceptIssue_draws (s : State) : (acceptIssue s).draws = s.draws := rfl

/-! ## A completion at issue -/

@[simp] theorem completeIssue_cfg (s : State) : (completeIssue s).cfg = s.cfg := rfl
@[simp] theorem completeIssue_status (s : State) : (completeIssue s).status = statusDone s.status := rfl
@[simp] theorem completeIssue_opa (s : State) : (completeIssue s).opa = s.opa := rfl
@[simp] theorem completeIssue_opb (s : State) : (completeIssue s).opb = s.opb := rfl
@[simp] theorem completeIssue_res (s : State) : (completeIssue s).res = s.res := rfl
@[simp] theorem completeIssue_mode (s : State) : (completeIssue s).mode = s.mode := rfl
@[simp] theorem completeIssue_chan (s : State) : (completeIssue s).chan = s.chan := rfl
@[simp] theorem completeIssue_width (s : State) : (completeIssue s).width = s.width := rfl
@[simp] theorem completeIssue_height (s : State) : (completeIssue s).height = s.height := rfl
@[simp] theorem completeIssue_srcAddr (s : State) : (completeIssue s).srcAddr = s.srcAddr := rfl
@[simp] theorem completeIssue_srcStride (s : State) : (completeIssue s).srcStride = s.srcStride := rfl
@[simp] theorem completeIssue_srcLen (s : State) : (completeIssue s).srcLen = s.srcLen := rfl
@[simp] theorem completeIssue_dstAddr (s : State) : (completeIssue s).dstAddr = s.dstAddr := rfl
@[simp] theorem completeIssue_dstCap (s : State) : (completeIssue s).dstCap = s.dstCap := rfl
@[simp] theorem completeIssue_outLen (s : State) : (completeIssue s).outLen = s.outLen := rfl
@[simp] theorem completeIssue_desc (s : State) : (completeIssue s).desc = s.desc := rfl
@[simp] theorem completeIssue_pend (s : State) : (completeIssue s).pend = s.pend := rfl
@[simp] theorem completeIssue_buf (s : State) : (completeIssue s).buf = s.buf := rfl
@[simp] theorem completeIssue_inputs (s : State) : (completeIssue s).inputs = s.inputs := rfl
@[simp] theorem completeIssue_readData (s : State) : (completeIssue s).readData = s.readData := rfl
@[simp] theorem completeIssue_draws (s : State) : (completeIssue s).draws = s.draws := rfl

/-! ## raise -/

@[simp] theorem raiseError_cfg (cmd : Option Instr) (e : ErrorKind) (s : State) :
    (raiseError cmd e s).cfg = s.cfg := rfl
@[simp] theorem raiseError_status (cmd : Option Instr) (e : ErrorKind) (s : State) :
    (raiseError cmd e s).status = statusError (errorCode e) s.status := rfl
@[simp] theorem raiseError_opa (cmd : Option Instr) (e : ErrorKind) (s : State) :
    (raiseError cmd e s).opa = s.opa := rfl
@[simp] theorem raiseError_opb (cmd : Option Instr) (e : ErrorKind) (s : State) :
    (raiseError cmd e s).opb = s.opb := rfl
@[simp] theorem raiseError_res (cmd : Option Instr) (e : ErrorKind) (s : State) :
    (raiseError cmd e s).res = s.res := rfl
@[simp] theorem raiseError_mode (cmd : Option Instr) (e : ErrorKind) (s : State) :
    (raiseError cmd e s).mode = s.mode := rfl
@[simp] theorem raiseError_chan (cmd : Option Instr) (e : ErrorKind) (s : State) :
    (raiseError cmd e s).chan = s.chan := rfl
@[simp] theorem raiseError_width (cmd : Option Instr) (e : ErrorKind) (s : State) :
    (raiseError cmd e s).width = s.width := rfl
@[simp] theorem raiseError_height (cmd : Option Instr) (e : ErrorKind) (s : State) :
    (raiseError cmd e s).height = s.height := rfl
@[simp] theorem raiseError_srcAddr (cmd : Option Instr) (e : ErrorKind) (s : State) :
    (raiseError cmd e s).srcAddr = s.srcAddr := rfl
@[simp] theorem raiseError_srcStride (cmd : Option Instr) (e : ErrorKind) (s : State) :
    (raiseError cmd e s).srcStride = s.srcStride := rfl
@[simp] theorem raiseError_srcLen (cmd : Option Instr) (e : ErrorKind) (s : State) :
    (raiseError cmd e s).srcLen = s.srcLen := rfl
@[simp] theorem raiseError_dstAddr (cmd : Option Instr) (e : ErrorKind) (s : State) :
    (raiseError cmd e s).dstAddr = s.dstAddr := rfl
@[simp] theorem raiseError_dstCap (cmd : Option Instr) (e : ErrorKind) (s : State) :
    (raiseError cmd e s).dstCap = s.dstCap := rfl
@[simp] theorem raiseError_outLen (cmd : Option Instr) (e : ErrorKind) (s : State) :
    (raiseError cmd e s).outLen = (if errorClearsOutLen cmd then 0 else s.outLen) := rfl
@[simp] theorem raiseError_desc (cmd : Option Instr) (e : ErrorKind) (s : State) :
    (raiseError cmd e s).desc = s.desc := rfl
@[simp] theorem raiseError_pend (cmd : Option Instr) (e : ErrorKind) (s : State) :
    (raiseError cmd e s).pend = s.pend := rfl
@[simp] theorem raiseError_buf (cmd : Option Instr) (e : ErrorKind) (s : State) :
    (raiseError cmd e s).buf = s.buf := rfl
@[simp] theorem raiseError_inputs (cmd : Option Instr) (e : ErrorKind) (s : State) :
    (raiseError cmd e s).inputs = s.inputs := rfl
@[simp] theorem raiseError_readData (cmd : Option Instr) (e : ErrorKind) (s : State) :
    (raiseError cmd e s).readData = s.readData := rfl
@[simp] theorem raiseError_draws (cmd : Option Instr) (e : ErrorKind) (s : State) :
    (raiseError cmd e s).draws = s.draws := rfl

/-! ## The completion step -/

@[simp] theorem completePending_cfg (p : Pending) (s : State) : (completePending p s).cfg = s.cfg := rfl
@[simp] theorem completePending_status (p : Pending) (s : State) :
    (completePending p s).status = statusFinished s.status := rfl
@[simp] theorem completePending_opa (p : Pending) (s : State) : (completePending p s).opa = s.opa := rfl
@[simp] theorem completePending_opb (p : Pending) (s : State) : (completePending p s).opb = s.opb := rfl
@[simp] theorem completePending_res (p : Pending) (s : State) : (completePending p s).res = s.res := rfl
@[simp] theorem completePending_mode (p : Pending) (s : State) : (completePending p s).mode = s.mode := rfl
@[simp] theorem completePending_chan (p : Pending) (s : State) : (completePending p s).chan = s.chan := rfl
@[simp] theorem completePending_width (p : Pending) (s : State) : (completePending p s).width = s.width := rfl
@[simp] theorem completePending_height (p : Pending) (s : State) : (completePending p s).height = s.height := rfl
@[simp] theorem completePending_srcAddr (p : Pending) (s : State) : (completePending p s).srcAddr = s.srcAddr := rfl
@[simp] theorem completePending_srcStride (p : Pending) (s : State) :
    (completePending p s).srcStride = s.srcStride := rfl
@[simp] theorem completePending_srcLen (p : Pending) (s : State) : (completePending p s).srcLen = s.srcLen := rfl
@[simp] theorem completePending_dstAddr (p : Pending) (s : State) : (completePending p s).dstAddr = s.dstAddr := rfl
@[simp] theorem completePending_dstCap (p : Pending) (s : State) : (completePending p s).dstCap = s.dstCap := rfl
@[simp] theorem completePending_outLen (p : Pending) (s : State) :
    (completePending p s).outLen = BitVec.ofNat 32 p.nOut := rfl
@[simp] theorem completePending_desc (p : Pending) (s : State) : (completePending p s).desc = s.desc := rfl
@[simp] theorem completePending_pend (p : Pending) (s : State) : (completePending p s).pend = none := rfl
@[simp] theorem completePending_buf (p : Pending) (s : State) :
    (completePending p s).buf = writeBytes s.buf p.snap.dstAddr.toNat (frameBytes s.cfg s.buf p) := rfl
@[simp] theorem completePending_inputs (p : Pending) (s : State) : (completePending p s).inputs = s.inputs := rfl
@[simp] theorem completePending_readData (p : Pending) (s : State) :
    (completePending p s).readData = s.readData := rfl
@[simp] theorem completePending_draws (p : Pending) (s : State) : (completePending p s).draws = s.draws := rfl

/-! ## Reset -/

@[simp] theorem applyReset_cfg (s : State) : (applyReset s).cfg = s.cfg := rfl
@[simp] theorem applyReset_status (s : State) : (applyReset s).status = Status.reset := rfl
@[simp] theorem applyReset_opa (s : State) : (applyReset s).opa = 0 := rfl
@[simp] theorem applyReset_opb (s : State) : (applyReset s).opb = 0 := rfl
@[simp] theorem applyReset_res (s : State) : (applyReset s).res = 0 := rfl
@[simp] theorem applyReset_mode (s : State) : (applyReset s).mode = 0 := rfl
@[simp] theorem applyReset_chan (s : State) : (applyReset s).chan = 0 := rfl
@[simp] theorem applyReset_width (s : State) : (applyReset s).width = 0 := rfl
@[simp] theorem applyReset_height (s : State) : (applyReset s).height = 0 := rfl
@[simp] theorem applyReset_srcAddr (s : State) : (applyReset s).srcAddr = 0 := rfl
@[simp] theorem applyReset_srcStride (s : State) : (applyReset s).srcStride = 0 := rfl
@[simp] theorem applyReset_srcLen (s : State) : (applyReset s).srcLen = 0 := rfl
@[simp] theorem applyReset_dstAddr (s : State) : (applyReset s).dstAddr = 0 := rfl
@[simp] theorem applyReset_dstCap (s : State) : (applyReset s).dstCap = 0 := rfl
@[simp] theorem applyReset_outLen (s : State) : (applyReset s).outLen = 0 := rfl
@[simp] theorem applyReset_desc (s : State) : (applyReset s).desc = 0 := rfl
@[simp] theorem applyReset_pend (s : State) : (applyReset s).pend = none := rfl
@[simp] theorem applyReset_buf (s : State) : (applyReset s).buf = bufAfterReset s := rfl
@[simp] theorem applyReset_inputs (s : State) : (applyReset s).inputs = s.inputs := rfl
@[simp] theorem applyReset_readData (s : State) : (applyReset s).readData = s.readData := rfl
@[simp] theorem applyReset_draws (s : State) : (applyReset s).draws = s.draws + abandonedLength s := rfl

/-! ## The fields of STATUS -/

@[simp] theorem statusAccepted_busy (st : Status) : (statusAccepted st).busy = st.busy := rfl
@[simp] theorem statusAccepted_done (st : Status) : (statusAccepted st).done = false := rfl
@[simp] theorem statusAccepted_err (st : Status) : (statusAccepted st).err = false := rfl
@[simp] theorem statusAccepted_drop (st : Status) : (statusAccepted st).drop = false := rfl
@[simp] theorem statusAccepted_errcode (st : Status) : (statusAccepted st).errcode = 0 := rfl

@[simp] theorem statusDropped_busy (st : Status) : (statusDropped st).busy = st.busy := rfl
@[simp] theorem statusDropped_done (st : Status) : (statusDropped st).done = st.done := rfl
@[simp] theorem statusDropped_err (st : Status) : (statusDropped st).err = st.err := rfl
@[simp] theorem statusDropped_drop (st : Status) : (statusDropped st).drop = true := rfl
@[simp] theorem statusDropped_errcode (st : Status) : (statusDropped st).errcode = st.errcode := rfl

@[simp] theorem statusDone_busy (st : Status) : (statusDone st).busy = st.busy := rfl
@[simp] theorem statusDone_done (st : Status) : (statusDone st).done = true := rfl
@[simp] theorem statusDone_err (st : Status) : (statusDone st).err = st.err := rfl
@[simp] theorem statusDone_drop (st : Status) : (statusDone st).drop = st.drop := rfl
@[simp] theorem statusDone_errcode (st : Status) : (statusDone st).errcode = st.errcode := rfl

@[simp] theorem statusError_busy (code : BitVec 4) (st : Status) : (statusError code st).busy = st.busy := rfl
@[simp] theorem statusError_done (code : BitVec 4) (st : Status) : (statusError code st).done = true := rfl
@[simp] theorem statusError_err (code : BitVec 4) (st : Status) : (statusError code st).err = true := rfl
@[simp] theorem statusError_drop (code : BitVec 4) (st : Status) : (statusError code st).drop = st.drop := rfl
@[simp] theorem statusError_errcode (code : BitVec 4) (st : Status) : (statusError code st).errcode = code := rfl

@[simp] theorem statusStarted_busy (st : Status) : (statusStarted st).busy = true := rfl
@[simp] theorem statusStarted_done (st : Status) : (statusStarted st).done = st.done := rfl
@[simp] theorem statusStarted_err (st : Status) : (statusStarted st).err = st.err := rfl
@[simp] theorem statusStarted_drop (st : Status) : (statusStarted st).drop = st.drop := rfl
@[simp] theorem statusStarted_errcode (st : Status) : (statusStarted st).errcode = st.errcode := rfl

@[simp] theorem statusFinished_busy (st : Status) : (statusFinished st).busy = false := rfl
@[simp] theorem statusFinished_done (st : Status) : (statusFinished st).done = true := rfl
@[simp] theorem statusFinished_err (st : Status) : (statusFinished st).err = st.err := rfl
@[simp] theorem statusFinished_drop (st : Status) : (statusFinished st).drop = st.drop := rfl
@[simp] theorem statusFinished_errcode (st : Status) : (statusFinished st).errcode = st.errcode := rfl

/-! ## Host writes to registers -/

/-- A host write to a register other than CMD leaves everything but the operand and frame registers alone (R18). -/
theorem writeReg_frame (r : Reg) (v : Word) (s : State) :
    (writeReg r v s).cfg = s.cfg ∧ (writeReg r v s).status = s.status ∧ (writeReg r v s).res = s.res ∧
      (writeReg r v s).outLen = s.outLen ∧ (writeReg r v s).desc = s.desc ∧ (writeReg r v s).pend = s.pend ∧
      (writeReg r v s).buf = s.buf ∧ (writeReg r v s).inputs = s.inputs ∧
      (writeReg r v s).readData = s.readData ∧ (writeReg r v s).draws = s.draws := by
  cases r <;> simp [writeReg]

end Sys2Proof.Machine
end

