-- ==== Sys2Proof/Laws/Step.lean ====
section
/-! SUPPORT. What the shared operations and a step can answer, said once: the issue, a primitive command, the commands, the
events, a step. -/

namespace Sys2Proof.Machine

/-! ## The issue of a command -/

theorem issue_busy {s : State} (h : s.status.busy = true) (f : State → State) : issue f s = .next (dropIssue s) := by
  simp [issue, h]

theorem issue_idle {s : State} (h : s.status.busy = false) (f : State → State) :
    issue f s = .next (f (acceptIssue s)) := by
  simp [issue, h]

/-- An issue answers a next state, and one of these two. -/
theorem issue_cases {f : State → State} {s : State} {o : Host.Outcome State Fault Refusal} (h : issue f s = o) :
    (s.status.busy = true ∧ o = .next (dropIssue s)) ∨ (s.status.busy = false ∧ o = .next (f (acceptIssue s))) := by
  cases hb : s.status.busy with
  | true => exact Or.inl ⟨rfl, by rw [← h, issue_busy hb]⟩
  | false => exact Or.inr ⟨rfl, by rw [← h, issue_idle hb]⟩

theorem primitive_idle {s : State} (h : s.status.busy = false) (f : Word → Word → Word) :
    primitive f s = .next { s with
      res := f s.opa s.opb
      status := { busy := false, done := true, err := false, drop := false, errcode := 0 } } := by
  rw [primitive, issue_idle h]
  simp [completeIssue, acceptIssue, statusDone, statusAccepted, h]

theorem primitive_busy {s : State} (h : s.status.busy = true) (f : Word → Word → Word) :
    primitive f s = .next (dropIssue s) := issue_busy h _

/-! ## The frame commands' shared steps -/

theorem withResolved_none {s : State} (cmd : Instr) (k : Descriptor → State → State)
    (h : resolveMode s.cfg s.mode s.chan.toNat = none) :
    withResolved cmd k s = raiseError (some cmd) .variantNotSupported { s with desc := 0 } := by
  simp [withResolved, takeSnapshot, h]

theorem withResolved_some {s : State} (cmd : Instr) (k : Descriptor → State → State) {e : BitVec 16} {d : Descriptor}
    (h : resolveMode s.cfg s.mode s.chan.toNat = some (e, d)) :
    withResolved cmd k s = k d { s with desc := descWord e d } := by
  simp [withResolved, takeSnapshot, h]

theorem startFrame_error {s : State} (cmd : Instr) {op : FrameOp} {d : Descriptor} {e : ErrorKind}
    (h : frameError s.cfg op d (takeSnapshot s) = some e) : startFrame cmd op d s = raiseError (some cmd) e s := by
  simp [startFrame, h]

theorem startFrame_ok {s : State} (cmd : Instr) {op : FrameOp} {d : Descriptor}
    (h : frameError s.cfg op d (takeSnapshot s) = none) :
    startFrame cmd op d s =
      { s with status := statusStarted s.status, pend := some (pendingOf op d (takeSnapshot s)) } := by
  simp [startFrame, h]

/-! ## Events and steps -/

theorem step_legal {s : State} (h : s.cfg.legal = true) : step s = stepEvents s := by simp [step, h]

theorem stepEvents_cons {s : State} {e : Event} {rest : List Event} (h : s.inputs = e :: rest) :
    stepEvents s = performEvent e { s with inputs := rest } := by simp [stepEvents, h]

theorem stepEvents_nil {s : State} (h : s.inputs = []) : stepEvents s = .next (sequencerTurn s) := by
  simp [stepEvents, h]

/-- A step that answers a next state ran a valid configuration and either had no event left or performed the next one. -/
theorem step_next {s t : State} (h : step s = .next t) :
    s.cfg.legal = true ∧ ((s.inputs = [] ∧ t = sequencerTurn s) ∨
      ∃ e rest, s.inputs = e :: rest ∧ performEvent e { s with inputs := rest } = .next t) := by
  unfold step at h
  split at h
  · next hl =>
    refine ⟨hl, ?_⟩
    cases hi : s.inputs with
    | nil =>
      rw [stepEvents_nil hi] at h
      injection h with h
      exact Or.inl ⟨rfl, h.symm⟩
    | cons e rest =>
      rw [stepEvents_cons hi] at h
      exact Or.inr ⟨e, rest, rfl, h⟩
  · cases h

theorem sequencerTurn_none {s : State} (h : s.pend = none) : sequencerTurn s = s := by simp [sequencerTurn, h]

theorem sequencerTurn_some {s : State} {p : Pending} (h : s.pend = some p) : sequencerTurn s = completePending p s := by
  simp [sequencerTurn, h]

end Sys2Proof.Machine
end

