-- ==== Sys2Proof/Laws/Engine.lean ====
section
/-! SUPPORT. The frame commands' checks as propositions on numbers, the cases of their shared operations, and the bytes a host
access or reset touches. -/

namespace Sys2Proof.Machine

/-! ## The snapshot -/

@[simp] theorem takeSnapshot_mode (s : State) : (takeSnapshot s).mode = s.mode := rfl
@[simp] theorem takeSnapshot_chan (s : State) : (takeSnapshot s).chan = s.chan := rfl
@[simp] theorem takeSnapshot_width (s : State) : (takeSnapshot s).width = s.width := rfl
@[simp] theorem takeSnapshot_height (s : State) : (takeSnapshot s).height = s.height := rfl
@[simp] theorem takeSnapshot_srcAddr (s : State) : (takeSnapshot s).srcAddr = s.srcAddr := rfl
@[simp] theorem takeSnapshot_srcStride (s : State) : (takeSnapshot s).srcStride = s.srcStride := rfl
@[simp] theorem takeSnapshot_srcLen (s : State) : (takeSnapshot s).srcLen = s.srcLen := rfl
@[simp] theorem takeSnapshot_dstAddr (s : State) : (takeSnapshot s).dstAddr = s.dstAddr := rfl
@[simp] theorem takeSnapshot_dstCap (s : State) : (takeSnapshot s).dstCap = s.dstCap := rfl

/-- STATUS and DESC are no part of a snapshot. -/
theorem takeSnapshot_withStatusDesc (s : State) (st : Status) (w : Word) :
    takeSnapshot { s with status := st, desc := w } = takeSnapshot s := rfl

/-! ## The checks (R138) -/

theorem inRange_iff (a start len : Nat) : inRange a start len = true ↔ start ≤ a ∧ a < start + len := by
  simp [inRange]

theorem dimensionsBad_iff (cfg : Config) (n : Snapshot) :
    dimensionsBad cfg n = true ↔
      n.width.toNat = 0 ∨ n.height.toNat = 0 ∨ cfg.maxWidth < n.width.toNat ∨ cfg.maxHeight < n.height.toNat := by
  have hw : n.width = 0 ↔ n.width.toNat = 0 := ⟨fun h => by rw [h]; rfl, fun h => BitVec.eq_of_toNat_eq h⟩
  have hh : n.height = 0 ↔ n.height.toNat = 0 := ⟨fun h => by rw [h]; rfl, fun h => BitVec.eq_of_toNat_eq h⟩
  simp only [dimensionsBad, Bool.or_eq_true, beq_iff_eq, decide_eq_true_eq, hw, hh, or_assoc]

theorem sourceBad_iff (op : FrameOp) (d : Descriptor) (n : Snapshot) :
    sourceBad op d n = true ↔
      (op = .encode ∧ n.srcStride.toNat < n.width.toNat * n.chan.toNat) ∨ n.srcLen.toNat < sourceLength op d n := by
  simp only [sourceBad, Bool.or_eq_true, Bool.and_eq_true, beq_iff_eq, decide_eq_true_eq]

theorem placementBad_iff (cfg : Config) (op : FrameOp) (d : Descriptor) (n : Snapshot) :
    placementBad cfg op d n = true ↔
      n.dstCap.toNat < outputLength op d n ∨ cfg.bufSize < n.srcAddr.toNat + sourceLength op d n ∨
        cfg.bufSize < n.dstAddr.toNat + outputLength op d n ∨
        (n.srcAddr.toNat < n.dstAddr.toNat + outputLength op d n ∧
          n.dstAddr.toNat < n.srcAddr.toNat + sourceLength op d n) := by
  simp only [placementBad, Bool.or_eq_true, Bool.and_eq_true, decide_eq_true_eq, or_assoc]

/-- No check fails exactly when each of the three passes. -/
theorem frameError_none_iff (cfg : Config) (op : FrameOp) (d : Descriptor) (n : Snapshot) :
    frameError cfg op d n = none ↔
      dimensionsBad cfg n = false ∧ sourceBad op d n = false ∧ placementBad cfg op d n = false := by
  unfold frameError
  cases dimensionsBad cfg n <;> cases sourceBad op d n <;> cases placementBad cfg op d n <;> simp

theorem frameError_dimensions {cfg : Config} {op : FrameOp} {d : Descriptor} {n : Snapshot}
    (h : dimensionsBad cfg n = true) : frameError cfg op d n = some .constraintViolation := by
  simp [frameError, h]

theorem frameError_source {cfg : Config} {op : FrameOp} {d : Descriptor} {n : Snapshot}
    (h : dimensionsBad cfg n = false) (h' : sourceBad op d n = true) :
    frameError cfg op d n = some .malformedData := by
  simp [frameError, h, h']

theorem frameError_placement {cfg : Config} {op : FrameOp} {d : Descriptor} {n : Snapshot}
    (h : dimensionsBad cfg n = false) (h' : sourceBad op d n = false) (h'' : placementBad cfg op d n = true) :
    frameError cfg op d n = some .constraintViolation := by
  simp [frameError, h, h', h'']

theorem performClen_error {d : Descriptor} {s : State} (h : dimensionsBad s.cfg (takeSnapshot s) = true) :
    performClen d s = raiseError (some .clen) .constraintViolation s := by
  simp [performClen, h]

theorem performClen_ok {d : Descriptor} {s : State} (h : dimensionsBad s.cfg (takeSnapshot s) = false) :
    performClen d s = completeIssue { s with outLen := BitVec.ofNat 32 (streamLength d (takeSnapshot s)) } := by
  simp [performClen, h]

/-! ## Host accesses -/

theorem hostBufWrite_outside {a : Nat} {v : Byte} {s : State} (h : s.cfg.bufSize ≤ a) :
    hostBufWrite a v s = .fault (.noSuchBufferAddress a) := by
  simp [hostBufWrite, h]

theorem hostBufWrite_owned {a : Nat} {v : Byte} {s : State} (h : a < s.cfg.bufSize)
    (ho : ownedByPending s.pend a = true) : hostBufWrite a v s = .fault (.hostDutyBufferWrite a) := by
  simp [hostBufWrite, Nat.not_le.2 h, ho]

theorem hostBufWrite_free {a : Nat} {v : Byte} {s : State} (h : a < s.cfg.bufSize)
    (ho : ownedByPending s.pend a = false) : hostBufWrite a v s = .next { s with buf := writeByte s.buf a v } := by
  simp [hostBufWrite, Nat.not_le.2 h, ho]

/-- A host write that answers a next state stored one byte that exists and that no pending command owns. -/
theorem hostBufWrite_next {a : Nat} {v : Byte} {s t : State} (h : hostBufWrite a v s = .next t) :
    a < s.cfg.bufSize ∧ ownedByPending s.pend a = false ∧ t = { s with buf := writeByte s.buf a v } := by
  unfold hostBufWrite at h
  split at h
  · cases h
  · next hlt =>
    split at h
    · cases h
    · next ho =>
      injection h with h
      exact ⟨Nat.not_le.1 hlt, by simpa using ho, h.symm⟩

/-- A host read that answers a next state changed only the value read and the counter of draws. -/
theorem hostBufRead_next {a : Nat} {s t : State} (h : hostBufRead a s = .next t) :
    a < s.cfg.bufSize ∧
      ((unspecifiedByte s.pend a = true ∧
          t = { s with readData := resByte (Config.freeByte s.draws), draws := s.draws + 1 }) ∨
        (unspecifiedByte s.pend a = false ∧ t = { s with readData := resByte (readByte s.buf a) })) := by
  unfold hostBufRead at h
  split at h
  · cases h
  · next hlt =>
    refine ⟨Nat.not_le.1 hlt, ?_⟩
    split at h
    · next hu => injection h with h; exact Or.inl ⟨hu, h.symm⟩
    · next hu => injection h with h; exact Or.inr ⟨by simpa using hu, h.symm⟩

/-- A register write that answers a next state was aligned and 32 bits wide, and issued a command, wrote a register or was
ignored. -/
theorem hostRegWrite_next {offset : Byte} {size : Nat} {v : Word} {s t : State}
    (h : hostRegWrite offset size v s = .next t) :
    alignedWordAccess offset size = true ∧
      ((regAt offset = some .cmd ∧ issueWord v s = .next t) ∨
        (∃ r, r ≠ .cmd ∧ regAt offset = some r ∧ t = writeReg r v s) ∨ (regAt offset = none ∧ t = s)) := by
  unfold hostRegWrite at h
  split at h
  · next ha =>
    refine ⟨ha, ?_⟩
    split at h
    · next hr => exact Or.inl ⟨hr, h⟩
    · next r hne hr => injection h with h; exact Or.inr (Or.inl ⟨r, fun hc => hne (hc ▸ rfl), hr, h.symm⟩)
    · next hr => injection h with h; exact Or.inr (Or.inr ⟨hr, h.symm⟩)
  · cases h

/-- A register read that answers a next state changed only the value read. -/
theorem hostRegRead_next {offset : Byte} {size : Nat} {s t : State} (h : hostRegRead offset size s = .next t) :
    alignedWordAccess offset size = true ∧ ∃ w, t = { s with readData := w } := by
  unfold hostRegRead at h
  split at h
  · next ha =>
    refine ⟨ha, ?_⟩
    split at h
    · injection h with h; exact ⟨_, h.symm⟩
    · injection h with h; exact ⟨_, h.symm⟩
  · cases h

@[simp] theorem freeBytes_length (k n : Nat) : (freeBytes k n).length = n := by simp [freeBytes]

theorem freeBytes_getD {k n i : Nat} (h : i < n) : (freeBytes k n).getD i 0 = Config.freeByte (k + i) := by
  simp [freeBytes, List.getD, h]

end Sys2Proof.Machine
end

