-- ==== Sys2Proof/Laws/PerInstr.lean ====
section
/-! SUPPORT. The statements made per command. `CommandWord`: a command's word is its opcode zero-extended, below 0x24 and not
0, so that its bits [31:8] are 0 (30_encoding.md R54, R56, R60). -/

namespace Sys2Proof.Laws.CommandWord

/-- The word of a command has RSVD = 0 and an opcode in 0x01 .. 0x23. -/
def Statement (i : Instr) : Prop :=
  cmdReserved (encode i) = 0 ∧ 1 ≤ (encode i).toNat ∧ (encode i).toNat ≤ 0x23 ∧ cmdOpcode (encode i) = opcodeOf i

theorem qenc : Statement .qenc := by unfold Statement; decide
theorem qdec : Statement .qdec := by unfold Statement; decide
theorem qrec : Statement .qrec := by unfold Statement; decide
theorem qstep : Statement .qstep := by unfold Statement; decide
theorem yccf : Statement .yccf := by unfold Statement; decide
theorem ycci : Statement .ycci := by unfold Statement; decide
theorem npack2 : Statement .npack2 := by unfold Statement; decide
theorem npack1 : Statement .npack1 := by unfold Statement; decide
theorem nunpack : Statement .nunpack := by unfold Statement; decide
theorem cavg : Statement .cavg := by unfold Statement; decide
theorem cint2 : Statement .cint2 := by unfold Statement; decide
theorem cint4 : Statement .cint4 := by unfold Statement; decide
theorem resolve : Statement .resolve := by unfold Statement; decide
theorem clen : Statement .clen := by unfold Statement; decide
theorem encode : Statement .encode := by unfold Statement; decide
theorem decode : Statement .decode := by unfold Statement; decide

end Sys2Proof.Laws.CommandWord
end

