-- ==== Sys2Proof/Laws/Run.lean ====
section
/-! SUPPORT. `runSteps` is the host's `Core.run` on this machine, and how runs compose. -/

namespace Sys2Proof.Machine

theorem runSteps_zero (s : State) : runSteps 0 s = .next s := rfl

theorem runSteps_succ {s t : State} (k : Nat) (h : step s = .next t) : runSteps (k + 1) s = runSteps k t := by
  simp [runSteps, h]

/-- One more step after a run that went through. -/
theorem runSteps_step (k : Nat) : ∀ {s t : State}, runSteps k s = .next t → runSteps (k + 1) s = step t := by
  induction k with
  | zero =>
    intro s t h
    injection h with h
    subst h
    simp only [runSteps]
    cases step s <;> rfl
  | succ k ih =>
    intro s t h
    rw [runSteps] at h ⊢
    cases hs : step s with
    | next u => rw [hs] at h; exact ih h
    | fault f => rw [hs] at h; cases h
    | refused r => rw [hs] at h; cases h

theorem hostRun_succ (M : Host.Core) (k : Nat) (s : M.State) :
    M.run (k + 1) s =
      (match M.step s with
       | .next t => M.run k t
       | .fault f => .fault f
       | .refused r => .refused r) := rfl

theorem core_run (k : Nat) (s : State) : Sys2Proof.core.run k s = runSteps k s := by
  induction k generalizing s with
  | zero => rfl
  | succ k ih =>
    refine (hostRun_succ Sys2Proof.core k s).trans ?_
    have hstep : Sys2Proof.core.step s = step s := rfl
    rw [hstep, runSteps]
    cases step s with
    | next t => exact ih t
    | fault f => rfl
    | refused r => rfl

end Sys2Proof.Machine
end

