-- ==== Sys2Proof/Machine/HostProgram.lean ====
section
/-! DEFINITION. The host-program syntax of 30_encoding.md R62 and R63: each line and the bus transactions it stands for. -/

namespace Sys2Proof.Machine

/-- A line of a host program (R62) or a pseudo-instruction (R63). `reads` is how many times a WAIT reads STATUS, which the
spec leaves open (R156). -/
inductive HostLine where
  | wr (r : Reg) (v : Word)
  | rd (r : Reg)
  | mw (addr : Nat) (bytes : List Byte)
  | mr (addr n : Nat)
  | command (i : Instr)
  | wait (reads : Nat)
  | setimg (mode chan w h : Word)
  | setsrc (addr stride len : Word)
  | setdst (addr cap : Word)
  | ops (a b : Word)
deriving DecidableEq, Repr

/-- WR: an aligned 32-bit write at the register's offset (R62). -/
def wrEvent (r : Reg) (v : Word) : Event := .regWrite (offsetOf r) 4 v

/-- RD: an aligned 32-bit read at the register's offset (R62). -/
def rdEvent (r : Reg) : Event := .regRead (offsetOf r) 4

/-- MW: one byte write per byte, from `addr` upward (R62). -/
def mwEvents (addr : Nat) : List Byte → List Event
  | [] => []
  | b :: bs => .bufWrite addr b :: mwEvents (addr + 1) bs

/-- The bus transactions of a line (R62, R63). -/
def expand : HostLine → List Event
  | .wr r v => [wrEvent r v]
  | .rd r => [rdEvent r]
  | .mw addr bytes => mwEvents addr bytes
  | .mr addr n => (List.range n).map (fun i => .bufRead (addr + i))
  | .command i => [wrEvent .cmd (Sys2Proof.encode i)]
  | .wait reads => List.replicate reads (rdEvent .status)
  | .setimg mode chan w h => [wrEvent .mode mode, wrEvent .chan chan, wrEvent .width w, wrEvent .height h]
  | .setsrc addr stride len => [wrEvent .srcAddr addr, wrEvent .srcStride stride, wrEvent .srcLen len]
  | .setdst addr cap => [wrEvent .dstAddr addr, wrEvent .dstCap cap]
  | .ops a b => [wrEvent .opa a, wrEvent .opb b]

/-- The bus transactions of a program, in program order (R45). -/
def expandProgram (lines : List HostLine) : List Event := lines.flatMap expand

end Sys2Proof.Machine
end

