-- ==== Sys2Proof/Tests/Slice0.lean ====
section
/-! SUPPORT. The model's own tests, every expected value from 95_test_vectors.md or from the rule it names, and for each
obligation with hypotheses a witness that meets them. -/

namespace Sys2Proof.Tests

open Sys2Proof Sys2Proof.Machine

set_option Elab.async false

/-! ## Small states -/

/-- The state an outcome answers. -/
def after (o : Host.Outcome State Fault Refusal) : State :=
  match o with
  | .next t => t
  | .fault _ => State.reset
  | .refused _ => State.reset

/-- Reset, with the operand registers set. -/
def ops (a b : Word) : State := { State.reset with opa := a, opb := b }

/-- RES after a command on the operands. -/
def resOf (i : Instr) (a b : Word) : Word := (after (exec i (ops a b))).res

/-- Consecutive bytes as a memory. -/
def bytesAt (a : Nat) (l : List Byte) : Memory := writeBytes [] a l

/-- The RDC scenario's source image (95_test_vectors.md 1.2). -/
def scenarioImage : List Byte := [0x0A, 0x0A, 0x0A, 0x0C, 0x0A, 0x0A, 0x0A, 0x0C, 0x0A, 0x0A, 0x0A, 0x0C]

/-- The registers of 95_test_vectors.md 7.2, with the scenario's image at 0. -/
def scenario : State :=
  { State.reset with
    mode := 1, chan := 3, width := 2, height := 2, srcStride := 6, srcLen := 12, dstAddr := 0x100, dstCap := 12
    buf := bytesAt 0 scenarioImage }

/-- The scenario with ENCODE pending, and after its completion. -/
def encoding : State := after (exec .encode scenario)
def encoded : State := after (step encoding)

/-- The scenario's stream with DECODE set up, pending, and completed (95_test_vectors.md program P2). -/
def toDecode : State := { encoded with srcAddr := 0x100, srcStride := 0, dstAddr := 0x200 }
def decoding : State := after (exec .decode toDecode)
def decoded : State := after (step decoding)

/-- A reference configuration with another parameter. -/
def withDiv (m : YccDiv) : State := { State.reset with cfg := { referenceConfig with yccDiv := m } }

/-- The descriptors of RMT modes 1, 5, 6, 8, 9 and 10 (R107), and a ROW RGB Q4 descriptor, desc8 0xC0. -/
def d1 : Descriptor := ⟨.row, .full, .simple, .rgb, .raw8, true, true⟩
def d5 : Descriptor := ⟨.row, .full, .simple, .ycocg, .q4, true, true⟩
def d6 : Descriptor := ⟨.planar, .full, .simple, .ycocg, .q4, true, true⟩
def d8 : Descriptor := ⟨.planar, .sub2x2, .simple, .ycocg, .q4, false, true⟩
def d9 : Descriptor := ⟨.planar, .sub2x2, .packed, .ycocg, .q4, false, true⟩
def d10 : Descriptor := ⟨.adaptive, .full, .packed, .ycocg, .q4, true, true⟩
def dC0 : Descriptor := ⟨.row, .full, .simple, .rgb, .q4, true, true⟩

/-- The scenario's image as samples. -/
def scenarioSample (x y k : Nat) : Byte := scenarioImage.getD (y * 6 + x * 3 + k) 0

/-- A gray image, 2 wide and 3 high (95_test_vectors.md 6.2). -/
def graySample (x y _k : Nat) : Byte := [10, 20, 30, 40, 50, 60].getD (y * 2 + x) 0

/-! ## WellFormed: an ill-formed term for each check -/

theorem test_reference_config_is_legal : referenceConfig.legal = true := by decide +kernel

theorem test_sub2x2_needs_ycocg : (⟨.planar, .sub2x2, .simple, .rgb, .q4, true, true⟩ : Descriptor).legal = false := by
  decide
theorem test_sub2x2_needs_planes : (⟨.row, .sub2x2, .simple, .ycocg, .q4, true, true⟩ : Descriptor).legal = false := by
  decide
theorem test_packed_needs_q4 : (⟨.planar, .full, .packed, .rgb, .raw8, true, true⟩ : Descriptor).legal = false := by
  decide
theorem test_illegal_descriptor_in_table :
    { referenceConfig with modeTable := (12, .descriptor ⟨.row, .full, .packed, .rgb, .raw8, true, true⟩) ::
      referenceModeTable }.legal = false := by decide +kernel
theorem test_id_twice_in_table :
    { referenceConfig with modeTable := (9, .deprecated) :: referenceModeTable }.legal = false := by decide +kernel
theorem test_buf_size_zero : { referenceConfig with bufSize := 0 }.legal = false := by decide +kernel
theorem test_buf_size_too_big : { referenceConfig with bufSize := 2 ^ 32 + 1 }.legal = false := by decide +kernel
theorem test_max_width_zero : { referenceConfig with maxWidth := 0 }.legal = false := by decide +kernel
theorem test_max_width_too_big : { referenceConfig with maxWidth := 65537, maxHeight := 1 }.legal = false := by
  decide +kernel
theorem test_max_height_zero : { referenceConfig with maxHeight := 0 }.legal = false := by decide +kernel
theorem test_max_height_too_big : { referenceConfig with maxWidth := 1, maxHeight := 65537 }.legal = false := by
  decide +kernel
theorem test_image_limit : { referenceConfig with maxWidth := 2 ^ 15, maxHeight := 2 ^ 14 }.legal = false := by
  decide +kernel
theorem test_default_zero : { referenceConfig with defaultMode := 0 }.legal = false := by decide +kernel
theorem test_default_ffff : { referenceConfig with defaultMode := 0xFFFF }.legal = false := by decide +kernel
theorem test_default_unassigned : { referenceConfig with defaultMode := 12 }.legal = false := by decide +kernel
theorem test_default_deprecated : { referenceConfig with defaultMode := 4 }.legal = false := by decide +kernel
theorem test_every_command_is_well_formed (i : Instr) : i.wellFormed = true := by cases i <;> rfl

/-! ## Decoding: each word of R56, written out -/

theorem test_word_qenc : Sys2Proof.decode 0b00000000000000000000000000000001#32 = .ok .qenc := by rfl
theorem test_word_qdec : Sys2Proof.decode 0b00000000000000000000000000000010#32 = .ok .qdec := by rfl
theorem test_word_qrec : Sys2Proof.decode 0b00000000000000000000000000000011#32 = .ok .qrec := by rfl
theorem test_word_qstep : Sys2Proof.decode 0b00000000000000000000000000000100#32 = .ok .qstep := by rfl
theorem test_word_yccf : Sys2Proof.decode 0b00000000000000000000000000001000#32 = .ok .yccf := by rfl
theorem test_word_ycci : Sys2Proof.decode 0b00000000000000000000000000001001#32 = .ok .ycci := by rfl
theorem test_word_npack2 : Sys2Proof.decode 0b00000000000000000000000000001100#32 = .ok .npack2 := by rfl
theorem test_word_npack1 : Sys2Proof.decode 0b00000000000000000000000000001101#32 = .ok .npack1 := by rfl
theorem test_word_nunpack : Sys2Proof.decode 0b00000000000000000000000000001110#32 = .ok .nunpack := by rfl
theorem test_word_cavg : Sys2Proof.decode 0b00000000000000000000000000010000#32 = .ok .cavg := by rfl
theorem test_word_cint2 : Sys2Proof.decode 0b00000000000000000000000000010001#32 = .ok .cint2 := by rfl
theorem test_word_cint4 : Sys2Proof.decode 0b00000000000000000000000000010010#32 = .ok .cint4 := by rfl
theorem test_word_resolve : Sys2Proof.decode 0b00000000000000000000000000100000#32 = .ok .resolve := by rfl
theorem test_word_clen : Sys2Proof.decode 0b00000000000000000000000000100001#32 = .ok .clen := by rfl
theorem test_word_encode : Sys2Proof.decode 0b00000000000000000000000000100010#32 = .ok .encode := by rfl
theorem test_word_decode : Sys2Proof.decode 0b00000000000000000000000000100011#32 = .ok .decode := by rfl

/-- R60's reserved opcodes, at the ends of its ranges. -/
theorem test_reserved_opcodes :
    ∀ v ∈ [0x00, 0x05, 0x07, 0x0A, 0x0B, 0x0F, 0x13, 0x1F, 0x24, 0xFF], decodeTableWord 32 v = none := by decide
/-- R60: a value with v[31:8] ≠ 0. -/
theorem test_reserved_bits : Sys2Proof.decode 0x00000122#32 = .error (.reservedBits 0x122#32) := by rfl
theorem test_reserved_top_bit : Sys2Proof.decode 0x80000001#32 = .error (.reservedBits 0x80000001#32) := by rfl
theorem test_encode_of_decode : Sys2Proof.encode .decode = 0x00000023#32 := by decide
theorem test_table_word : decodeTableWord 32 0x21 = some .clen := by decide
/-- `withFetchWord` puts the word where the next step takes it. -/
theorem test_fetch_word : (after (step ((ops 129 0).withFetchWord 32 0x04))).res = 0x0000E007#32 := by decide +kernel
theorem test_fetch_word_keeps_the_rest : ((ops 1 2).withFetchWord 32 0x04).opb = 2 := by decide

/-! ## Primitive commands (95_test_vectors.md 2 to 5) -/

theorem test_qenc_pivot : resOf .qenc 100 228 = 8 := by decide +kernel
theorem test_qenc_ignores_bits : resOf .qenc 0x12345600 0xABCDEF01 = 1 := by decide +kernel
theorem test_qdec_ignores_bit4 : resOf .qdec 0x17 0 = 0x5F := by decide +kernel
theorem test_qdec_eight : resOf .qdec 8 0 = 0x80 := by decide +kernel
theorem test_qrec_wraps : resOf .qrec 250 0xFF = 0xF9 := by decide +kernel
theorem test_qrec_code8 : resOf .qrec 200 8 = 72 := by decide +kernel
theorem test_qstep_wraps : resOf .qstep 254 0 = 0x0000FF01 := by decide +kernel
theorem test_qstep_largest_error : resOf .qstep 100 227 = 0x0000C307 := by decide +kernel
theorem test_yccf_example : resOf .yccf 0x000A0A0C 0 = 0x007F810A := by decide +kernel
theorem test_yccf_half_up_saturates :
    (after (exec .yccf { withDiv .halfUp with opa := 0x000000FF })).res = 0x0040FF40 := by decide +kernel
theorem test_ycci_example : resOf .ycci 0x007F810A 0 = 0x000A090C := by decide +kernel
theorem test_ycci_saturates : resOf .ycci 0x00FF0000 0 = 0x00017F00 := by decide +kernel
theorem test_npack2_order : resOf .npack2 0x1F 0x23 = 0x3F := by decide +kernel
theorem test_npack2_low_first : resOf .npack2 0x1 0xF = 0xF1 := by decide +kernel
theorem test_npack1 : resOf .npack1 0x7 0x1 = 0x77 := by decide +kernel
theorem test_nunpack_high_lane : resOf .nunpack 0x1A5 0 = 0x00000A05 := by decide +kernel
theorem test_cavg_floor : resOf .cavg 0x02020201 0 = 1 := by decide +kernel
theorem test_cavg_half_up :
    (after (exec .cavg { ops 0x02020201 0 with cfg := { referenceConfig with csubRound := .halfUp } })).res = 2 := by
  decide +kernel
theorem test_cint2_rounds_up : resOf .cint2 0xFF00 0 = 0x80 := by decide +kernel
theorem test_cint4_ties : resOf .cint4 0x02000000 0 = 1 := by decide +kernel
theorem test_cint4_below : resOf .cint4 0x01000000 0 = 0 := by decide +kernel

/-! ## Frame commands (95_test_vectors.md 6 and 7) -/

theorem test_resolve_default : (after (exec .resolve { scenario with mode := 0 })).desc = 0x0009009D := by decide +kernel
theorem test_resolve_forbids_gray :
    (after (exec .resolve { scenario with mode := 8, chan := 1 })).status = Rule.errorStatus 2 := by decide +kernel
theorem test_clen_mode9 : (after (exec .clen { scenario with mode := 9 })).outLen = 5 := by decide +kernel
theorem test_clen_resolve_first :
    (after (exec .clen { scenario with mode := 4, width := 0 })).status = Rule.errorStatus 2 := by decide +kernel
/-- The bytes of 1.2. -/
theorem test_encode_scenario :
    readBytes encoded.buf 0x100 12 = [0x0A, 0x0A, 0x0A, 0x02, 0, 0, 0x0A, 0x0C, 0x0A, 0, 0xFE, 0x02] := by decide +kernel
/-- 7.2: a destination that overlaps the source by one byte. -/
theorem test_encode_overlap :
    (after (exec .encode { scenario with dstAddr := 0x00B })).status = Rule.errorStatus 3 := by decide +kernel
theorem test_decode_scenario : readBytes decoded.buf 0x200 12 = scenarioImage := by decide +kernel
/-- 1.3: one byte short. -/
theorem test_decode_short :
    (after (exec .decode { toDecode with srcLen := 11 })).status = Rule.errorStatus 1 := by decide +kernel
/-- 6.1: the scenario under mode 9, its stream and its pixels. -/
theorem test_mode9_stream :
    encodeImage referenceConfig d9 3 2 2 scenarioSample = [0x0A, 0x0B, 0xF0, 0x80, 0x7F] := by decide +kernel
theorem test_mode9_pixels :
    decodeImage d9 3 2 2 [0x0A, 0x0B, 0xF0, 0x80, 0x7F] = [11, 9, 11, 11, 9, 11, 12, 10, 12, 11, 9, 11] := by
  decide +kernel
/-- 6.2: ADAPTIVE scans columns where the image is higher than wide. -/
theorem test_adaptive_columns :
    encodeImage referenceConfig d10 1 2 3 graySample = [0x0A, 0x14, 0x44, 0x44] := by decide +kernel
/-- 1.2: the ROW RGB Q4 descriptor. -/
theorem test_row_q4_stream :
    encodeImage referenceConfig dC0 3 2 2 scenarioSample = [0x0A, 0x0A, 0x0A, 1, 0, 0, 0x0A, 0x0C, 0x0A, 0, 0x0E, 1] := by
  decide +kernel
theorem test_desc8_of_mode9 : desc8 d9 = 0x9D := by decide
theorem test_desc8_of_mode5 : desc8 d5 = 0xD0 := by decide
/-- 5: interpolation of the 2 × 2 plane to 3 × 3. -/
theorem test_interpolation :
    (cinterp ⟨2, 2, [[30, 45], [75, 90]]⟩ 3 3).rows = [[30, 38, 45], [53, 60, 68], [75, 83, 90]] := by decide +kernel
/-- 5: the 4 × 2 plane under HALF_UP. -/
theorem test_subsampling :
    (csub .halfUp ⟨4, 2, [[10, 21, 30, 41], [40, 50, 61, 70]]⟩).rows = [[30, 51]] := by decide +kernel
/-- 4: pack(1, 2, 3) = 21 33, and back whatever the padding nibble. -/
theorem test_pack_odd : pack [1, 2, 3] = [0x21, 0x33] := by decide
theorem test_unpack_ignores_padding : unpack [0x21, 0xA3] 3 = [1, 2, 3] := by decide
/-- R65. -/
theorem test_rep_negation : ∀ c : Code, c ≠ 0 → (rep (-c)).toNat = 256 - (rep c).toNat := by decide

/-! ## The boundary (95_test_vectors.md 7.1 and 7.3, 20_memory.md R48 and R49) -/

theorem test_drop_while_busy : statusWord (after (exec .qdec encoding)).status = 0x09 := by decide +kernel
theorem test_drop_survives_completion :
    statusWord (after (step (after (exec .qdec encoding)))).status = 0x0A := by decide +kernel
theorem test_chan_reserved_bits : (writeReg .chan 0x0000000B State.reset).chan = 3 := by decide
theorem test_mode_reserved_bits : (writeReg .mode 0x00010001 State.reset).mode = 1 := by decide
theorem test_status_is_read_only : writeReg .status 0xFFFFFFFF encoding = encoding := by rfl
theorem test_register_offsets : ∀ o : Byte, ∀ r, regAt o = some r → offsetOf r = o := by decide +kernel
theorem test_memory_drops_unlisted_value : writeByte (writeByte [] 5 0x7) 5 0 = [] := by decide
theorem test_memory_order : writeByte (writeByte [] 9 1) 4 2 = [(4, 2), (9, 1)] := by decide
/-- R62, R63: program P2's first lines as bus transactions. -/
theorem test_program_p2 :
    expandProgram [.setdst 0x100 12, .command .clen] =
      [.regWrite 0x30 4 0x100, .regWrite 0x34 4 12, .regWrite 0x00 4 0x21] := by decide

/-! ## Witnesses: a state and operands that meet each obligation's hypotheses -/

/-- A next event on the reset state. -/
def onReset (e : Event) : State := { State.reset with inputs := [e] }

theorem encoding_inv : encoding.Inv where
  cfg := by decide +kernel
  buf := by decide +kernel
  status := by decide +kernel
  busy := by decide +kernel
  pend := by
    have h : ∀ q ∈ encoding.pend, Pending.Ok encoding.cfg q := by decide +kernel
    exact fun p hp => h p hp

theorem decoding_inv : decoding.Inv where
  cfg := by decide +kernel
  buf := by decide +kernel
  status := by decide +kernel
  busy := by decide +kernel
  pend := by
    have h : ∀ q ∈ decoding.pend, Pending.Ok decoding.cfg q := by decide +kernel
    exact fun p hp => h p hp

theorem reset_inv : State.reset.Inv where
  cfg := by decide +kernel
  buf := by decide +kernel
  status := by decide
  busy := rfl
  pend := fun p hp => by cases hp

/-- The pending records of the two. -/
def pendingEncode : Pending := pendingOf .encode d1 (takeSnapshot scenario)
def pendingDecode : Pending := pendingOf .decode d1 (takeSnapshot toDecode)

theorem encoding_pend : encoding.pend = some pendingEncode := by decide +kernel
theorem decoding_pend : decoding.pend = some pendingDecode := by decide +kernel

theorem witness_CommandWordsAreTheOpcodeMap : Sys2Proof.decode 0x23#32 = .ok .decode := by rfl

theorem witness_DecodeAndEncodeAgree : Sys2Proof.decode 0x12#32 = .ok .cint4 := by rfl

theorem witness_StepRunsTheDecodedCommand :
    (onReset (Rule.commandWrite 0x04)).cfg.legal = true ∧
      (onReset (Rule.commandWrite 0x04)).inputs = Rule.commandWrite 0x04 :: [] ∧ Sys2Proof.decode 0x04#32 = .ok .qstep :=
  ⟨by decide +kernel, rfl, rfl⟩

/-- Both clauses: bit 8 alone above a listed opcode, and the reserved opcodes beside listed ones. -/
theorem witness_IllegalWordCompletesWithIllegalCommand :
    State.reset.cfg.legal = true ∧ State.reset.status.busy = false ∧ (0x00000101#32).toNat / 256 ≠ 0 ∧
      ∀ v ∈ [0x00, 0x05, 0x13, 0x24, 0xFF],
        v % 256 ∉ [0x01, 0x02, 0x03, 0x04, 0x08, 0x09, 0x0C, 0x0D, 0x0E, 0x10, 0x11, 0x12, 0x20, 0x21, 0x22, 0x23] :=
  ⟨by decide +kernel, rfl, by decide, by decide⟩

theorem witness_CommandWriteWhileBusyOnlySetsDrop : encoding.cfg.legal = true ∧ encoding.status.busy = true := by
  decide +kernel

theorem witness_QencWritesTheLargestCodeNotAboveDelta :
    (ops 100 228).status.busy = false ∧ Rule.isQcode (Rule.delta (Rule.lane 100 0) (Rule.lane 228 0)) 8 := by
  refine ⟨rfl, by decide, by decide, by decide⟩
theorem witness_QdecWritesTheRepresentative : (ops 7 0).status.busy = false := rfl
theorem witness_QrecAddsTheRepresentative : (ops 250 15).status.busy = false := rfl
theorem witness_QstepWritesCodeAndReconstruction : (ops 129 0).status.busy = false := rfl

/-- The clause where the reconstruction wraps, and the clause where it does not, at e = a. -/
theorem witness_QuantizerErrorIsWrappedAndAtMost32 :
    (0#8).toNat < ((0#8) - recon 254 (qcode (wrappedDelta 254 0))).toNat ∧
      ((1#8) - recon 255 (qcode (wrappedDelta 255 1))).toNat ≤ (1#8).toNat ∧
      (wrappedDelta 0 127).toNat ≤ (wrappedDelta 0 128).toNat := by decide

theorem witness_YccfWritesTheForwardTransform :
    (ops 0x000A0A0C 0).status.busy = false ∧ (12 : Int) = Rule.lane 0x000A0A0C 0 ∧ (10 : Int) = Rule.lane 0x000A0A0C 1 ∧
      (10 : Int) = Rule.lane 0x000A0A0C 2 := by decide
theorem witness_YcciWritesTheInverseTransform :
    (ops 0x00FF0000 0).status.busy = false ∧ (0 : Int) = Rule.lane 0x00FF0000 0 ∧ (0 : Int) = Rule.lane 0x00FF0000 1 ∧
      (255 : Int) = Rule.lane 0x00FF0000 2 := by decide

/-- Red and green under HALF_UP, where co and cg reach 256. -/
theorem witness_ForwardTransformSaturatesOnlyUnderHalfUp :
    ((255 : Int) = (255#8).toNat ∧ (0 : Int) = (0#8).toNat) ∧ roundDiv .halfUp (255 - 0) 2 + 128 = 256 ∧
      roundDiv .halfUp (2 * 255 - 0 - 0) 4 + 128 = 256 ∧ roundDiv .floor (255 - 0) 2 + 128 = 255 := by decide

theorem witness_ExchangingRedAndBlueNegatesCo : (((3#8).toNat : Int) - (7#8).toNat) % 2 = 0 := by decide

theorem witness_NibbleCommandsPackAndUnpack : (ops 0x1F 0x23).status.busy = false := rfl

/-- The odd tail and a full byte. -/
theorem witness_PackPutsTheEarlierCodeInTheLowNibble :
    2 * 1 < [(1 : Code), 2, 3].length ∧ ¬ 2 * 1 + 1 < [(1 : Code), 2, 3].length ∧ 2 * 0 + 1 < [(1 : Code), 2, 3].length := by
  decide

theorem witness_CavgWritesTheMeanOfFour : (ops 0x3228140A 0).status.busy = false := rfl
theorem witness_InterpolationCommandsRoundUp : (ops 0x5A4B2D1E 0).status.busy = false := rfl

/-- Each parity, at the last column and row of an even and of an odd size. -/
theorem witness_InterpolationFollowsTheParityOfThePixel :
    (⟨2, 2, [[30, 45], [75, 90]]⟩ : Plane).width = (3 + 1) / 2 ∧ (⟨2, 2, [[30, 45], [75, 90]]⟩ : Plane).height = (4 + 1) / 2 ∧
      2 % 2 = 0 ∧ 2 < 3 ∧ 3 % 2 = 1 ∧ 3 < 4 ∧ 1 % 2 = 1 ∧ 0 % 2 = 0 := by decide

/-- Each clause: gray, RGB, and YCoCg with full and with subsampled chroma, with and without alpha. -/
theorem witness_PlanesOfTheSourceImage :
    (d1.legal = true ∧ Rule.accepts d1 1 ∧ Rule.accepts d1 3 ∧ Rule.accepts d1 4 ∧ d1.color = .rgb) ∧
      (d6.legal = true ∧ Rule.accepts d6 4 ∧ d6.color = .ycocg ∧ d6.chroma = .full) ∧
      (d8.legal = true ∧ Rule.accepts d8 3 ∧ Rule.accepts d8 4 ∧ d8.color = .ycocg ∧ d8.chroma = .sub2x2) ∧
      (0 < (1 + 1) / 2) := by
  simp [Rule.accepts, d1, d6, d8, Descriptor.legal]

theorem witness_LinesAreRowsOrColumns :
    d10.layout = .adaptive ∧ (3 > 2) ∧ (1 < (⟨2, 2, [[30, 45], [75, 90]]⟩ : Plane).height) := by decide

theorem witness_LinesDecodeByAddingEachDelta : 1 < [(0xFF : Byte), 0x1F].length := by decide
theorem witness_LinesAreCodedAgainstTheReconstructedPredecessor : 3 < [(12 : Byte), 40, 200, 199].length := by decide

theorem witness_RowStreamsInterleaveThePixels :
    d5.legal = true ∧ Rule.accepts d5 3 ∧ d5.layout = .row ∧ (1 < 2) ∧ (2 < 3) := by
  simp [Rule.accepts, d5, Descriptor.legal]

/-- The second plane of the scenario under mode 9. -/
theorem witness_PlaneStreamsPutTheHeadersFirst :
    d9.legal = true ∧ Rule.accepts d9 3 ∧ d9.layout ≠ .row ∧
      ∃ before after P, planesEnc referenceConfig d9 3 2 2 scenarioSample = before ++ P :: after ∧
        before.length = 1 ∧ 0 < (planeLines (scansColumns d9 2 2) P).length :=
  ⟨by decide, Or.inl rfl, by decide,
    [planeOf 2 2 (fun x y => yccY .floor (scenarioSample x y 0) (scenarioSample x y 1) (scenarioSample x y 2))],
    [csub .floor (planeOf 2 2 (fun x y =>
      yccCg .floor (scenarioSample x y 0) (scenarioSample x y 1) (scenarioSample x y 2)))],
    csub .floor (planeOf 2 2 (fun x y => yccCo .floor (scenarioSample x y 0) (scenarioSample x y 2))),
    rfl, rfl, by decide +kernel⟩

/-- Each clause: gray, RGB, YCoCg with alpha. -/
theorem witness_PixelsOfTheDecodedPlanes :
    (Rule.accepts d1 1 ∧ Rule.accepts d1 4 ∧ d1.color = .rgb ∧ (3 < 4)) ∧ (Rule.accepts d8 4 ∧ d8.color = .ycocg) := by
  simp [Rule.accepts, d1, d8]

theorem witness_LineDecodesWithinTheQuantizerError : 4 < [(10 : Byte), 12, 40, 200, 199].length := by decide

theorem witness_EncodedLengthIsComputeLength : d9.legal = true ∧ Rule.accepts d9 4 ∧ (1 ≤ 1) := by
  simp [Rule.accepts, d9, Descriptor.legal]
theorem witness_RawImagesRoundTripExactly :
    d1.legal = true ∧ Rule.accepts d1 1 ∧ Rule.accepts d1 4 ∧ d1.delta = .raw8 ∧ d1.color = .rgb := by
  simp [Rule.accepts, d1, Descriptor.legal]
theorem witness_QuantizedPlanesDecodeWithin32 :
    d9.legal = true ∧ Rule.accepts d9 3 ∧ d9.delta = .q4 ∧
      2 < (planesEnc referenceConfig d9 3 2 2 scenarioSample).length := by
  refine ⟨by decide, Or.inl rfl, rfl, by decide +kernel⟩
theorem witness_QuantizedGrayOrRgbImageErrorIsAtMost32 :
    (d10.legal = true ∧ Rule.accepts d10 1 ∧ d10.delta = .q4) ∧
      (dC0.legal = true ∧ Rule.accepts dC0 3 ∧ dC0.delta = .q4 ∧ dC0.color = .rgb) := by
  simp [Rule.accepts, d10, dC0, Descriptor.legal]
theorem witness_SimpleUnsubsampledLengthIsTheImageSize :
    d6.storage = .simple ∧ d6.chroma = .full ∧ Rule.accepts d6 3 ∧ (1 ≤ 1) := by simp [Rule.accepts, d6]
/-- The largest image of the reference configuration. -/
theorem witness_OutputLengthFitsOutLen :
    referenceConfig.legal = true ∧ d9.legal = true ∧ Rule.accepts d9 4 ∧ 16384 ≤ referenceConfig.maxWidth ∧
      16384 ≤ referenceConfig.maxHeight :=
  ⟨by decide +kernel, by decide, Or.inr (Or.inr ⟨rfl, rfl⟩), by decide, by decide⟩
theorem witness_DecodeIgnoresBytesPastComputeLength :
    d9.legal = true ∧ Rule.accepts d9 3 ∧ [(0x0A : Byte), 0x0B, 0xF0, 0x80, 0x7F].length = computeLength d9 3 2 2 :=
  ⟨by decide, Or.inl rfl, by decide⟩

/-- A snapshot with stride 8, and two memories that differ in the padding of row 0 alone. -/
def paddedEncode : Pending := pendingOf .encode d1 { takeSnapshot scenario with srcStride := 8, srcLen := 14 }
theorem witness_EncodeReadsOnlyTheSamples :
    paddedEncode.op = .encode ∧ Rule.accepts paddedEncode.desc paddedEncode.snap.chan.toNat ∧
      paddedEncode.desc.legal = true ∧ 1 ≤ paddedEncode.snap.width.toNat ∧ 1 ≤ paddedEncode.snap.height.toNat ∧
      readByte (bytesAt 6 [1]) 6 ≠ readByte [] 6 ∧
      ∀ x < paddedEncode.snap.width.toNat, ∀ y < paddedEncode.snap.height.toNat, ∀ k < paddedEncode.snap.chan.toNat,
        Rule.img (bytesAt 6 [1]) paddedEncode.snap x y k = Rule.img [] paddedEncode.snap x y k :=
  ⟨rfl, Or.inl rfl, by decide, by decide, by decide, by decide, by decide +kernel⟩

/-! ### Frame commands -/

theorem scenario_resolves : Rule.resolves scenario.cfg scenario.mode scenario.chan.toNat 1 d1 :=
  ⟨Or.inr (Or.inl rfl), by decide, by decide, by decide +kernel, by decide, by decide⟩

theorem toDecode_resolves : Rule.resolves toDecode.cfg toDecode.mode toDecode.chan.toNat 1 d1 :=
  ⟨Or.inr (Or.inl (by decide +kernel)), by decide +kernel, by decide +kernel, by decide +kernel, fun _ => rfl, fun _ => rfl⟩

/-- Each way to fail: a channel count beside the legal ones, 0xFFFF, an UNASSIGNED id, the DEPRECATED one, gray where the mode
forbids it, alpha where the mode forbids it; and id 0 as DEFAULT_MODE. -/
theorem witness_ResolveWritesDescOrReportsVariantNotSupported :
    scenario.status.busy = false ∧ Rule.resolves scenario.cfg scenario.mode scenario.chan.toNat 1 d1 ∧
      Rule.resolves referenceConfig 0 4 9 d9 ∧
      Rule.resolveFails referenceConfig 1 2 ∧ Rule.resolveFails referenceConfig 0xFFFF 3 ∧
      Rule.resolveFails referenceConfig 12 3 ∧ Rule.resolveFails referenceConfig 4 3 ∧
      Rule.resolveFails referenceConfig 8 1 ∧ Rule.resolveFails referenceConfig 11 4 :=
  ⟨rfl, scenario_resolves,
    ⟨Or.inr (Or.inr rfl), by decide, by decide, by decide +kernel, by decide, by decide⟩,
    Or.inl (by decide), Or.inr (Or.inl rfl), Or.inr (Or.inr (Or.inl (by decide +kernel))),
    Or.inr (Or.inr (Or.inr (Or.inl (by decide +kernel)))),
    Or.inr (Or.inr (Or.inr (Or.inr ⟨d8, by decide +kernel, Or.inl ⟨rfl, rfl⟩⟩))),
    Or.inr (Or.inr (Or.inr (Or.inr ⟨⟨.adaptive, .sub2x2, .packed, .ycocg, .q4, false, false⟩, by decide +kernel,
      Or.inr ⟨rfl, rfl⟩⟩)))⟩

theorem witness_ClenWritesComputeLengthOrItsError :
    scenario.status.busy = false ∧ Rule.resolveFails State.reset.cfg State.reset.mode State.reset.chan.toNat ∧
      ¬ Rule.dimensionsFail scenario ∧ ¬ Rule.dimensionsFail { scenario with width := 16384, height := 16384 } ∧
      Rule.dimensionsFail { scenario with width := 0 } ∧ Rule.dimensionsFail { scenario with height := 16385 } := by
  refine ⟨rfl, Or.inl (by decide), ?_, ?_, ?_, ?_⟩ <;> unfold Rule.dimensionsFail <;> decide +kernel

/-- Adjacent ranges, DST_CAP exactly the length. -/
theorem witness_EncodeStartsWhenEveryCheckPasses :
    scenario.status.busy = false ∧ Rule.resolves scenario.cfg scenario.mode scenario.chan.toNat 1 d1 ∧
      ¬ Rule.dimensionsFail scenario ∧ ¬ Rule.sourceFails .encode d1 scenario ∧
      ¬ Rule.placementFails .encode d1 { scenario with dstAddr := 0x00C } ∧
      ¬ Rule.placementFails .encode d1 { scenario with dstAddr := 0xFFFF4 } := by
  refine ⟨rfl, scenario_resolves, ?_, ?_, ?_, ?_⟩
  · unfold Rule.dimensionsFail; decide +kernel
  · unfold Rule.sourceFails; decide +kernel
  · unfold Rule.placementFails; decide +kernel
  · unfold Rule.placementFails; decide +kernel

theorem witness_DecodeStartsWhenEveryCheckPasses :
    toDecode.status.busy = false ∧ Rule.resolves toDecode.cfg toDecode.mode toDecode.chan.toNat 1 d1 ∧
      ¬ Rule.dimensionsFail toDecode ∧ ¬ Rule.sourceFails .decode d1 toDecode ∧
      ¬ Rule.placementFails .decode d1 toDecode := by
  refine ⟨by decide +kernel, toDecode_resolves, ?_, ?_, ?_⟩
  · unfold Rule.dimensionsFail; decide +kernel
  · unfold Rule.sourceFails; decide +kernel
  · unfold Rule.placementFails; decide +kernel

/-- Each clause, one byte beyond its boundary (95_test_vectors.md 7.2). -/
theorem witness_FrameCommandReportsTheFirstFailingCheck :
    Rule.resolveFails State.reset.cfg State.reset.mode State.reset.chan.toNat ∧
      Rule.dimensionsFail { scenario with width := 0 } ∧
      Rule.sourceFails .encode d1 { scenario with srcStride := 5 } ∧
      Rule.sourceFails .encode d1 { scenario with srcLen := 11 } ∧
      Rule.sourceFails .decode d1 { scenario with srcLen := 11 } ∧
      Rule.placementFails .encode d1 { scenario with dstCap := 11 } ∧
      Rule.placementFails .encode d1 { scenario with dstAddr := 0xFFFF5 } ∧
      Rule.placementFails .encode d1 { scenario with srcAddr := 0xFFFFFFFF } ∧
      Rule.placementFails .encode d1 { scenario with dstAddr := 0x00B } := by
  refine ⟨Or.inl (by decide), ?_, ?_, ?_, ?_, ?_, ?_, ?_, ?_⟩
  · unfold Rule.dimensionsFail; decide +kernel
  · unfold Rule.sourceFails; decide +kernel
  · unfold Rule.sourceFails; decide +kernel
  · unfold Rule.sourceFails; decide +kernel
  · unfold Rule.placementFails; decide +kernel
  · unfold Rule.placementFails; decide +kernel
  · unfold Rule.placementFails; decide +kernel
  · unfold Rule.placementFails; decide +kernel

theorem inv_withInputs {s : State} (h : s.Inv) (events : List Event) : { s with inputs := events }.Inv :=
  ⟨h.cfg, h.buf, h.status, h.busy, h.pend⟩

/-- With nothing left at the boundary, and at a turn of the sequencer. -/
theorem witness_EncodeCompletionWritesTheStream :
    (encoding.Inv ∧ encoding.pend = some pendingEncode ∧ pendingEncode.op = .encode ∧ encoding.inputs = []) ∧
      { encoding with inputs := [.sequencer] }.Inv ∧ { encoding with inputs := [.sequencer] }.pend = some pendingEncode :=
  ⟨⟨encoding_inv, encoding_pend, rfl, by decide +kernel⟩, inv_withInputs encoding_inv _, encoding_pend⟩
theorem witness_DecodeCompletionWritesThePixels :
    (decoding.Inv ∧ decoding.pend = some pendingDecode ∧ pendingDecode.op = .decode ∧ decoding.inputs = []) ∧
      { decoding with inputs := [.sequencer] }.Inv ∧ { decoding with inputs := [.sequencer] }.pend = some pendingDecode :=
  ⟨⟨decoding_inv, decoding_pend, rfl, by decide +kernel⟩, inv_withInputs decoding_inv _, decoding_pend⟩

/-! ### The boundary -/

/-- A byte access, an unaligned one, the first and last reserved offsets, and the last unaligned one. -/
theorem witness_RegisterWindowAccessRules :
    State.reset.cfg.legal = true ∧ (1 ≠ 4) ∧ (0x06#8).toNat % 4 ≠ 0 ∧ (0xFF#8).toNat % 4 ≠ 0 ∧ 0x40 ≤ (0x40#8).toNat ∧
      (0x40#8).toNat % 4 = 0 ∧ 0x40 ≤ (0xFC#8).toNat ∧ (0xFC#8).toNat % 4 = 0 := by
  refine ⟨by decide +kernel, ?_⟩
  decide

theorem witness_RegisterReadsReturnTheRegisterAndChangeNothing :
    encoding.cfg.legal = true ∧ (onReset (.regRead 0x3C#8 4)).inputs = .regRead 0x3C#8 4 :: [] :=
  ⟨by decide +kernel, rfl⟩

/-- The first and last bytes of both ranges, and the bytes beside them. -/
theorem witness_HostWriteToAPendingRangeFaults :
    encoding.cfg.legal = true ∧ Memory.wf encoding.buf ∧ encoding.pend = some pendingEncode ∧
      0xFFFFF < encoding.cfg.bufSize ∧ Rule.inSourceRange pendingEncode 0 ∧ Rule.inSourceRange pendingEncode 11 ∧
      ¬ Rule.inSourceRange pendingEncode 12 ∧ ¬ Rule.inDestinationRange pendingEncode 12 ∧
      Rule.inDestinationRange pendingEncode 0x100 ∧ Rule.inDestinationRange pendingEncode 0x10B := by
  refine ⟨by decide +kernel, by decide +kernel, encoding_pend, by decide +kernel, ?_⟩
  unfold Rule.inSourceRange Rule.inDestinationRange
  decide +kernel
theorem witness_HostReadOfAPendingDestinationIsAFreeValue :
    encoding.cfg.legal = true ∧ encoding.pend = some pendingEncode ∧ Rule.inDestinationRange pendingEncode 0x10B ∧
      ¬ Rule.inDestinationRange pendingEncode 0x10C ∧ 0x10C < encoding.cfg.bufSize := by
  refine ⟨by decide +kernel, encoding_pend, ?_⟩
  unfold Rule.inDestinationRange
  decide +kernel
theorem witness_HostAccessOutsideBufFaults :
    State.reset.cfg.legal = true ∧ State.reset.cfg.bufSize ≤ 0x100000 := by decide +kernel

theorem witness_ResetClearsRegistersAndAbandonsThePendingCommand :
    { encoding with inputs := [.reset] }.cfg.legal = true ∧ Memory.wf { encoding with inputs := [.reset] }.buf ∧
      encoding.pend = some pendingEncode ∧ Rule.inDestinationRange pendingEncode 0x100 ∧
      ¬ Rule.inDestinationRange pendingEncode 0xFF := by
  refine ⟨by decide +kernel, by decide +kernel, encoding_pend, ?_⟩
  unfold Rule.inDestinationRange
  decide +kernel

/-! ### Whole-machine rules -/

theorem witness_EveryStepKeepsTheInvariant :
    encoding.Inv ∧ step encoding = .next (sequencerTurn encoding) := ⟨encoding_inv, rfl⟩

/-- RES changes at QSTEP, DESC at RESOLVE, OUT_LEN at a completion. -/
theorem witness_ResultRegistersHaveTheirWriters :
    (after (step ((ops 129 0).withFetchWord 32 0x04))).res ≠ (ops 129 0).res ∧
      (after (step (scenario.withFetchWord 32 0x20))).desc ≠ scenario.desc ∧ encoded.outLen ≠ encoding.outLen := by
  decide +kernel

theorem witness_BufChangesOnlyWhereARuleSaysSo :
    encoding.Inv ∧ step encoding = .next (sequencerTurn encoding) ∧
      readByte (sequencerTurn encoding).buf 0x100 ≠ readByte encoding.buf 0x100 :=
  ⟨encoding_inv, rfl, by decide +kernel⟩

theorem witness_ConfigurationIsFixed :
    step State.reset = .next State.reset ∧
      { State.reset with cfg := { referenceConfig with bufSize := 0 } }.cfg.legal = false :=
  ⟨rfl, by decide +kernel⟩

/-- The host's read of STATUS. -/
def readStatus : Event := .regRead 0x04#8 4

/-- A WAIT of no read and of three before the sequencer's turn, and three reads with nothing after them. -/
theorem witness_WaitTerminatesWithTheCommandComplete :
    encoding.pend = some pendingEncode ∧
      { encoding with inputs := List.replicate 0 readStatus ++ [Event.sequencer, readStatus] }.Inv ∧
      { encoding with inputs := List.replicate 3 readStatus ++ [Event.sequencer, readStatus] }.Inv ∧
      { encoding with inputs := List.replicate 3 readStatus }.Inv :=
  ⟨encoding_pend, inv_withInputs encoding_inv _, inv_withInputs encoding_inv _, inv_withInputs encoding_inv _⟩

/-- A frame register written; DESC and a reserved offset read; the byte after the source range, the byte before and the byte
after the destination range. -/
theorem witness_CompletionCommutesWithAllowedHostAccesses :
    encoding.Inv ∧ encoding.pend = some pendingEncode ∧ ((0x28#8).toNat % 4 = 0 ∧ (0x28#8).toNat ≠ 0x00) ∧
      (∀ offset ∈ [0x00#8, 0x08#8, 0x34#8, 0x3C#8, 0x40#8, 0xFC#8],
        offset.toNat % 4 = 0 ∧ offset.toNat ≠ 0x04 ∧ offset.toNat ≠ 0x38) ∧
      12 < encoding.cfg.bufSize ∧ ¬ Rule.inSourceRange pendingEncode 12 ∧ ¬ Rule.inDestinationRange pendingEncode 12 ∧
      ¬ Rule.inDestinationRange pendingEncode 0xFF ∧ ¬ Rule.inDestinationRange pendingEncode 0x10C := by
  refine ⟨encoding_inv, encoding_pend, by decide, by decide, by decide +kernel, ?_⟩
  unfold Rule.inSourceRange Rule.inDestinationRange
  decide +kernel

end Sys2Proof.Tests
end

section
/-! PROOFS. What no step changes (10_state.md R16): the configuration. -/

namespace Sys2Proof.Machine

/-! ## The commands -/

theorem isPrimitive_or (i : Instr) :
    Rule.isPrimitive i ∨ i = .resolve ∨ i = .clen ∨ i = .encode ∨ i = .decode := by
  cases i <;> simp [Rule.isPrimitive]

/-- A primitive command is `primitive` of a function that may read the configuration of `s` (R57, R75, R93). -/
theorem exec_of_isPrimitive {i : Instr} (hi : Rule.isPrimitive i) (s : State) :
    ∃ f, exec i s = primitive f s := by
  cases i with
  | resolve | clen | encode | decode => simp [Rule.isPrimitive] at hi
  | _ =>
    dsimp only [exec]
    exact ⟨_, rfl⟩

theorem withResolved_cfg {cmd : Instr} {proceed : Descriptor → State → State}
    (hp : ∀ d u, (proceed d u).cfg = u.cfg) (s : State) : (withResolved cmd proceed s).cfg = s.cfg := by
  cases hr : resolveMode s.cfg s.mode s.chan.toNat with
  | none => rw [withResolved_none cmd proceed hr, raiseError_cfg]
  | some r => rw [withResolved_some cmd proceed hr, hp]

theorem performClen_cfg (d : Descriptor) (s : State) : (performClen d s).cfg = s.cfg := by
  cases hd : dimensionsBad s.cfg (takeSnapshot s) with
  | true => rw [performClen_error hd, raiseError_cfg]
  | false => rw [performClen_ok hd, completeIssue_cfg]

theorem startFrame_cfg (cmd : Instr) (op : FrameOp) (d : Descriptor) (s : State) :
    (startFrame cmd op d s).cfg = s.cfg := by
  cases he : frameError s.cfg op d (takeSnapshot s) with
  | some e => rw [startFrame_error cmd he, raiseError_cfg]
  | none => rw [startFrame_ok cmd he]

theorem issue_next_cfg {f : State → State} (hf : ∀ u, (f u).cfg = u.cfg) {s t : State} (h : issue f s = .next t) :
    t.cfg = s.cfg := by
  obtain ⟨-, ht⟩ | ⟨-, ht⟩ := issue_cases h
  · injection ht with ht
    rw [ht, dropIssue_cfg]
  · injection ht with ht
    rw [ht, hf, acceptIssue_cfg]

theorem primitive_next_cfg {f : Word → Word → Word} {s t : State} (h : primitive f s = .next t) : t.cfg = s.cfg := by
  refine issue_next_cfg (fun u => ?_) h
  rw [completeIssue_cfg]

theorem exec_next_cfg {i : Instr} {s t : State} (h : exec i s = .next t) : t.cfg = s.cfg := by
  obtain hi | rfl | rfl | rfl | rfl := isPrimitive_or i
  · obtain ⟨f, hf⟩ := exec_of_isPrimitive hi s
    exact primitive_next_cfg (hf.symm.trans h)
  · exact issue_next_cfg (withResolved_cfg fun _ => completeIssue_cfg) h
  · exact issue_next_cfg (withResolved_cfg performClen_cfg) h
  · exact issue_next_cfg (withResolved_cfg (startFrame_cfg .encode .encode)) h
  · exact issue_next_cfg (withResolved_cfg (startFrame_cfg .decode .decode)) h

/-! ## The boundary -/

theorem issueWord_next_cfg {v : Word} {s t : State} (h : issueWord v s = .next t) : t.cfg = s.cfg := by
  unfold issueWord at h
  split at h
  · exact exec_next_cfg h
  · exact issue_next_cfg (raiseError_cfg none .illegalCommand) h

theorem sequencerTurn_cfg (s : State) : (sequencerTurn s).cfg = s.cfg := by
  cases hp : s.pend with
  | none => rw [sequencerTurn_none hp]
  | some p => rw [sequencerTurn_some hp, completePending_cfg]

theorem hostRegWrite_next_cfg {offset : Byte} {size : Nat} {v : Word} {s t : State}
    (h : hostRegWrite offset size v s = .next t) : t.cfg = s.cfg := by
  obtain ⟨-, ⟨-, hc⟩ | ⟨r, -, -, rfl⟩ | ⟨-, rfl⟩⟩ := hostRegWrite_next h
  · exact issueWord_next_cfg hc
  · exact (writeReg_frame r v s).1
  · rfl

theorem performEvent_next_cfg {e : Event} {s t : State} (h : performEvent e s = .next t) : t.cfg = s.cfg := by
  cases e with
  | regWrite offset size v => exact hostRegWrite_next_cfg h
  | regRead offset size =>
    obtain ⟨-, w, rfl⟩ := hostRegRead_next h
    rfl
  | bufWrite a v =>
    obtain ⟨-, -, rfl⟩ := hostBufWrite_next h
    rfl
  | bufRead a =>
    obtain ⟨-, ⟨-, rfl⟩ | ⟨-, rfl⟩⟩ := hostBufRead_next h <;> rfl
  | sequencer =>
    injection h with h
    rw [← h, sequencerTurn_cfg]
  | reset =>
    injection h with h
    rw [← h, applyReset_cfg]

/-! ## A step -/

theorem step_next_cfg {s t : State} (h : step s = .next t) : t.cfg = s.cfg := by
  obtain ⟨-, ⟨-, rfl⟩ | ⟨e, rest, -, he⟩⟩ := step_next h
  · exact sequencerTurn_cfg s
  · exact performEvent_next_cfg (s := { s with inputs := rest }) he

theorem step_illegal {s : State} (h : s.cfg.legal = false) : step s = .refused .invalidConfiguration := by
  simp [step, h]

/-- Settles O58: every event's inversion lemma leaves `cfg` alone, and `step` tests the configuration first. -/
theorem configurationIsFixed : Obligations.ConfigurationIsFixed :=
  ⟨fun _ _ => step_next_cfg, fun _ => step_illegal⟩

end Sys2Proof.Machine
end

section
/-! PROOFS. The bounds of compute_length (44_modes.md R118) and of an image's size under the limits of 00_scope.md R7. -/

namespace Sys2Proof.Machine

/-! ## Segments, rows and planes -/

theorem ceil2_le (n : Nat) : ceil2 n ≤ n := by unfold ceil2; omega

theorem ceil2_pos {n : Nat} (h : 1 ≤ n) : 1 ≤ ceil2 n := by unfold ceil2; omega

theorem segLen_le (d : Descriptor) (n : Nat) : segLen d n ≤ n := by
  unfold segLen
  cases d.storage with
  | simple => exact Nat.le_refl n
  | packed => exact ceil2_le n

/-- m headers and the segment of m·(n − 1) deltas take no more than m·n bytes. -/
theorem headers_add_segLen_le (d : Descriptor) {m n : Nat} (hn : 1 ≤ n) : m + segLen d (m * (n - 1)) ≤ m * n :=
  calc m + segLen d (m * (n - 1)) ≤ m + m * (n - 1) := Nat.add_le_add_left (segLen_le d _) m
    _ = m * (n - 1 + 1) := by rw [Nat.mul_succ, Nat.add_comm]
    _ = m * n := by rw [Nat.sub_add_cancel hn]

theorem rowLen_le (d : Descriptor) (c : Nat) {w : Nat} (hw : 1 ≤ w) : rowLen d c w ≤ w * c := by
  rw [rowLen, Nat.mul_comm (w - 1), Nat.mul_comm w]
  exact headers_add_segLen_le d hw

theorem rowLen_pos (d : Descriptor) {c : Nat} (w : Nat) (hc : 1 ≤ c) : 1 ≤ rowLen d c w :=
  hc.trans (Nat.le_add_right c _)

theorem planeLen_le (d : Descriptor) (cols : Bool) {size : Nat × Nat} (hw : 1 ≤ size.1) (hh : 1 ≤ size.2) :
    planeLen d cols size ≤ size.1 * size.2 := by
  cases cols with
  | true => exact headers_add_segLen_le d hh
  | false => exact (headers_add_segLen_le d hw).trans_eq (Nat.mul_comm ..)

theorem planeLen_pos (d : Descriptor) (cols : Bool) {size : Nat × Nat} (hw : 1 ≤ size.1) (hh : 1 ≤ size.2) :
    1 ≤ planeLen d cols size := by
  cases cols with
  | true => exact hw.trans (Nat.le_add_right ..)
  | false => exact hh.trans (Nat.le_add_right ..)

/-! ## The planes of an image (R108) -/

theorem accepts_channels {d : Descriptor} {c : Nat} (h : Rule.accepts d c) : c = 1 ∨ c = 3 ∨ c = 4 := by
  unfold Rule.accepts at h
  omega

theorem planeSizes_length {d : Descriptor} {c : Nat} (w h : Nat) (hc : c = 1 ∨ c = 3 ∨ c = 4) :
    (planeSizes d c w h).length = c := by
  unfold planeSizes
  obtain rfl | rfl | rfl := hc <;> cases d.color <;> cases d.chroma <;> rfl

/-- Every plane is the image's size or the subsampled one. -/
theorem mem_planeSizes {d : Descriptor} {c w h : Nat} {size : Nat × Nat} (hs : size ∈ planeSizes d c w h) :
    size = (w, h) ∨ size = (ceil2 w, ceil2 h) := by
  unfold planeSizes at hs
  split at hs
  · exact .inl (List.mem_singleton.1 hs)
  · cases hcol : d.color with
    | rgb =>
      rw [hcol] at hs
      exact .inl (List.eq_of_mem_replicate hs)
    | ycocg =>
      simp only [hcol, List.mem_append] at hs
      obtain hcolor | halpha := hs
      · cases hchr : d.chroma with
        | full => exact .inl (by simpa [hchr] using hcolor)
        | sub2x2 => simpa [hchr] using hcolor
      · split at halpha
        · exact .inl (List.mem_singleton.1 halpha)
        · cases halpha

/-- No plane of a non-empty image is empty or takes more bytes than it would take samples of the image. -/
theorem planeLen_bounds {d : Descriptor} {c w h : Nat} (cols : Bool) {size : Nat × Nat} (hw : 1 ≤ w) (hh : 1 ≤ h)
    (hs : size ∈ planeSizes d c w h) : 1 ≤ planeLen d cols size ∧ planeLen d cols size ≤ w * h := by
  obtain rfl | rfl := mem_planeSizes hs
  · exact ⟨planeLen_pos d cols hw hh, planeLen_le d cols hw hh⟩
  · have hw' := ceil2_pos hw
    have hh' := ceil2_pos hh
    exact ⟨planeLen_pos d cols hw' hh',
      (planeLen_le d cols hw' hh').trans (Nat.mul_le_mul (ceil2_le w) (ceil2_le h))⟩

/-! ## compute_length -/

/-- The bytes of all planes lie between one and w·h each. -/
theorem planeLens_sum_bounds {d : Descriptor} {c w h : Nat} (cols : Bool) (hc : c = 1 ∨ c = 3 ∨ c = 4) (hw : 1 ≤ w)
    (hh : 1 ≤ h) : c ≤ ((planeSizes d c w h).map (planeLen d cols)).sum ∧
      ((planeSizes d c w h).map (planeLen d cols)).sum ≤ w * h * c := by
  have hlen : ((planeSizes d c w h).map (planeLen d cols)).length = c := by
    rw [List.length_map, planeSizes_length w h hc]
  have each : ∀ n ∈ (planeSizes d c w h).map (planeLen d cols), 1 ≤ n ∧ n ≤ w * h := by
    intro n hn
    obtain ⟨size, hs, rfl⟩ := List.mem_map.1 hn
    exact planeLen_bounds cols hw hh hs
  have low := List.card_nsmul_le_sum _ 1 fun n hn => (each n hn).1
  have high := List.sum_le_card_nsmul _ (w * h) fun n hn => (each n hn).2
  rw [hlen, smul_eq_mul] at low high
  exact ⟨by omega, by rwa [Nat.mul_comm] at high⟩

theorem computeLength_bounds {d : Descriptor} {c w h : Nat} (hc : c = 1 ∨ c = 3 ∨ c = 4) (hw : 1 ≤ w) (hh : 1 ≤ h) :
    1 ≤ computeLength d c w h ∧ computeLength d c w h ≤ w * h * c := by
  have hc1 : 1 ≤ c := by omega
  have planes := planeLens_sum_bounds (d := d) (scansColumns d w h) hc hw hh
  unfold computeLength
  cases d.layout with
  | row =>
    refine ⟨Nat.mul_pos hh (rowLen_pos d w hc1), ?_⟩
    calc h * rowLen d c w ≤ h * (w * c) := Nat.mul_le_mul_left h (rowLen_le d c hw)
      _ = w * h * c := by rw [Nat.mul_left_comm, Nat.mul_assoc]
  | planar => exact ⟨hc1.trans planes.1, planes.2⟩
  | adaptive => exact ⟨hc1.trans planes.1, planes.2⟩

/-! ## The limits of a legal configuration (R7) -/

theorem samples_lt_of_limits {cfg : Config} (hl : cfg.legal = true) :
    4 * cfg.maxWidth * cfg.maxHeight < 2 ^ 31 := by
  simp only [Config.legal, Config.limitsLegal, Bool.and_eq_true, decide_eq_true_eq] at hl
  obtain ⟨⟨⟨-, -, hlt⟩, -⟩, -⟩ := hl
  exact hlt

theorem imageSize_lt {cfg : Config} {c w h : Nat} (hl : cfg.legal = true) (hc : c ≤ 4) (hw : w ≤ cfg.maxWidth)
    (hh : h ≤ cfg.maxHeight) : w * h * c < 2 ^ 31 :=
  calc w * h * c ≤ cfg.maxWidth * cfg.maxHeight * 4 := Nat.mul_le_mul (Nat.mul_le_mul hw hh) hc
    _ = 4 * cfg.maxWidth * cfg.maxHeight := by rw [Nat.mul_comm, Nat.mul_assoc]
    _ < 2 ^ 31 := samples_lt_of_limits hl

theorem toNat_ofNat_of_lt_half {n : Nat} (h : n < 2 ^ 31) : (BitVec.ofNat 32 n).toNat = n :=
  by
  rw [BitVec.toNat_ofNat, Nat.mod_eq_of_lt (h.trans (by decide))]

/-- Settles O36: every segment is at most as long as its deltas, so each row and each plane stays within its samples, and
4·MAX_WIDTH·MAX_HEIGHT < 2^31 bounds the whole. -/
theorem outputLengthFitsOutLen : Obligations.OutputLengthFitsOutLen := by
  unfold Obligations.OutputLengthFitsOutLen
  intro cfg d c w h hcfg _ hacc hw hh hmw hmh
  have hc := accepts_channels hacc
  obtain ⟨hpos, hle⟩ := computeLength_bounds (d := d) hc hw hh
  have hlt : w * h * c < 2 ^ 31 := imageSize_lt hcfg (by omega) hmw hmh
  exact ⟨hpos, hle, hlt, toNat_ofNat_of_lt_half (hle.trans_lt hlt), toNat_ofNat_of_lt_half hlt⟩

end Sys2Proof.Machine
end

section
/-! PROOFS. The register window (10_state.md R17 to R20, R32): which register stands at an offset, and what an access
to it does. -/

namespace Sys2Proof.Machine

/-! ## Offsets (R17) -/

@[simp] theorem regAt_offsetOf (r : Reg) : regAt (offsetOf r) = some r := by cases r <;> rfl

/-- A register stands at its own offset only. -/
theorem eq_offsetOf_of_regAt {offset : Byte} {r : Reg} (h : regAt offset = some r) : offset = offsetOf r := by
  unfold regAt at h
  split at h <;> cases h <;> rfl

theorem regAt_reserved {offset : Byte} (h : 0x40 ≤ offset.toNat) : regAt offset = none := by
  cases hr : regAt offset with
  | none => rfl
  | some r =>
    have hlt : (offsetOf r).toNat < 0x40 := by cases r <;> decide
    rw [eq_offsetOf_of_regAt hr] at h
    exact absurd h (Nat.not_le.2 hlt)

theorem alignedWordAccess_iff (offset : Byte) (size : Nat) :
    alignedWordAccess offset size = true ↔ size = 4 ∧ offset.toNat % 4 = 0 := by
  simp [alignedWordAccess]

@[simp] theorem alignedWordAccess_offsetOf (r : Reg) : alignedWordAccess (offsetOf r) 4 = true := by cases r <;> rfl

/-! ## Accesses -/

section Access
variable {offset : Byte} {size : Nat} {r : Reg} {s : State}

theorem hostRegWrite_misaligned (v : Word) (h : alignedWordAccess offset size = false) :
    hostRegWrite offset size v s = .fault (.hostDutyRegisterAccess offset size) := by
  simp [hostRegWrite, h]

theorem hostRegRead_misaligned (h : alignedWordAccess offset size = false) :
    hostRegRead offset size s = .fault (.hostDutyRegisterAccess offset size) := by
  simp [hostRegRead, h]

theorem hostRegWrite_reserved (v : Word) (ha : alignedWordAccess offset size = true) (hr : regAt offset = none) :
    hostRegWrite offset size v s = .next s := by
  simp [hostRegWrite, ha, hr]

theorem hostRegRead_reserved (ha : alignedWordAccess offset size = true) (hr : regAt offset = none) :
    hostRegRead offset size s = .next { s with readData := 0 } := by
  simp [hostRegRead, ha, hr]

theorem hostRegWrite_cmd (v : Word) (s : State) : hostRegWrite (offsetOf .cmd) 4 v s = issueWord v s := by
  simp [hostRegWrite]

theorem hostRegWrite_reg (v : Word) (hne : r ≠ .cmd) (s : State) :
    hostRegWrite (offsetOf r) 4 v s = .next (writeReg r v s) := by
  simp [hostRegWrite]

theorem hostRegRead_reg (r : Reg) (s : State) :
    hostRegRead (offsetOf r) 4 s = .next { s with readData := readReg r s } := by
  simp [hostRegRead]

end Access

/-! ## Steps on an access -/

section Step
variable {s : State} {rest : List Event}

/-- A step with an event left performs it. -/
theorem step_event {e : Event} (hl : s.cfg.legal = true) (hi : s.inputs = e :: rest) :
    step s = performEvent e { s with inputs := rest } := by
  rw [step_legal hl, stepEvents_cons hi]

theorem step_regWrite {offset : Byte} {v : Word} {r : Reg} (hl : s.cfg.legal = true)
    (hi : s.inputs = .regWrite offset 4 v :: rest) (hne : r ≠ .cmd) (ho : offset.toNat = (offsetOf r).toNat) :
    step s = .next (writeReg r v { s with inputs := rest }) := by
  obtain rfl := BitVec.eq_of_toNat_eq ho
  exact (step_event hl hi).trans (hostRegWrite_reg v hne _)

theorem step_regRead {offset : Byte} {r : Reg} (hl : s.cfg.legal = true)
    (hi : s.inputs = .regRead offset 4 :: rest) (ho : offset.toNat = (offsetOf r).toNat) :
    step s = .next { s with inputs := rest, readData := readReg r s } := by
  obtain rfl := BitVec.eq_of_toNat_eq ho
  refine (step_event hl hi).trans ((hostRegRead_reg r _).trans ?_)
  cases r <;> rfl

end Step

/-! ## The word written to CMD -/

theorem issueWord_ok {v : Word} {i : Instr} (h : Sys2Proof.decode v = .ok i) (s : State) :
    issueWord v s = exec i s := by
  simp [issueWord, h]

/-- A word written to CMD runs its command, or is no command. -/
theorem issueWord_cases {v : Word} {s : State} {o : Host.Outcome State Fault Refusal} (h : issueWord v s = o) :
    (∃ i, Sys2Proof.decode v = .ok i ∧ exec i s = o) ∨ illegalCommand s = o := by
  unfold issueWord at h
  split at h
  · next i hi => exact .inl ⟨i, hi, h⟩
  · exact .inr h

/-- Settles O4: a write to CMD is `issueWord`, which decodes the word. -/
theorem stepRunsTheDecodedCommand : Obligations.StepRunsTheDecodedCommand := by
  unfold Obligations.StepRunsTheDecodedCommand
  intro s v i rest hl hi hv
  calc step s = hostRegWrite (offsetOf .cmd) 4 v { s with inputs := rest } := step_event hl hi
    _ = issueWord v { s with inputs := rest } := hostRegWrite_cmd v _
    _ = exec i { s with inputs := rest } := issueWord_ok hv _

/-! ## The access rules (R18) -/

/-- The low bits of a register, which are all that MODE and CHAN keep (R18 (4)). -/
theorem ofNat_toNat_mod_two_pow {n : Nat} (v : BitVec n) (m : Nat) :
    BitVec.ofNat m (v.toNat % 2 ^ m) = v.setWidth m := by
  simp [← BitVec.toNat_inj]

/-- Settles O46: an access at a register's offset reads or writes that register, one at any other offset from 0x40 on is
reserved, and a misaligned one faults before the offset is looked at. -/
theorem registerWindowAccessRules : Obligations.RegisterWindowAccessRules := by
  unfold Obligations.RegisterWindowAccessRules
  intro s offset size v rest hl
  refine ⟨fun hbad => ?_, fun hsize halign => ?_⟩
  · have ha : alignedWordAccess offset size = false := by
      rw [Bool.eq_false_iff, Ne, alignedWordAccess_iff]
      omega
    exact ⟨fun hi => (step_event hl hi).trans (hostRegWrite_misaligned v ha),
      fun hi => (step_event hl hi).trans (hostRegRead_misaligned ha)⟩
  · subst hsize
    have ha := (alignedWordAccess_iff offset 4).2 ⟨rfl, halign⟩
    refine ⟨fun hi => ⟨?_, ?_⟩, fun hi => ⟨?_, ?_, ?_⟩⟩
    · rintro (hro | hres)
      · simp only [List.mem_cons, List.not_mem_nil, or_false] at hro
        obtain ho | ho | ho | ho := hro
        · exact step_regWrite (r := .status) hl hi nofun ho
        · exact step_regWrite (r := .res) hl hi nofun ho
        · exact step_regWrite (r := .outLen) hl hi nofun ho
        · exact step_regWrite (r := .desc) hl hi nofun ho
      · exact (step_event hl hi).trans (hostRegWrite_reserved v ha (regAt_reserved hres))
    · have hmode : BitVec.ofNat 16 (v.toNat % 65536) = v.setWidth 16 := ofNat_toNat_mod_two_pow v 16
      have hchan : BitVec.ofNat 3 (v.toNat % 8) = v.setWidth 3 := ofNat_toNat_mod_two_pow v 3
      rw [hmode, hchan]
      have write (r : Reg) := step_regWrite (r := r) hl hi
      exact ⟨write .opa nofun, write .opb nofun, write .mode nofun, write .chan nofun, write .width nofun,
        write .height nofun, write .srcAddr nofun, write .srcStride nofun, write .srcLen nofun, write .dstAddr nofun,
        write .dstCap nofun⟩
    · rintro (ho | hres)
      · exact step_regRead (r := .cmd) hl hi ho
      · exact (step_event hl hi).trans (hostRegRead_reserved ha (regAt_reserved hres))
    · rw [BitVec.ofNat_toNat]
      exact step_regRead (r := .mode) hl hi
    · rw [BitVec.ofNat_toNat]
      exact step_regRead (r := .chan) hl hi

/-- STATUS by the layout of R20. -/
theorem statusWord_eq_ofNat (st : Status) :
    statusWord st = BitVec.ofNat 32
      ((if st.busy then 1 else 0) + (if st.done then 2 else 0) + (if st.err then 4 else 0) +
        (if st.drop then 8 else 0) + 16 * st.errcode.toNat) := by
  have hcode := st.errcode.isLt
  apply BitVec.eq_of_toNat_eq
  rw [statusWord_toNat, BitVec.toNat_ofNat]
  cases st.busy <;> cases st.done <;> cases st.err <;> cases st.drop <;> simp <;> omega

/-- Settles O47: a read at a register's offset returns `readReg` of it and changes only `readData`. -/
theorem registerReadsReturnTheRegisterAndChangeNothing :
    Obligations.RegisterReadsReturnTheRegisterAndChangeNothing := by
  unfold Obligations.RegisterReadsReturnTheRegisterAndChangeNothing
  intro s rest hl reads
  have read (r : Reg) : reads (offsetOf r) (readReg r s) := fun hi => step_regRead hl hi rfl
  rw [← statusWord_eq_ofNat]
  exact ⟨read .status, read .opa, read .opb, read .res, read .width, read .height, read .srcAddr, read .srcStride,
    read .srcLen, read .dstAddr, read .dstCap, read .outLen, read .desc⟩

/-- Settles O52: every register of the reset state is written out as 0. -/
theorem resetStateIsAllZero : Obligations.ResetStateIsAllZero :=
  ⟨fun r => by cases r <;> rfl, rfl, rfl⟩

end Sys2Proof.Machine
end

section
/-! PROOFS. The checks of a frame command (60_exceptions.md R138) as the rules word them: the resolve step
(44_modes.md R106), DESC (10_state.md R24), the checks on the registers, and what ENCODE and DECODE report. -/

namespace Sys2Proof.Machine

/-! ## The resolve step (R106) -/

theorem acceptsChannels_iff (d : Descriptor) (c : Nat) : acceptsChannels d c = true ↔ Rule.accepts d c := by
  simp [acceptsChannels, Rule.accepts, or_assoc]

/-- Among the channel counts of R102, a descriptor refuses only gray or alpha it has no flag for. -/
theorem accepts_iff_flags {d : Descriptor} {c : Nat} (hc : c = 1 ∨ c = 3 ∨ c = 4) :
    Rule.accepts d c ↔ (c = 1 → d.grayOk = true) ∧ (c = 4 → d.alphaOk = true) := by
  obtain rfl | rfl | rfl := hc <;> simp [Rule.accepts]

theorem not_flags_iff (d : Descriptor) (c : Nat) :
    ¬ ((c = 1 → d.grayOk = true) ∧ (c = 4 → d.alphaOk = true)) ↔
      (c = 1 ∧ d.grayOk = false) ∨ (c = 4 ∧ d.alphaOk = false) := by
  rw [not_and_or, Classical.not_imp, Classical.not_imp, Bool.not_eq_true, Bool.not_eq_true]

theorem resolveMode_eq_some_iff {cfg : Config} {m : BitVec 16} {c : Nat} {e : BitVec 16} {d : Descriptor} :
    resolveMode cfg m c = some (e, d) ↔ Rule.resolves cfg m c e d := by
  have heff : Rule.effective cfg m = effectiveMode cfg m := rfl
  unfold resolveMode Rule.resolves
  rw [heff]
  split
  · next hc => exact ⟨nofun, fun ⟨hc', _⟩ => by omega⟩
  next hc =>
  split
  · next hm => exact ⟨nofun, fun ⟨_, hm', _⟩ => absurd hm hm'⟩
  next hm =>
  have hc' : c = 1 ∨ c = 3 ∨ c = 4 := by omega
  cases he : cfg.entryOf (effectiveMode cfg m) with
  | unassigned =>
    refine ⟨nofun, ?_⟩
    rintro ⟨-, -, rfl, hd, -⟩
    cases he.symm.trans hd
  | deprecated =>
    refine ⟨nofun, ?_⟩
    rintro ⟨-, -, rfl, hd, -⟩
    cases he.symm.trans hd
  | descriptor d' =>
    simp only [Option.ite_none_right_eq_some, Option.some.injEq, Prod.mk.injEq, acceptsChannels_iff,
      accepts_iff_flags hc']
    constructor
    · rintro ⟨hflags, rfl, rfl⟩
      exact ⟨hc', hm, rfl, he, hflags⟩
    · rintro ⟨-, -, rfl, hd, hflags⟩
      obtain rfl := ModeEntry.descriptor.inj (he.symm.trans hd)
      exact ⟨hflags, rfl, rfl⟩

theorem accepts_of_resolves {cfg : Config} {m : BitVec 16} {c : Nat} {e : BitVec 16} {d : Descriptor}
    (h : Rule.resolves cfg m c e d) : Rule.accepts d c := by
  obtain ⟨hc, -, -, -, hflags⟩ := h
  exact (accepts_iff_flags hc).2 hflags

/-- The causes of R106 are all there are: where none holds, the id and its descriptor resolve. -/
theorem resolveFails_iff {cfg : Config} {m : BitVec 16} {c : Nat} :
    Rule.resolveFails cfg m c ↔ ∀ e d, ¬ Rule.resolves cfg m c e d := by
  unfold Rule.resolveFails Rule.resolves
  constructor
  · rintro (hc | rfl | hu | hd | ⟨d', hd', hflag⟩) e d ⟨hc', hm, rfl, hd'', hflags⟩
    · omega
    · exact hm rfl
    · cases hu.symm.trans hd''
    · cases hd.symm.trans hd''
    · obtain rfl := ModeEntry.descriptor.inj (hd'.symm.trans hd'')
      exact (not_flags_iff d' c).2 hflag hflags
  · intro h
    by_cases hc : c = 1 ∨ c = 3 ∨ c = 4
    · by_cases hm : m = 0xFFFF
      · exact .inr (.inl hm)
      cases he : cfg.entryOf (Rule.effective cfg m) with
      | unassigned => exact .inr (.inr (.inl rfl))
      | deprecated => exact .inr (.inr (.inr (.inl rfl)))
      | descriptor d =>
        have hflag := fun hflags => h _ d ⟨hc, hm, rfl, he, hflags⟩
        exact .inr (.inr (.inr (.inr ⟨d, rfl, (not_flags_iff d c).1 hflag⟩)))
    · exact .inl (by omega)

theorem resolveMode_eq_none_iff {cfg : Config} {m : BitVec 16} {c : Nat} :
    resolveMode cfg m c = none ↔ Rule.resolveFails cfg m c := by
  rw [resolveFails_iff, Option.eq_none_iff_forall_ne_some, Prod.forall]
  exact forall₂_congr fun e d => not_congr resolveMode_eq_some_iff

theorem desc8_toNat (d : Descriptor) : (desc8 d).toNat = Rule.desc8 d := by
  obtain ⟨layout, chroma, storage, color, delta, grayOk, alphaOk⟩ := d
  cases layout <;> cases chroma <;> cases storage <;> cases color <;> cases delta <;> cases grayOk <;>
    cases alphaOk <;> rfl

theorem descWord_eq_descValue (e : BitVec 16) (d : Descriptor) : descWord e d = Rule.descValue e d := by
  rw [Rule.descValue, ← desc8_toNat, ← descWord_toNat, BitVec.ofNat_toNat, BitVec.setWidth_eq]

/-! ## The checks on the registers -/

theorem dimensionsBad_takeSnapshot (s : State) :
    dimensionsBad s.cfg (takeSnapshot s) = true ↔ Rule.dimensionsFail s := dimensionsBad_iff ..

theorem sourceLength_takeSnapshot (op : FrameOp) (d : Descriptor) (s : State) :
    sourceLength op d (takeSnapshot s) = Rule.nIn op d s := by cases op <;> rfl

theorem outputLength_takeSnapshot (op : FrameOp) (d : Descriptor) (s : State) :
    outputLength op d (takeSnapshot s) = Rule.nOut op d s := by cases op <;> rfl

theorem sourceBad_takeSnapshot (op : FrameOp) (d : Descriptor) (s : State) :
    sourceBad op d (takeSnapshot s) = true ↔ Rule.sourceFails op d s := by
  rw [sourceBad_iff, sourceLength_takeSnapshot]
  rfl

theorem placementBad_takeSnapshot (op : FrameOp) (d : Descriptor) (s : State) :
    placementBad s.cfg op d (takeSnapshot s) = true ↔ Rule.placementFails op d s := by
  rw [placementBad_iff, sourceLength_takeSnapshot, outputLength_takeSnapshot]
  rfl

/-! ## What ENCODE and DECODE report -/

theorem exec_commandOf (op : FrameOp) (s : State) :
    exec (Rule.commandOf op) s =
      issue (withResolved (Rule.commandOf op) (startFrame (Rule.commandOf op) op)) s := by
  cases op <;> rfl

theorem errorClearsOutLen_commandOf (op : FrameOp) : errorClearsOutLen (some (Rule.commandOf op)) = true := by
  cases op <;> rfl

/-- An error of ENCODE or DECODE after an accepted issue, with DESC as the resolve step wrote it. -/
theorem raiseError_commandOf {s : State} (hidle : s.status.busy = false) (op : FrameOp) (e : ErrorKind) (w : Word) :
    raiseError (some (Rule.commandOf op)) e { acceptIssue s with desc := w } =
      { s with desc := w, outLen := 0, status := Rule.errorStatus (errorCode e) } := by
  simp [raiseError, errorClearsOutLen_commandOf, acceptIssue, statusError, statusAccepted, hidle, Rule.errorStatus]

theorem exec_commandOf_resolveFails {s : State} (hidle : s.status.busy = false) (op : FrameOp)
    (hr : Rule.resolveFails s.cfg s.mode s.chan.toNat) :
    exec (Rule.commandOf op) s = .next { s with desc := 0, outLen := 0, status := Rule.errorStatus 2 } := by
  rw [exec_commandOf, issue_idle hidle, withResolved_none (s := acceptIssue s) _ _ (resolveMode_eq_none_iff.2 hr),
    raiseError_commandOf hidle]
  rfl

theorem exec_commandOf_frameError {s : State} (hidle : s.status.busy = false) {op : FrameOp} {e : BitVec 16}
    {d : Descriptor} (hr : Rule.resolves s.cfg s.mode s.chan.toNat e d) {k : ErrorKind}
    (hk : frameError s.cfg op d (takeSnapshot s) = some k) :
    exec (Rule.commandOf op) s =
      .next { s with desc := Rule.descValue e d, outLen := 0, status := Rule.errorStatus (errorCode k) } := by
  rw [exec_commandOf, issue_idle hidle, withResolved_some (s := acceptIssue s) _ _ (resolveMode_eq_some_iff.2 hr),
    startFrame_error (s := { acceptIssue s with desc := descWord e d }) _ hk, raiseError_commandOf hidle,
    descWord_eq_descValue]

/-- Settles O43: `frameError` takes the checks of R138 in their order, and the error it gives is raised with DESC
written. -/
theorem frameCommandReportsTheFirstFailingCheck : Obligations.FrameCommandReportsTheFirstFailingCheck := by
  unfold Obligations.FrameCommandReportsTheFirstFailingCheck
  intro op s hidle
  refine ⟨exec_commandOf_resolveFails hidle op, fun e d hr => ?_⟩
  rw [← dimensionsBad_takeSnapshot, ← sourceBad_takeSnapshot, ← placementBad_takeSnapshot, Bool.not_eq_true,
    Bool.not_eq_true]
  exact ⟨fun hdim => exec_commandOf_frameError hidle hr (frameError_dimensions hdim),
    fun hdim hsrc => exec_commandOf_frameError hidle hr (frameError_source hdim hsrc),
    fun hdim hsrc hplace => exec_commandOf_frameError hidle hr (frameError_placement hdim hsrc hplace)⟩

end Sys2Proof.Machine
end

section
/-! PROOFS. The invariant of every step (10_state.md R20 and R25, 60_exceptions.md R135 and R138): what a pending
command writes has the length its checks allowed, and every event keeps `State.Inv`. -/

namespace Sys2Proof.Machine

/-! ## What a pending command writes -/

theorem encodeImage_length (cfg : Config) (d : Descriptor) (c w h : Nat) (img : Nat → Nat → Nat → Byte) :
    (encodeImage cfg d c w h img).length = computeLength d c w h := by
  have planes : ((planesEnc cfg d c w h img).flatMap (planeStream d (scansColumns d w h))).length =
      ((planeSizes d c w h).map (planeLen d (scansColumns d w h))).sum := by
    rw [List.length_flatMap, ← planesEnc_sizes cfg d c w h img, List.map_map]
    exact congrArg List.sum (List.map_congr_left fun P _ => planeStream_length d _ P)
  unfold encodeImage computeLength
  cases d.layout with
  | row =>
    refine (flatMap_length_const _ _ (rowLen d c w) fun y _ => rowStreamAt_length d c w _ y).trans ?_
    rw [List.length_range]
  | planar => exact planes
  | adaptive => exact planes

theorem decodeImage_length {d : Descriptor} {c : Nat} (hc : acceptsChannels d c = true) (w h : Nat)
    (bytes : List Byte) : (decodeImage d c w h bytes).length = w * h * c := by
  unfold decodeImage pixelsDec
  rw [flatMap_length_const _ _ (w * c), List.length_range, Nat.mul_left_comm, Nat.mul_assoc]
  intro y _
  rw [flatMap_length_const _ _ c fun x _ => pixelDec_length hc _ _ _ x y, List.length_range]

theorem Pending.Ok.acceptsChannels {cfg : Config} {p : Pending} (h : Pending.Ok cfg p) :
    Machine.acceptsChannels p.desc p.snap.chan.toNat = true := by
  obtain ⟨hres, -, -⟩ := h
  obtain ⟨⟨e, d⟩, hr, hd⟩ := Option.map_eq_some_iff.1 hres
  exact hd ▸ (acceptsChannels_iff d _).2 (accepts_of_resolves (resolveMode_eq_some_iff.1 hr))

/-- The completion step writes n_out bytes (R131). -/
theorem frameBytes_length {cfg : Config} {p : Pending} (h : Pending.Ok cfg p) (buf : Memory) :
    (frameBytes cfg buf p).length = outputLength p.op p.desc p.snap := by
  unfold frameBytes outputLength
  cases p.op with
  | encode => exact encodeImage_length ..
  | decode => exact decodeImage_length h.acceptsChannels ..

/-- The destination write range lies inside BUF (R138, step 4). -/
theorem Pending.Ok.destination_le {cfg : Config} {p : Pending} (h : Pending.Ok cfg p) :
    p.snap.dstAddr.toNat + outputLength p.op p.desc p.snap ≤ cfg.bufSize := by
  obtain ⟨-, hchecks, -⟩ := h
  obtain ⟨-, -, hplace⟩ := (frameError_none_iff ..).1 hchecks
  by_contra hlt
  have hbad := (placementBad_iff cfg p.op p.desc p.snap).2 (.inr (.inr (.inl (Nat.not_le.1 hlt))))
  rw [hplace] at hbad
  cases hbad

/-! ## BUF and STATUS -/

/-- Bytes stored below BUF_SIZE keep BUF's form. -/
theorem State.BufOk.writeBytes {s : State} (h : s.BufOk) {a : Nat} {bs : List Byte}
    (hle : a + bs.length ≤ s.cfg.bufSize) : State.BufOk { s with buf := Machine.writeBytes s.buf a bs } := by
  obtain ⟨hwf, hlt⟩ := h
  refine ⟨writeBytes_wf bs hwf a, fun cell hc => ?_⟩
  obtain hin | ⟨old, hold, heq⟩ := writeBytes_addresses bs s.buf a cell hc
  · exact hin.2.trans_le hle
  · exact heq ▸ hlt old hold

theorem State.BufOk.bufAfterReset {s : State} (h : s.BufOk) (hp : s.PendOk) :
    State.BufOk { s with buf := Machine.bufAfterReset s } := by
  unfold Machine.bufAfterReset abandonedLength
  cases hpend : s.pend with
  | none => exact h
  | some p => exact h.writeBytes ((freeBytes_length ..).symm ▸ (hp p hpend).destination_le)

theorem Status.Ok.reset : Status.Ok Status.reset := by decide

theorem Status.Ok.accepted (st : Status) : Status.Ok (statusAccepted st) :=
  ⟨by simp, fun _ => rfl, by simp, fun _ => rfl⟩

theorem Status.Ok.completed : Status.Ok (statusDone Status.reset) := by decide

theorem Status.Ok.started : Status.Ok (statusStarted Status.reset) := by decide

theorem Status.Ok.dropped {st : Status} (h : Status.Ok st) : Status.Ok (statusDropped st) := h

theorem Status.Ok.finished {st : Status} (h : Status.Ok st) : Status.Ok (statusFinished st) := by
  obtain ⟨herr, -, hcode, -⟩ := h
  exact ⟨herr, nofun, hcode, nofun⟩

theorem Status.Ok.error (e : ErrorKind) : Status.Ok (statusError (errorCode e) Status.reset) := by
  cases e <;> decide

theorem acceptIssue_status_idle {s : State} (h : s.status.busy = false) :
    (acceptIssue s).status = Status.reset := by
  rw [acceptIssue_status, statusAccepted, h]
  rfl

/-! ## The commands -/

/-- The invariant speaks of the configuration, STATUS, PEND and BUF only. -/
theorem State.Inv.of_eq {s t : State} (h : s.Inv) (hcfg : t.cfg = s.cfg) (hstatus : t.status = s.status)
    (hpend : t.pend = s.pend) (hbuf : t.buf = s.buf) : t.Inv := by
  obtain ⟨icfg, ibuf, istatus, ibusy, ipend⟩ := h
  refine ⟨hcfg ▸ icfg, ?_, hstatus ▸ istatus, hstatus ▸ hpend ▸ ibusy, ?_⟩
  · rw [State.BufOk, hcfg, hbuf]
    exact ibuf
  · rw [State.PendOk, hcfg, hpend]
    exact ipend

/-- A new STATUS with the same BUSY keeps the invariant. -/
theorem State.Inv.withStatus {s : State} (h : s.Inv) {st : Status} (hok : Status.Ok st)
    (hbusy : st.busy = s.status.busy) : State.Inv { s with status := st } :=
  ⟨h.cfg, h.buf, hok, hbusy.trans h.busy, h.pend⟩

theorem State.Inv.dropIssue {s : State} (h : s.Inv) : (Machine.dropIssue s).Inv :=
  h.withStatus h.status.dropped rfl

theorem State.Inv.acceptIssue {s : State} (h : s.Inv) : (Machine.acceptIssue s).Inv :=
  h.withStatus (Status.Ok.accepted _) rfl

theorem State.Inv.completeIssue {s : State} (h : s.Inv) (hst : s.status = Status.reset) :
    (Machine.completeIssue s).Inv :=
  h.withStatus (hst ▸ Status.Ok.completed) rfl

theorem State.Inv.raiseError {s : State} (h : s.Inv) (hst : s.status = Status.reset) (cmd : Option Instr)
    (e : ErrorKind) : (Machine.raiseError cmd e s).Inv :=
  (h.withStatus (st := statusError (errorCode e) s.status) (by rw [hst]; exact .error e) rfl).of_eq rfl rfl rfl rfl

/-- A command keeps the invariant when what it performs does, from an accepted issue on. -/
theorem issue_next_inv {f : State → State} (hf : ∀ u, u.Inv → u.status = Status.reset → (f u).Inv) {s t : State}
    (hs : s.Inv) (h : issue f s = .next t) : t.Inv := by
  obtain ⟨-, ht⟩ | ⟨hidle, ht⟩ := issue_cases h
  · injection ht with ht
    exact ht ▸ hs.dropIssue
  · injection ht with ht
    exact ht ▸ hf _ hs.acceptIssue (acceptIssue_status_idle hidle)

theorem primitive_next_inv {f : Word → Word → Word} {s t : State} (hs : s.Inv) (h : primitive f s = .next t) :
    t.Inv := by
  refine issue_next_inv (fun u hu hst => ?_) hs h
  exact State.Inv.completeIssue (hu.of_eq rfl rfl rfl rfl) hst

/-- After the resolve step the descriptor is what MODE and CHAN resolve to (R138, step 1). -/
theorem withResolved_inv {cmd : Instr} {proceed : Descriptor → State → State}
    (hp : ∀ d u, u.Inv → u.status = Status.reset →
      (resolveMode u.cfg u.mode u.chan.toNat).map Prod.snd = some d → (proceed d u).Inv)
    {s : State} (hs : s.Inv) (hst : s.status = Status.reset) : (withResolved cmd proceed s).Inv := by
  have hdesc : ∀ w, State.Inv { s with desc := w } := fun w => hs.of_eq rfl rfl rfl rfl
  cases hr : resolveMode s.cfg s.mode s.chan.toNat with
  | none =>
    rw [withResolved_none cmd proceed hr]
    exact (hdesc 0).raiseError hst _ _
  | some r =>
    rw [withResolved_some cmd proceed hr]
    exact hp r.2 _ (hdesc _) hst (congrArg (Option.map Prod.snd) hr)

theorem performClen_inv (d : Descriptor) {s : State} (hs : s.Inv) (hst : s.status = Status.reset) :
    (performClen d s).Inv := by
  cases hd : dimensionsBad s.cfg (takeSnapshot s) with
  | true =>
    rw [performClen_error hd]
    exact hs.raiseError hst _ _
  | false =>
    rw [performClen_ok hd]
    exact State.Inv.completeIssue (hs.of_eq rfl rfl rfl rfl) hst

/-- The pending record of a started command passed every check of R138. -/
theorem startFrame_inv {cmd : Instr} {op : FrameOp} {d : Descriptor} {s : State} (hs : s.Inv)
    (hst : s.status = Status.reset) (hd : (resolveMode s.cfg s.mode s.chan.toNat).map Prod.snd = some d) :
    (startFrame cmd op d s).Inv := by
  cases he : frameError s.cfg op d (takeSnapshot s) with
  | some e =>
    rw [startFrame_error cmd he]
    exact hs.raiseError hst _ _
  | none =>
    rw [startFrame_ok cmd he]
    refine ⟨hs.cfg, hs.buf, hst ▸ Status.Ok.started, rfl, fun p hp => ?_⟩
    obtain rfl := Option.some.inj hp
    exact ⟨hd, he, rfl⟩

theorem exec_next_inv {i : Instr} {s t : State} (hs : s.Inv) (h : exec i s = .next t) : t.Inv := by
  have frame {cmd : Instr} {op : FrameOp} {u : State} (hu : u.Inv) (hst : u.status = Status.reset) :
      (withResolved cmd (startFrame cmd op) u).Inv :=
    withResolved_inv (fun _ _ => startFrame_inv) hu hst
  obtain hi | rfl | rfl | rfl | rfl := isPrimitive_or i
  · obtain ⟨f, hf⟩ := exec_of_isPrimitive hi s
    exact primitive_next_inv hs (hf.symm.trans h)
  · exact issue_next_inv (fun _ => withResolved_inv fun _ _ hu hst _ => hu.completeIssue hst) hs h
  · exact issue_next_inv (fun _ => withResolved_inv fun d _ hu hst _ => performClen_inv d hu hst) hs h
  · exact issue_next_inv (fun _ => frame) hs h
  · exact issue_next_inv (fun _ => frame) hs h

/-! ## The boundary -/

theorem issueWord_next_inv {v : Word} {s t : State} (hs : s.Inv) (h : issueWord v s = .next t) : t.Inv := by
  obtain ⟨i, -, hi⟩ | hbad := issueWord_cases h
  · exact exec_next_inv hs hi
  · exact issue_next_inv (fun _ hu hst => hu.raiseError hst _ _) hs hbad

theorem sequencerTurn_inv {s : State} (hs : s.Inv) : (sequencerTurn s).Inv := by
  cases hpend : s.pend with
  | none => rwa [sequencerTurn_none hpend]
  | some p =>
    have hp := hs.pend p hpend
    rw [sequencerTurn_some hpend]
    exact ⟨hs.cfg, hs.buf.writeBytes ((frameBytes_length hp s.buf).symm ▸ hp.destination_le), hs.status.finished,
      rfl, nofun⟩

theorem applyReset_inv {s : State} (hs : s.Inv) : (applyReset s).Inv :=
  ⟨hs.cfg, hs.buf.bufAfterReset hs.pend, Status.Ok.reset, rfl, nofun⟩

theorem hostRegWrite_next_inv {offset : Byte} {size : Nat} {v : Word} {s t : State} (hs : s.Inv)
    (h : hostRegWrite offset size v s = .next t) : t.Inv := by
  obtain ⟨-, ⟨-, hc⟩ | ⟨r, -, -, rfl⟩ | ⟨-, rfl⟩⟩ := hostRegWrite_next h
  · exact issueWord_next_inv hs hc
  · obtain ⟨hcfg, hstatus, -, -, -, hpend, hbuf, -⟩ := writeReg_frame r v s
    exact hs.of_eq hcfg hstatus hpend hbuf
  · exact hs

theorem performEvent_next_inv {e : Event} {s t : State} (hs : s.Inv) (h : performEvent e s = .next t) : t.Inv := by
  cases e with
  | regWrite offset size v => exact hostRegWrite_next_inv hs h
  | regRead offset size =>
    obtain ⟨-, w, rfl⟩ := hostRegRead_next h
    exact hs.of_eq rfl rfl rfl rfl
  | bufWrite a v =>
    obtain ⟨ha, -, rfl⟩ := hostBufWrite_next h
    exact ⟨hs.cfg, hs.buf.writeBytes (bs := [v]) ha, hs.status, hs.busy, hs.pend⟩
  | bufRead a =>
    obtain ⟨-, ⟨-, rfl⟩ | ⟨-, rfl⟩⟩ := hostBufRead_next h <;> exact hs.of_eq rfl rfl rfl rfl
  | sequencer =>
    injection h with h
    exact h ▸ sequencerTurn_inv hs
  | reset =>
    injection h with h
    exact h ▸ applyReset_inv hs

/-- Settles O55: each event keeps `State.Inv`. An issue sets BUSY only together with a pending record that passed the
checks, and those checks keep the bytes of a completion or of a reset inside BUF. -/
theorem everyStepKeepsTheInvariant : Obligations.EveryStepKeepsTheInvariant := by
  unfold Obligations.EveryStepKeepsTheInvariant
  intro s t hs h
  obtain ⟨-, ⟨-, rfl⟩ | ⟨e, rest, -, he⟩⟩ := step_next h
  · exact sequencerTurn_inv hs
  · exact performEvent_next_inv (s := { s with inputs := rest }) (hs.of_eq rfl rfl rfl rfl) he

/-- Settles O54: no byte of BUF is listed, STATUS is 0 and nothing is pending. -/
theorem resetStateMeetsTheInvariant : Obligations.ResetStateMeetsTheInvariant :=
  ⟨by decide, ⟨reset_buf_wf, nofun⟩, Status.Ok.reset, rfl, nofun⟩

end Sys2Proof.Machine
end

section
/-! PROOFS. The writers of the result registers (10_state.md R22, R23, R24): RES, DESC and OUT_LEN. -/

namespace Sys2Proof.Machine

/-- RES, DESC and OUT_LEN are as they were. -/
def SameResults (s t : State) : Prop := t.res = s.res ∧ t.desc = s.desc ∧ t.outLen = s.outLen

/-! ## The commands -/

/-- What neither STATUS is a part of nor the command changes, its issue leaves alone. -/
theorem issue_next_unchanged {α : Type} {π : State → α} (hstatus : ∀ u st, π { u with status := st } = π u)
    {f : State → State} (hf : ∀ u, π (f u) = π u) {s t : State} (h : issue f s = .next t) : π t = π s := by
  obtain ⟨-, ht⟩ | ⟨-, ht⟩ := issue_cases h
  · injection ht with ht
    rw [ht]
    exact hstatus s _
  · injection ht with ht
    rw [ht, hf]
    exact hstatus s _

theorem primitive_next_desc_outLen {f : Word → Word → Word} {s t : State} (h : primitive f s = .next t) :
    t.desc = s.desc ∧ t.outLen = s.outLen := by
  refine ⟨issue_next_unchanged (fun _ _ => rfl) (fun u => ?_) h,
    issue_next_unchanged (fun _ _ => rfl) (fun u => ?_) h⟩
  · exact completeIssue_desc _
  · exact completeIssue_outLen _

theorem withResolved_res {cmd : Instr} {proceed : Descriptor → State → State}
    (hp : ∀ d u, (proceed d u).res = u.res) (s : State) : (withResolved cmd proceed s).res = s.res := by
  cases hr : resolveMode s.cfg s.mode s.chan.toNat with
  | none => rw [withResolved_none cmd proceed hr, raiseError_res]
  | some r => rw [withResolved_some cmd proceed hr, hp]

theorem performClen_res (d : Descriptor) (s : State) : (performClen d s).res = s.res := by
  cases hd : dimensionsBad s.cfg (takeSnapshot s) with
  | true => rw [performClen_error hd, raiseError_res]
  | false => rw [performClen_ok hd, completeIssue_res]

theorem startFrame_res (cmd : Instr) (op : FrameOp) (d : Descriptor) (s : State) :
    (startFrame cmd op d s).res = s.res := by
  cases he : frameError s.cfg op d (takeSnapshot s) with
  | some e => rw [startFrame_error cmd he, raiseError_res]
  | none => rw [startFrame_ok cmd he]

theorem exec_next_res {i : Instr} (hi : i = .resolve ∨ i = .clen ∨ i = .encode ∨ i = .decode) {s t : State}
    (h : exec i s = .next t) : t.res = s.res := by
  obtain rfl | rfl | rfl | rfl := hi
  · exact issue_next_unchanged (fun _ _ => rfl) (withResolved_res fun _ => completeIssue_res) h
  · exact issue_next_unchanged (fun _ _ => rfl) (withResolved_res performClen_res) h
  · exact issue_next_unchanged (fun _ _ => rfl) (withResolved_res (startFrame_res .encode .encode)) h
  · exact issue_next_unchanged (fun _ _ => rfl) (withResolved_res (startFrame_res .decode .decode)) h

/-- RESOLVE writes no OUT_LEN, also where it fails (R137). -/
theorem execResolve_next_outLen {s t : State} (h : execResolve s = .next t) : t.outLen = s.outLen := by
  refine issue_next_unchanged (π := State.outLen) (fun _ _ => rfl) (fun u => ?_) h
  cases hr : resolveMode u.cfg u.mode u.chan.toNat with
  | none =>
    rw [withResolved_none _ _ hr]
    rfl
  | some r =>
    rw [withResolved_some _ _ hr]
    rfl

theorem exec_busy {s : State} (h : s.status.busy = true) (i : Instr) : exec i s = .next (dropIssue s) := by
  obtain hi | rfl | rfl | rfl | rfl := isPrimitive_or i
  · obtain ⟨f, hf⟩ := exec_of_isPrimitive hi s
    exact hf.trans (primitive_busy h f)
  all_goals exact issue_busy h _

/-! ## The events -/

/-- A write to CMD changes a result register only as an accepted command. -/
theorem issueWord_next_results {v : Word} {s t : State} (h : issueWord v s = .next t) :
    SameResults s t ∨ s.status.busy = false ∧ ∃ i, Sys2Proof.decode v = .ok i ∧ exec i s = .next t := by
  obtain ⟨i, hv, hi⟩ | hbad := issueWord_cases h
  · cases hb : s.status.busy with
    | false => exact .inr ⟨rfl, i, hv, hi⟩
    | true =>
      rw [exec_busy hb] at hi
      injection hi with hi
      exact .inl (hi ▸ ⟨rfl, rfl, rfl⟩)
  · exact .inl ⟨issue_next_unchanged (fun _ _ => rfl) (raiseError_res _ _) hbad,
      issue_next_unchanged (fun _ _ => rfl) (raiseError_desc _ _) hbad,
      issue_next_unchanged (fun _ _ => rfl) (raiseError_outLen _ _) hbad⟩

theorem sequencerTurn_results (s : State) :
    SameResults s (sequencerTurn s) ∨ s.pend.isSome ∧ (sequencerTurn s).pend = none ∧
      (sequencerTurn s).res = s.res ∧ (sequencerTurn s).desc = s.desc := by
  cases hp : s.pend with
  | none => exact .inl (by rw [sequencerTurn_none hp]; exact ⟨rfl, rfl, rfl⟩)
  | some p => exact .inr (by rw [sequencerTurn_some hp]; exact ⟨rfl, rfl, rfl, rfl⟩)

/-- Who can change a result register: reset, an accepted command, or a completion, which leaves RES and DESC alone. -/
theorem performEvent_next_results {e : Event} {s t : State} (h : performEvent e s = .next t) :
    SameResults s t ∨ e = .reset ∨ (s.pend.isSome ∧ t.pend = none ∧ t.res = s.res ∧ t.desc = s.desc) ∨
      s.status.busy = false ∧ ∃ v i, e = Rule.commandWrite v ∧ Sys2Proof.decode v = .ok i ∧ exec i s = .next t := by
  cases e with
  | regWrite offset size v =>
    obtain ⟨ha, ⟨hr, hc⟩ | ⟨r, -, -, rfl⟩ | ⟨-, rfl⟩⟩ := hostRegWrite_next h
    · obtain ⟨rfl, -⟩ := (alignedWordAccess_iff offset size).1 ha
      obtain rfl := eq_offsetOf_of_regAt hr
      obtain hsame | ⟨hidle, i, hv, hi⟩ := issueWord_next_results hc
      · exact .inl hsame
      · exact .inr (.inr (.inr ⟨hidle, v, i, rfl, hv, hi⟩))
    · obtain ⟨-, -, hres, hout, hdesc, -⟩ := writeReg_frame r v s
      exact .inl ⟨hres, hdesc, hout⟩
    · exact .inl ⟨rfl, rfl, rfl⟩
  | regRead offset size =>
    obtain ⟨-, w, rfl⟩ := hostRegRead_next h
    exact .inl ⟨rfl, rfl, rfl⟩
  | bufWrite a v =>
    obtain ⟨-, -, rfl⟩ := hostBufWrite_next h
    exact .inl ⟨rfl, rfl, rfl⟩
  | bufRead a =>
    obtain ⟨-, ⟨-, rfl⟩ | ⟨-, rfl⟩⟩ := hostBufRead_next h <;> exact .inl ⟨rfl, rfl, rfl⟩
  | sequencer =>
    injection h with h
    obtain hsame | hdone := sequencerTurn_results s
    · exact .inl (h ▸ hsame)
    · exact .inr (.inr (.inl (h ▸ hdone)))
  | reset => exact .inr (.inl rfl)

/-! ## A step -/

theorem step_next_results {s t : State} (h : step s = .next t) :
    SameResults s t ∨ (∃ rest, s.inputs = .reset :: rest) ∨
      (s.pend.isSome ∧ t.pend = none ∧ t.res = s.res ∧ t.desc = s.desc) ∨
      s.status.busy = false ∧ ∃ v i rest, s.inputs = Rule.commandWrite v :: rest ∧ Sys2Proof.decode v = .ok i ∧
        exec i { s with inputs := rest } = .next t := by
  obtain ⟨-, ⟨-, rfl⟩ | ⟨e, rest, hin, he⟩⟩ := step_next h
  · exact (sequencerTurn_results s).imp_right fun hdone => .inr (.inl hdone)
  · obtain hsame | rfl | hdone | ⟨hidle, v, i, rfl, hv, hi⟩ := performEvent_next_results he
    · exact .inl hsame
    · exact .inr (.inl ⟨rest, hin⟩)
    · exact .inr (.inr (.inl hdone))
    · exact .inr (.inr (.inr ⟨hidle, v, i, rest, hin, hv, hi⟩))

/-- Settles O56: by `step_next_results` only reset, a completion and an accepted command are left, and of the commands
the primitives keep DESC and OUT_LEN, the frame commands RES, and RESOLVE also OUT_LEN. -/
theorem resultRegistersHaveTheirWriters : Obligations.ResultRegistersHaveTheirWriters := by
  unfold Obligations.ResultRegistersHaveTheirWriters
  intro s t h accepted isReset
  obtain ⟨hres, hdesc, hout⟩ | hreset | ⟨hpend, hnone, hres, hdesc⟩ | ⟨hidle, v, i, rest, hin, hv, hi⟩ :=
    step_next_results h
  · exact ⟨fun hne => absurd hres hne, fun hne => absurd hdesc hne, fun hne => absurd hout hne⟩
  · exact ⟨fun _ => .inl hreset, fun _ => .inl hreset, fun _ => .inl hreset⟩
  · exact ⟨fun hne => absurd hres hne, fun hne => absurd hdesc hne,
      fun _ => .inr (.inr (.inr (.inr ⟨hpend, hnone⟩)))⟩
  · have hacc : accepted i := ⟨hidle, v, rest, hin, hv⟩
    obtain hprim | hframe := isPrimitive_or i
    · obtain ⟨f, hf⟩ := exec_of_isPrimitive hprim { s with inputs := rest }
      obtain ⟨hdesc, hout⟩ := primitive_next_desc_outLen (hf.symm.trans hi)
      exact ⟨fun _ => .inr ⟨i, hacc, hprim⟩, fun hne => absurd hdesc hne, fun hne => absurd hout hne⟩
    · refine ⟨fun hne => absurd (exec_next_res hframe hi) hne, fun _ => .inr ?_, fun hne => ?_⟩
      · obtain rfl | rfl | rfl | rfl := hframe <;> simp only [hacc, true_or, or_true]
      · obtain rfl | hout := hframe
        · exact absurd (execResolve_next_outLen hi) hne
        · obtain rfl | rfl | rfl := hout <;> simp only [hacc, true_or, or_true]

end Sys2Proof.Machine
end

section
/-! PROOFS. BUF at the boundary (20_memory.md R33, R42, R48, R49): what a host access to a byte does, and what may
change a byte. -/

namespace Sys2Proof.Machine

/-! ## The ranges of a pending command (R127) -/

theorem inSourceRange_iff (p : Pending) (a : Nat) :
    Rule.inSourceRange p a ↔
      p.snap.srcAddr.toNat ≤ a ∧ a < p.snap.srcAddr.toNat + sourceLength p.op p.desc p.snap := by
  unfold Rule.inSourceRange
  cases p.op <;> rfl

theorem inDestinationRange_iff (p : Pending) (a : Nat) :
    Rule.inDestinationRange p a ↔
      p.snap.dstAddr.toNat ≤ a ∧ a < p.snap.dstAddr.toNat + outputLength p.op p.desc p.snap := by
  unfold Rule.inDestinationRange
  cases p.op <;> rfl

theorem inSource_iff (p : Pending) (a : Nat) : inSource p a = true ↔ Rule.inSourceRange p a :=
  (inRange_iff ..).trans (inSourceRange_iff p a).symm

theorem inDestination_iff (p : Pending) (a : Nat) : inDestination p a = true ↔ Rule.inDestinationRange p a :=
  (inRange_iff ..).trans (inDestinationRange_iff p a).symm

theorem ownedByPending_iff (pend : Option Pending) (a : Nat) :
    ownedByPending pend a = true ↔
      ∃ p, pend = some p ∧ (Rule.inSourceRange p a ∨ Rule.inDestinationRange p a) := by
  cases pend <;> simp [ownedByPending, inSource_iff, inDestination_iff]

theorem unspecifiedByte_iff (pend : Option Pending) (a : Nat) :
    unspecifiedByte pend a = true ↔ ∃ p, pend = some p ∧ Rule.inDestinationRange p a := by
  cases pend <;> simp [unspecifiedByte, inDestination_iff]

/-- As many bytes as a pending command writes, stored at its destination, leave every byte outside that range alone. -/
theorem readByte_writeBytes_destination {m : Memory} (hm : Memory.wf m) {p : Pending} {bs : List Byte}
    (hlen : bs.length = outputLength p.op p.desc p.snap) {a : Nat} (ha : ¬ Rule.inDestinationRange p a) :
    readByte (writeBytes m p.snap.dstAddr.toNat bs) a = readByte m a := by
  rw [inDestinationRange_iff, ← hlen] at ha
  rw [readByte_writeBytes bs hm, if_neg ha]

/-! ## Host reads -/

section Read
variable {a : Nat} {s : State}

theorem hostBufRead_outside (h : s.cfg.bufSize ≤ a) : hostBufRead a s = .fault (.noSuchBufferAddress a) := by
  simp [hostBufRead, h]

theorem hostBufRead_unspecified (h : a < s.cfg.bufSize) (hu : unspecifiedByte s.pend a = true) :
    hostBufRead a s = .next { s with readData := resByte (Config.freeByte s.draws), draws := s.draws + 1 } := by
  simp [hostBufRead, Nat.not_le.2 h, hu]

theorem hostBufRead_stored (h : a < s.cfg.bufSize) (hu : unspecifiedByte s.pend a = false) :
    hostBufRead a s = .next { s with readData := resByte (readByte s.buf a) } := by
  simp [hostBufRead, Nat.not_le.2 h, hu]

end Read

/-! ## Steps on an access to BUF -/

/-- Settles O48: the model's test of ownership is membership in one of the two ranges, and the byte stored follows the
read-after-write law. -/
theorem hostWriteToAPendingRangeFaults : Obligations.HostWriteToAPendingRangeFaults := by
  unfold Obligations.HostWriteToAPendingRangeFaults
  intro s a v rest hl hwf hi ha
  refine ⟨fun p hp hin => ?_, fun hout => ?_⟩
  · have howned := (ownedByPending_iff s.pend a).2 ⟨p, hp, hin⟩
    exact (step_event hl hi).trans (hostBufWrite_owned ha howned)
  · have hfree : ownedByPending s.pend a = false := by
      rw [Bool.eq_false_iff, Ne, ownedByPending_iff]
      rintro ⟨p, hp, hin⟩
      exact not_or.2 (hout p hp) hin
    refine ⟨_, (step_event hl hi).trans (hostBufWrite_free ha hfree), rfl, ?_, fun b hb => ?_⟩
    · exact (readByte_writeByte hwf a v a).trans (if_pos rfl)
    · exact (readByte_writeByte hwf a v b).trans (if_neg hb)

/-- Settles O49: the model's test for an unspecified byte is membership in the destination range. -/
theorem hostReadOfAPendingDestinationIsAFreeValue : Obligations.HostReadOfAPendingDestinationIsAFreeValue := by
  unfold Obligations.HostReadOfAPendingDestinationIsAFreeValue
  intro s a rest hl hi ha
  simp only [BitVec.ofNat_toNat]
  refine ⟨fun p hp hin => ?_, fun hout => ?_⟩
  · have hfree := (unspecifiedByte_iff s.pend a).2 ⟨p, hp, hin⟩
    exact (step_event hl hi).trans (hostBufRead_unspecified ha hfree)
  · have hstored : unspecifiedByte s.pend a = false := by
      rw [Bool.eq_false_iff, Ne, unspecifiedByte_iff]
      rintro ⟨p, hp, hin⟩
      exact hout p hp hin
    exact (step_event hl hi).trans (hostBufRead_stored ha hstored)

/-- Settles O50: both accesses compare the address with BUF_SIZE before anything else. -/
theorem hostAccessOutsideBufFaults : Obligations.HostAccessOutsideBufFaults := by
  unfold Obligations.HostAccessOutsideBufFaults
  intro s a v rest hl ha
  exact ⟨fun hi => (step_event hl hi).trans (hostBufWrite_outside ha),
    fun hi => (step_event hl hi).trans (hostBufRead_outside ha)⟩

/-! ## The frame of a command -/

/-- The state without the fields that the issue of a command may write: STATUS, RES, OUT_LEN, DESC and PEND (R57, R128
to R130, R137). -/
def commandFrame (s : State) : State :=
  { s with status := Status.reset, res := 0, outLen := 0, desc := 0, pend := none }

theorem buf_of_commandFrame {s t : State} (h : commandFrame t = commandFrame s) : t.buf = s.buf :=
  (congrArg State.buf h :)

@[simp] theorem completeIssue_commandFrame (s : State) : commandFrame (completeIssue s) = commandFrame s := rfl

@[simp] theorem raiseError_commandFrame (cmd : Option Instr) (e : ErrorKind) (s : State) :
    commandFrame (raiseError cmd e s) = commandFrame s := rfl

theorem withResolved_commandFrame {cmd : Instr} {proceed : Descriptor → State → State}
    (hp : ∀ d u, commandFrame (proceed d u) = commandFrame u) (s : State) :
    commandFrame (withResolved cmd proceed s) = commandFrame s := by
  cases hr : resolveMode s.cfg s.mode s.chan.toNat with
  | none => rw [withResolved_none cmd proceed hr, raiseError_commandFrame]; rfl
  | some r => rw [withResolved_some cmd proceed hr, hp]; rfl

theorem performClen_commandFrame (d : Descriptor) (s : State) : commandFrame (performClen d s) = commandFrame s := by
  cases hd : dimensionsBad s.cfg (takeSnapshot s) with
  | true => rw [performClen_error hd, raiseError_commandFrame]
  | false => rw [performClen_ok hd, completeIssue_commandFrame]; rfl

theorem startFrame_commandFrame (cmd : Instr) (op : FrameOp) (d : Descriptor) (s : State) :
    commandFrame (startFrame cmd op d s) = commandFrame s := by
  cases he : frameError s.cfg op d (takeSnapshot s) with
  | some e => rw [startFrame_error cmd he, raiseError_commandFrame]
  | none => rw [startFrame_ok cmd he]; rfl

theorem issue_next_commandFrame {f : State → State} (hf : ∀ u, commandFrame (f u) = commandFrame u) {s t : State}
    (h : issue f s = .next t) : commandFrame t = commandFrame s :=
  issue_next_unchanged (fun _ _ => rfl) hf h

theorem primitive_next_commandFrame {f : Word → Word → Word} {s t : State} (h : primitive f s = .next t) :
    commandFrame t = commandFrame s := by
  refine issue_next_commandFrame (fun u => ?_) h
  exact completeIssue_commandFrame _

theorem exec_next_commandFrame {i : Instr} {s t : State} (h : exec i s = .next t) :
    commandFrame t = commandFrame s := by
  obtain hi | rfl | rfl | rfl | rfl := isPrimitive_or i
  · obtain ⟨f, hf⟩ := exec_of_isPrimitive hi s
    exact primitive_next_commandFrame (hf.symm.trans h)
  · exact issue_next_commandFrame (withResolved_commandFrame fun _ => completeIssue_commandFrame) h
  · exact issue_next_commandFrame (withResolved_commandFrame performClen_commandFrame) h
  · exact issue_next_commandFrame (withResolved_commandFrame (startFrame_commandFrame .encode .encode)) h
  · exact issue_next_commandFrame (withResolved_commandFrame (startFrame_commandFrame .decode .decode)) h

/-- A write to CMD, whatever the word, writes no field but those of `commandFrame`. -/
theorem issueWord_next_commandFrame {v : Word} {s t : State} (h : issueWord v s = .next t) :
    commandFrame t = commandFrame s := by
  obtain ⟨i, -, hi⟩ | hbad := issueWord_cases h
  · exact exec_next_commandFrame hi
  · exact issue_next_commandFrame (raiseError_commandFrame none .illegalCommand) hbad

/-! ## What may change a byte of BUF -/

theorem hostRegWrite_next_buf {offset : Byte} {size : Nat} {v : Word} {s t : State}
    (h : hostRegWrite offset size v s = .next t) : t.buf = s.buf := by
  obtain ⟨-, ⟨-, hc⟩ | ⟨r, -, -, rfl⟩ | ⟨-, rfl⟩⟩ := hostRegWrite_next h
  · exact buf_of_commandFrame (issueWord_next_commandFrame hc)
  · obtain ⟨-, -, -, -, -, -, hbuf, -⟩ := writeReg_frame r v s
    exact hbuf
  · rfl

/-- A turn of the sequencer changes a byte only as the completion of the command whose destination holds it (R131). -/
theorem sequencerTurn_changes {s : State} (hs : s.Inv) {a : Nat}
    (hne : readByte (sequencerTurn s).buf a ≠ readByte s.buf a) :
    ∃ p, s.pend = some p ∧ (sequencerTurn s).pend = none ∧ Rule.inDestinationRange p a := by
  cases hp : s.pend with
  | none => exact absurd (by rw [sequencerTurn_none hp]) hne
  | some p =>
    rw [sequencerTurn_some hp] at hne ⊢
    refine ⟨p, rfl, rfl, by_contra fun ha => hne ?_⟩
    exact readByte_writeBytes_destination hs.buf.1 (frameBytes_length (hs.pend p hp) s.buf) ha

/-- Reset changes a byte only as the abandonment of the command whose destination holds it (R153). -/
theorem applyReset_changes {s : State} (hwf : Memory.wf s.buf) {a : Nat}
    (hne : readByte (applyReset s).buf a ≠ readByte s.buf a) :
    ∃ p, s.pend = some p ∧ Rule.inDestinationRange p a := by
  rw [applyReset_buf] at hne
  unfold bufAfterReset abandonedLength at hne
  cases hp : s.pend with
  | none =>
    rw [hp] at hne
    exact absurd rfl hne
  | some p =>
    rw [hp] at hne
    refine ⟨p, rfl, by_contra fun ha => hne ?_⟩
    exact readByte_writeBytes_destination hwf (freeBytes_length ..) ha

/-- An event changes a byte only as a host write to it, or by ending the command whose destination holds it. -/
theorem performEvent_next_changes {e : Event} {s t : State} (hs : s.Inv) (h : performEvent e s = .next t) {a : Nat}
    (hne : readByte t.buf a ≠ readByte s.buf a) :
    (∃ v, e = .bufWrite a v) ∨ ∃ p, s.pend = some p ∧ t.pend = none ∧ Rule.inDestinationRange p a := by
  cases e with
  | regWrite offset size v => exact absurd (by rw [hostRegWrite_next_buf h]) hne
  | regRead offset size =>
    obtain ⟨-, w, rfl⟩ := hostRegRead_next h
    exact absurd rfl hne
  | bufWrite b v =>
    obtain ⟨-, -, rfl⟩ := hostBufWrite_next h
    obtain rfl | hab := eq_or_ne a b
    · exact .inl ⟨v, rfl⟩
    · exact absurd ((readByte_writeByte hs.buf.1 b v a).trans (if_neg hab)) hne
  | bufRead b =>
    obtain ⟨-, ⟨-, rfl⟩ | ⟨-, rfl⟩⟩ := hostBufRead_next h <;> exact absurd rfl hne
  | sequencer =>
    injection h with h
    subst h
    exact .inr (sequencerTurn_changes hs hne)
  | reset =>
    injection h with h
    subst h
    obtain ⟨p, hp, ha⟩ := applyReset_changes hs.buf.1 hne
    exact .inr ⟨p, hp, rfl, ha⟩

/-- Settles O57: a command writes no byte of BUF, so a step's change is a host write or the bytes of a completion or a
reset, and those are as many as the destination range holds. -/
theorem bufChangesOnlyWhereARuleSaysSo : Obligations.BufChangesOnlyWhereARuleSaysSo := by
  unfold Obligations.BufChangesOnlyWhereARuleSaysSo
  intro s t a hs h hne
  obtain ⟨-, ⟨-, rfl⟩ | ⟨e, rest, hin, he⟩⟩ := step_next h
  · exact .inr (sequencerTurn_changes hs hne)
  · have hrest : State.Inv { s with inputs := rest } := hs.of_eq rfl rfl rfl rfl
    obtain ⟨v, rfl⟩ | hend := performEvent_next_changes hrest he hne
    · exact .inl ⟨v, rest, hin⟩
    · exact .inr hend

end Sys2Proof.Machine
end

section
/-! PROOFS. The command word (30_encoding.md R54, R56, R60): the words that decode are the commands' own, each its
opcode zero-extended; a word that is none of them completes with IllegalCommand. -/

namespace Sys2Proof

/-! ## The fields of a word (R54) -/

theorem cmdOpcode_toNat (v : Word) : (cmdOpcode v).toNat = v.toNat % 256 := by
  simp [cmdOpcode, BitVec.extractLsb'_toNat]

theorem cmdReserved_toNat (v : Word) : (cmdReserved v).toNat = v.toNat / 256 := by
  have := v.isLt
  simp [cmdReserved, BitVec.extractLsb'_toNat, Nat.shiftRight_eq_div_pow]
  omega

theorem cmdReserved_eq_zero_iff (v : Word) : cmdReserved v = 0 ↔ v.toNat / 256 = 0 := by
  rw [← BitVec.toNat_inj, cmdReserved_toNat]
  rfl

theorem encode_toNat (i : Instr) : (encode i).toNat = (opcodeOf i).toNat := by
  rw [encode, BitVec.toNat_setWidth, Nat.mod_eq_of_lt ((opcodeOf i).isLt.trans (by decide))]

/-- The mask of R56 covers all 32 bits: a command's word is fixed by RSVD = 0 and its opcode. -/
theorem eq_encode_iff (v : Word) (i : Instr) : v = encode i ↔ cmdReserved v = 0 ∧ cmdOpcode v = opcodeOf i := by
  have hopc := (opcodeOf i).isLt
  rw [cmdReserved_eq_zero_iff, ← BitVec.toNat_inj, ← BitVec.toNat_inj, encode_toNat, cmdOpcode_toNat]
  omega

/-! ## Decoding -/

/-- The opcode map and the opcode of a command are inverse to each other (R56). -/
theorem opcodeMap_eq_some_iff (b : Byte) (i : Instr) : opcodeMap b = some i ↔ b = opcodeOf i := by
  constructor
  · intro h
    unfold opcodeMap at h
    split at h <;> cases h <;> rfl
  · rintro rfl
    cases i <;> rfl

theorem decode_eq_ok_iff_fields (v : Word) (i : Instr) :
    decode v = .ok i ↔ cmdReserved v = 0 ∧ opcodeMap (cmdOpcode v) = some i := by
  unfold decode
  by_cases hres : cmdReserved v = 0
  · rw [if_neg (not_not_intro hres), and_iff_right hres]
    cases opcodeMap (cmdOpcode v) <;> simp
  · rw [if_pos hres]
    exact iff_of_false nofun fun h => hres h.1

/-- The words that decode are the encodings. -/
theorem decode_eq_ok_iff (v : Word) (i : Instr) : decode v = .ok i ↔ v = encode i := by
  rw [decode_eq_ok_iff_fields, opcodeMap_eq_some_iff, eq_encode_iff]

theorem decode_encode (i : Instr) : decode (encode i) = .ok i := (decode_eq_ok_iff _ i).2 rfl

theorem wellFormed_eq_true (i : Instr) : i.wellFormed = true := by cases i <;> rfl

/-- Settles O3: a word decodes to a command exactly when it is that command's encoding. -/
theorem decodeAndEncodeAgree : Obligations.DecodeAndEncodeAgree :=
  ⟨fun i => ⟨wellFormed_eq_true i, decode_encode i⟩, fun v i h => ((decode_eq_ok_iff v i).1 h).symm⟩

/-- Settles O1: a command's encoding is, as a number, the opcode of its row. -/
theorem commandWordsAreTheOpcodeMap : Obligations.CommandWordsAreTheOpcodeMap := by
  unfold Obligations.CommandWordsAreTheOpcodeMap
  intro v i
  rw [decode_eq_ok_iff, ← BitVec.toNat_inj, encode_toNat]
  cases i <;> simp [opcodeOf]

/-- Settles O2: each word is its command's encoding, and an encoding decodes. -/
theorem writtenOutWordsDecode : Obligations.WrittenOutWordsDecode :=
  ⟨decode_encode .qstep, decode_encode .yccf, decode_encode .nunpack, decode_encode .cint4, decode_encode .clen,
    decode_encode .decode, rfl, rfl, rfl, rfl, rfl, rfl⟩

/-- The illegal words of R60 decode to no command. -/
theorem decode_illegal {v : Word}
    (h : v.toNat / 256 ≠ 0 ∨ v.toNat % 256 ∉
      [0x01, 0x02, 0x03, 0x04, 0x08, 0x09, 0x0C, 0x0D, 0x0E, 0x10, 0x11, 0x12, 0x20, 0x21, 0x22, 0x23]) (i : Instr) :
    decode v ≠ .ok i := by
  rw [Ne, decode_eq_ok_iff]
  rintro rfl
  rw [encode_toNat] at h
  exact absurd h (by cases i <;> decide)

end Sys2Proof

namespace Sys2Proof.Machine

/-! ## A write to CMD -/

theorem step_commandWrite {s : State} {v : Word} {rest : List Event} (hl : s.cfg.legal = true)
    (hi : s.inputs = Rule.commandWrite v :: rest) : step s = issueWord v { s with inputs := rest } :=
  (step_event hl hi).trans (hostRegWrite_cmd v _)

theorem issueWord_illegal {v : Word} (h : ∀ i, Sys2Proof.decode v ≠ .ok i) (s : State) :
    issueWord v s = illegalCommand s := by
  obtain ⟨i, hi, -⟩ | hbad := issueWord_cases (v := v) (s := s) rfl
  · exact absurd hi (h i)
  · exact hbad.symm

/-- An illegal word's issue clears STATUS and records ERRCODE 4 in it (R58, R60); OUT_LEN keeps its value (R23). -/
theorem illegalCommand_idle {s : State} (h : s.status.busy = false) :
    illegalCommand s = .next { s with status := Rule.errorStatus 4 } := by
  rw [illegalCommand, issue_idle h, raiseError, acceptIssue_status_idle h]
  rfl

theorem issueWord_busy {s : State} (h : s.status.busy = true) (v : Word) :
    issueWord v s = .next (dropIssue s) := by
  obtain ⟨i, -, hi⟩ | hbad := issueWord_cases (v := v) (s := s) rfl
  · exact hi.symm.trans (exec_busy h i)
  · exact hbad.symm.trans (issue_busy h _)

/-- Settles O5: the word decodes to no command, so the write is the issue of an illegal command. -/
theorem illegalWordCompletesWithIllegalCommand : Obligations.IllegalWordCompletesWithIllegalCommand := by
  unfold Obligations.IllegalWordCompletesWithIllegalCommand
  intro s v rest hl hi hidle hv
  calc step s = issueWord v { s with inputs := rest } := step_commandWrite hl hi
    _ = illegalCommand { s with inputs := rest } := issueWord_illegal (decode_illegal hv) _
    _ = _ := illegalCommand_idle hidle

/-- Settles O6: every issue, of a command or of an illegal word, begins with the test of BUSY. -/
theorem commandWriteWhileBusyOnlySetsDrop : Obligations.CommandWriteWhileBusyOnlySetsDrop :=
  ⟨fun s v rest hl hi hbusy =>
      (step_commandWrite hl hi).trans (issueWord_busy (s := { s with inputs := rest }) hbusy v),
    fun i _ hbusy => exec_busy hbusy i⟩

end Sys2Proof.Machine
end

section
/-! PROOFS. WAIT (30_encoding.md R63, 70_reset_and_hazards.md R156): reads of STATUS, and the sequencer's turn that ends
them. -/

namespace Sys2Proof.Machine

/-- n reads of STATUS use up their n events and leave STATUS in `readData`, if there was one. -/
theorem runSteps_statusReads (n : Nat) {s : State} {rest : List Event} (hl : s.cfg.legal = true)
    (hi : s.inputs = List.replicate n (rdEvent .status) ++ rest) :
    runSteps n s =
      .next { s with inputs := rest, readData := if n = 0 then s.readData else statusWord s.status } := by
  induction n generalizing s with
  | zero =>
    obtain rfl : s.inputs = rest := hi
    rfl
  | succ n ih =>
    rw [runSteps_succ n (step_regRead (r := .status) hl hi rfl), ih]
    · simp [readReg]
    · exact hl
    · rfl

theorem statusWord_busy {st : Status} (h : st.busy = true) : (statusWord st).toNat % 2 = 1 := by
  rw [statusWord_toNat, h, Bool.toNat_true]
  omega

theorem statusWord_finished (st : Status) :
    (statusWord (statusFinished st)).toNat % 2 = 0 ∧ (statusWord (statusFinished st)).toNat / 2 % 2 = 1 := by
  rw [statusWord_toNat, statusFinished_busy, statusFinished_done, Bool.toNat_false, Bool.toNat_true]
  omega

/-- The sequencer's turn, as an event, completes the pending command (R131). -/
theorem step_sequencer {s : State} {p : Pending} {rest : List Event} (hl : s.cfg.legal = true)
    (hi : s.inputs = .sequencer :: rest) (hp : s.pend = some p) :
    step s = .next (completePending p { s with inputs := rest }) :=
  (step_event hl hi).trans (congrArg Host.Outcome.next (sequencerTurn_some (s := { s with inputs := rest }) hp))

/-- With no event left the sequencer takes its turn (R156). -/
theorem step_noEvent {s : State} {p : Pending} (hl : s.cfg.legal = true) (hi : s.inputs = [])
    (hp : s.pend = some p) : step s = .next (completePending p s) := by
  rw [step_legal hl, stepEvents_nil hi, sequencerTurn_some hp]

/-- Settles O59: the reads leave all but `readData` alone, and the step after them completes the command. -/
theorem waitTerminatesWithTheCommandComplete : Obligations.WaitTerminatesWithTheCommandComplete := by
  unfold Obligations.WaitTerminatesWithTheCommandComplete
  intro s p n more hs hp readStatus complete
  have hl := hs.cfg
  have hbusy : s.status.busy = true := by rw [hs.busy, hp, Option.isSome_some]
  refine ⟨fun hi k hk => ?_, fun hi => ?_, fun hi => ?_⟩
  · have hsplit : s.inputs = List.replicate k readStatus ++ (List.replicate (n - k) readStatus ++ more) := by
      rw [hi, ← List.append_assoc, List.replicate_append_replicate, Nat.add_sub_cancel' hk]
    refine ⟨_, runSteps_statusReads k hl hsplit, hp, rfl, rfl, fun hk1 => ?_⟩
    rw [if_neg (Nat.one_le_iff_ne_zero.1 hk1)]
    exact statusWord_busy hbusy
  · have hturn := (runSteps_step n (runSteps_statusReads n hl hi)).trans (step_sequencer hl rfl hp)
    have hread := (runSteps_step (n + 1) hturn).trans (step_regRead (r := .status) hl rfl rfl)
    exact ⟨_, hread, ⟨rfl, rfl, rfl⟩, rfl, statusWord_finished s.status⟩
  · have hreads := runSteps_statusReads n (rest := []) hl (by rw [hi, List.append_nil]; rfl)
    exact ⟨_, (runSteps_step n hreads).trans (step_noEvent hl rfl hp), rfl, rfl, rfl⟩

end Sys2Proof.Machine
end

section
/-! PROOFS. The DeltaQuantizer (40_quantizer.md R64 to R74): `qcode` is the largest code whose representative does not
exceed the delta, the error that leaves, and the four commands. -/

namespace Sys2Proof.Machine

/-! ## The table REP (R64) -/

theorem rep_toNat (c : Code) : (rep c).toNat = Rule.rep c.toNat := by
  revert c
  decide

theorem rep_mono {j k : Code} (h : j ≤ k) : rep j ≤ rep k := by
  revert j k
  decide

/-- No step of the table is wider than 33, and no byte is above the last representative. -/
theorem rep_gap (c : Code) :
    (c = 15 ∧ rep c = 255) ∨ (c < c + 1 ∧ (rep (c + 1)).toNat ≤ (rep c).toNat + 33) := by
  revert c
  decide

theorem mem_representatives_iff (n : Nat) :
    n ∈ [0, 1, 3, 7, 15, 31, 63, 95, 128, 161, 193, 225, 241, 249, 253, 255] ↔ ∃ c : Code, (rep c).toNat = n := by
  constructor
  · revert n
    decide
  · rintro ⟨c, rfl⟩
    revert c
    decide

/-! ## Quantization (R67) -/

theorem rep_qcodeUpTo_le (n : Nat) (δ : Byte) : rep (qcodeUpTo n δ) ≤ δ := by
  induction n with
  | zero => exact Nat.zero_le _
  | succ n ih =>
    unfold qcodeUpTo
    split
    · assumption
    · exact ih

theorem le_qcodeUpTo {n : Nat} (hn : n ≤ 15) {k : Code} (hk : k.toNat ≤ n) {δ : Byte} (h : rep k ≤ δ) :
    k ≤ qcodeUpTo n δ := by
  induction n with
  | zero => exact hk
  | succ n ih =>
    have hcode : (BitVec.ofNat 4 (n + 1)).toNat = n + 1 := Nat.mod_eq_of_lt (Nat.lt_succ_of_le hn)
    unfold qcodeUpTo
    split
    · rw [BitVec.le_def, hcode]
      exact hk
    · next hnot =>
      have hne : k.toNat ≠ n + 1 := fun he => hnot (BitVec.eq_of_toNat_eq (he.trans hcode.symm) ▸ h)
      exact ih (by omega) (by omega)

theorem rep_qcode_le (δ : Byte) : rep (qcode δ) ≤ δ := rep_qcodeUpTo_le 15 δ

theorem le_qcode {k : Code} {δ : Byte} (h : rep k ≤ δ) : k ≤ qcode δ :=
  le_qcodeUpTo (Nat.le_refl 15) (Nat.le_of_lt_succ k.isLt) h

theorem qcode_mono {δ δ' : Byte} (h : δ ≤ δ') : qcode δ ≤ qcode δ' :=
  le_qcode (BitVec.le_trans (rep_qcode_le δ) h)

theorem isQcode_qcode (δ : Byte) : Rule.isQcode δ.toNat (qcode δ).toNat := by
  refine ⟨Nat.le_of_lt_succ (qcode δ).isLt, rep_toNat (qcode δ) ▸ rep_qcode_le δ, fun k hk hle => ?_⟩
  have hcode : (BitVec.ofNat 4 k).toNat = k := Nat.mod_eq_of_lt (Nat.lt_succ_of_le hk)
  rw [← hcode, ← rep_toNat] at hle
  exact hcode ▸ le_qcode hle

/-! ## The quantizer's error (R70) -/

/-- The next representative lies above the delta, so the delta is less than one step of the table above its own. -/
theorem toNat_le_rep_qcode_add (δ : Byte) : δ.toNat ≤ (rep (qcode δ)).toNat + 32 := by
  obtain ⟨-, hlast⟩ | ⟨hlt, hgap⟩ := rep_gap (qcode δ)
  · rw [hlast]
    exact δ.isLt.le.trans (by decide)
  · have habove : ¬ rep (qcode δ + 1) ≤ δ := fun h => BitVec.not_le.2 hlt (le_qcode h)
    rw [BitVec.le_def] at habove
    omega

theorem le_rep_qcode_iff (δ : Byte) : δ ≤ rep (qcode δ) ↔ ∃ c, rep c = δ := by
  constructor
  · exact fun h => ⟨qcode δ, BitVec.le_antisymm (rep_qcode_le δ) h⟩
  · rintro ⟨c, rfl⟩
    exact rep_mono (le_qcode (BitVec.le_refl _))

theorem sub_recon (p a : Byte) (c : Code) : a - recon p c = wrappedDelta p a - rep c :=
  sub_add_eq_sub_sub a p (rep c)

/-- The wrapped error of a quantized sample does not wrap past its delta. -/
theorem toNat_sub_recon_qcode (p a : Byte) :
    (a - recon p (qcode (wrappedDelta p a))).toNat =
      (wrappedDelta p a).toNat - (rep (qcode (wrappedDelta p a))).toNat := by
  rw [sub_recon, BitVec.toNat_sub_of_le (rep_qcode_le _)]

theorem toNat_sub_recon_qcode_le (p a : Byte) : (a - recon p (qcode (wrappedDelta p a))).toNat ≤ 32 := by
  rw [toNat_sub_recon_qcode]
  exact Nat.sub_le_iff_le_add'.2 (toNat_le_rep_qcode_add _)

theorem toNat_sub_recon_qcode_eq_zero_iff (p a : Byte) :
    (a - recon p (qcode (wrappedDelta p a))).toNat = 0 ↔ ∃ c, (rep c).toNat = (wrappedDelta p a).toNat := by
  simp only [toNat_sub_recon_qcode, Nat.sub_eq_zero_iff_le, BitVec.toNat_inj]
  exact le_rep_qcode_iff _

/-- A byte from its wrapped distance to another: it wraps when the distance exceeds the other byte. -/
theorem toNat_of_lt_sub {a r : Byte} (h : a.toNat < (a - r).toNat) : r.toNat = 256 + a.toNat - (a - r).toNat := by
  bv_omega

theorem toNat_of_sub_le {a r : Byte} (h : (a - r).toNat ≤ a.toNat) : r.toNat = a.toNat - (a - r).toNat := by
  bv_omega

/-- Settles O11: `qcode` is the largest code not above the delta, so it is monotonic and the delta stays below the next
representative, which is at most 33 higher. -/
theorem quantizerErrorIsWrappedAndAtMost32 : Obligations.QuantizerErrorIsWrappedAndAtMost32 := by
  unfold Obligations.QuantizerErrorIsWrappedAndAtMost32
  intro p a δ c e
  exact ⟨(mem_representatives_iff _).2 ⟨c, rfl⟩, fun p' a' h => qcode_mono h, toNat_sub_recon_qcode p a,
    rep_qcode_le _, toNat_sub_recon_qcode_le p a,
    (toNat_sub_recon_qcode_eq_zero_iff p a).trans (mem_representatives_iff _).symm, toNat_of_lt_sub, toNat_of_sub_le⟩

/-! ## The operations as numbers -/

theorem wrappedDelta_toNat (p a : Byte) : (wrappedDelta p a).toNat = Rule.delta p.toNat a.toNat := by
  unfold wrappedDelta Rule.delta
  bv_omega

theorem recon_toNat (p : Byte) (c : Code) : (recon p c).toNat = (p.toNat + Rule.rep c.toNat) % 256 := by
  rw [recon, BitVec.toNat_add, rep_toNat]

theorem byteLane_toNat_eq_lane (w : Word) (i : Nat) : (byteLane w i).toNat = Rule.lane w i := byteLane_toNat w i

theorem codeField_toNat_eq_nibble (w : Word) : (codeField w).toNat = Rule.nibble w := codeField_toNat w

/-- The code QENC and QSTEP take from their operands' low lanes. -/
theorem isQcode_of_lanes (opa opb : Word) :
    Rule.isQcode (Rule.delta (Rule.lane opa 0) (Rule.lane opb 0))
      (qcode (wrappedDelta (byteLane opa 0) (byteLane opb 0))).toNat := by
  rw [← byteLane_toNat_eq_lane, ← byteLane_toNat_eq_lane, ← wrappedDelta_toNat]
  exact isQcode_qcode _

/-! ## The commands -/

/-- A primitive command issued while BUSY = 0 writes its function's value to RES and sets DONE alone. -/
theorem primitive_idle_of_toNat {s : State} (hidle : s.status.busy = false) {f : Word → Word → Word} {n : Nat}
    (hn : (f s.opa s.opb).toNat = n) :
    primitive f s = .next { s with res := BitVec.ofNat 32 n, status := Rule.doneStatus } := by
  subst hn
  rw [primitive_idle hidle, BitVec.ofNat_toNat, BitVec.setWidth_eq, Rule.doneStatus]

/-- Settles O7: the code written is that of the lanes' wrapped delta. -/
theorem qencWritesTheLargestCodeNotAboveDelta : Obligations.QencWritesTheLargestCodeNotAboveDelta := by
  refine ⟨rfl, fun s hidle => ⟨_, isQcode_of_lanes s.opa s.opb, ?_⟩⟩
  calc exec .qenc s = execQenc s := rfl
    _ = _ := primitive_idle_of_toNat hidle (resCode_toNat _)

/-- Settles O8: the table of the model is the table of R64. -/
theorem qdecWritesTheRepresentative : Obligations.QdecWritesTheRepresentative := by
  refine ⟨rfl, fun s hidle => ?_⟩
  have hres : (resByte (rep (codeField s.opa))).toNat = Rule.rep (Rule.nibble s.opa) := by
    rw [resByte_toNat, rep_toNat, codeField_toNat_eq_nibble]
  calc exec .qdec s = execQdec s := rfl
    _ = _ := primitive_idle_of_toNat hidle hres

/-- Settles O9: byte addition is addition modulo 256. -/
theorem qrecAddsTheRepresentative : Obligations.QrecAddsTheRepresentative := by
  refine ⟨rfl, fun s hidle => ?_⟩
  have hres : (resByte (recon (byteLane s.opa 0) (codeField s.opb))).toNat =
      (Rule.lane s.opa 0 + Rule.rep (Rule.nibble s.opb)) % 256 := by
    rw [resByte_toNat, recon_toNat, byteLane_toNat_eq_lane, codeField_toNat_eq_nibble]
  calc exec .qrec s = execQrec s := rfl
    _ = _ := primitive_idle_of_toNat hidle hres

/-- Settles O10: the code is that of QENC, and the reconstruction is taken from it. -/
theorem qstepWritesCodeAndReconstruction : Obligations.QstepWritesCodeAndReconstruction := by
  refine ⟨rfl, fun s hidle => ⟨_, isQcode_of_lanes s.opa s.opb, ?_⟩⟩
  have hres (c : Code) : (resCodeByte c (recon (byteLane s.opa 0) c)).toNat =
      (Rule.lane s.opa 0 + Rule.rep c.toNat) % 256 * 256 + c.toNat := by
    rw [resCodeByte_toNat, recon_toNat, byteLane_toNat_eq_lane]
  calc exec .qstep s = execQstep s := rfl
    _ = _ := primitive_idle_of_toNat hidle (hres _)

end Sys2Proof.Machine
end

section
/-! PROOFS. The ColorTransform (41_color.md R75 to R83): how far DIV is from the exact quotient under each rounding, and
from that the range of the forward transform, its symmetry in R and B, the round trip's error, and the two commands. -/

namespace Sys2Proof.Machine

/-! ## The rounded division (R75) -/

section RoundDiv
variable {n d : Int}

theorem roundDiv_floor_bounds (n : Int) (hd : 0 < d) :
    d * roundDiv .floor n d ≤ n ∧ n < d * roundDiv .floor n d + d :=
  ⟨Int.mul_ediv_self_le hd.ne', Int.lt_mul_ediv_self_add hd⟩

/-- HALF_UP is the floor of n / d + 1 / 2. -/
theorem roundDiv_halfUp_bounds (n : Int) (hd : 0 < d) :
    2 * (d * roundDiv .halfUp n d) ≤ 2 * n + d ∧ 2 * n + d < 2 * (d * roundDiv .halfUp n d) + 2 * d := by
  have hfloor := roundDiv_floor_bounds (2 * n + d) (mul_pos two_pos hd)
  rwa [mul_assoc] at hfloor

theorem roundDiv_trunc_neg (n d : Int) : roundDiv .trunc (-n) d = -roundDiv .trunc n d := by
  obtain hn | rfl | hn := lt_trichotomy n 0
  · simp [roundDiv, hn.le, hn.not_ge]
  · simp [roundDiv]
  · simp [roundDiv, hn.le, hn.not_ge]

theorem roundDiv_trunc_bounds_of_nonneg (hn : 0 ≤ n) (hd : 0 < d) :
    0 ≤ d * roundDiv .trunc n d ∧ d * roundDiv .trunc n d ≤ n ∧ n < d * roundDiv .trunc n d + d := by
  have hfloor : roundDiv .trunc n d = roundDiv .floor n d := if_pos hn
  rw [hfloor]
  exact ⟨mul_nonneg hd.le (Int.ediv_nonneg hn hd.le), roundDiv_floor_bounds n hd⟩

theorem roundDiv_trunc_bounds_of_nonpos (hn : n ≤ 0) (hd : 0 < d) :
    n ≤ d * roundDiv .trunc n d ∧ d * roundDiv .trunc n d ≤ 0 ∧ d * roundDiv .trunc n d < n + d := by
  have hneg := roundDiv_trunc_bounds_of_nonneg (Int.neg_nonneg.2 hn) hd
  rw [roundDiv_trunc_neg, mul_neg] at hneg
  omega

/-- Every rounding is less than one from the exact quotient. -/
theorem roundDiv_bounds (mode : YccDiv) (n : Int) (hd : 0 < d) :
    n < d * roundDiv mode n d + d ∧ d * roundDiv mode n d < n + d := by
  cases mode with
  | floor =>
    have := roundDiv_floor_bounds n hd
    omega
  | halfUp =>
    have := roundDiv_halfUp_bounds n hd
    omega
  | trunc =>
    obtain hn | hn := le_total 0 n
    · have := roundDiv_trunc_bounds_of_nonneg hn hd
      omega
    · have := roundDiv_trunc_bounds_of_nonpos hn hd
      omega

/-- Every rounding but TRUNC exceeds the exact quotient by at most a half. -/
theorem roundDiv_le_of_ne_trunc {mode : YccDiv} (hm : mode ≠ .trunc) (n : Int) (hd : 0 < d) :
    2 * (d * roundDiv mode n d) ≤ 2 * n + d := by
  cases mode with
  | floor =>
    have := roundDiv_floor_bounds n hd
    omega
  | halfUp => exact (roundDiv_halfUp_bounds n hd).1
  | trunc => exact absurd rfl hm

/-- Every rounding but HALF_UP is at most the exact quotient, where that is not negative. -/
theorem roundDiv_le_of_ne_halfUp {mode : YccDiv} (hm : mode ≠ .halfUp) (hn : 0 ≤ n) (hd : 0 < d) :
    d * roundDiv mode n d ≤ n := by
  cases mode with
  | floor => exact (roundDiv_floor_bounds n hd).1
  | halfUp => exact absurd rfl hm
  | trunc => exact (roundDiv_trunc_bounds_of_nonneg hn hd).2.1

/-- An exact quotient is not rounded. -/
theorem roundDiv_two_of_even (mode : YccDiv) (hn : n % 2 = 0) : 2 * roundDiv mode n 2 = n := by
  have := roundDiv_bounds mode n two_pos
  omega

/-- The formula of R75, with `Int.fdiv` for div. -/
theorem roundDiv_eq_div (mode : YccDiv) (n : Int) (hd : 0 ≤ d) : roundDiv mode n d = Rule.div mode n d := by
  have h2d : 0 ≤ 2 * d := mul_nonneg zero_le_two hd
  cases mode <;> simp [roundDiv, Rule.div, Int.fdiv_eq_ediv_of_nonneg, hd, h2d]

end RoundDiv

/-! ## Saturation (R11) -/

theorem sat8_toNat (v : Int) : (sat8 v).toNat = Rule.sat v := by
  simp only [sat8, Rule.sat, BitVec.toNat_ofNat]
  omega

theorem sampleInt_sat8 (v : Int) : sampleInt (sat8 v) = min (max v 0) 255 := by
  rw [sampleInt, sat8_toNat, Rule.sat, Int.toNat_of_nonneg (by omega)]

theorem sampleInt_bounds (b : Byte) : 0 ≤ sampleInt b ∧ sampleInt b ≤ 255 := by
  have := b.isLt
  unfold sampleInt
  omega

/-- Saturation does not move a value away from a byte. -/
theorem natAbs_sat8_sub_le (v : Int) (b : Byte) :
    (sampleInt (sat8 v) - sampleInt b).natAbs ≤ (v - sampleInt b).natAbs := by
  have := sampleInt_bounds b
  rw [sampleInt_sat8]
  omega

/-! ## The range of the forward transform (R77) -/

/-- Settles O14: DIV is less than one from the exact quotient, which bounds every value by 0 and 256; the bounds of one
rounding decide where 256 is reached. -/
theorem forwardTransformSaturatesOnlyUnderHalfUp : Obligations.ForwardTransformSaturatesOnlyUnderHalfUp := by
  unfold Obligations.ForwardTransformSaturatesOnlyUnderHalfUp
  rintro mode r g b R G B y co cg hR hG hB rfl rfl rfl
  have hr := r.isLt
  have hg := g.isLt
  have hb := b.isLt
  have hy := roundDiv_bounds mode (2 * G + R + B) four_pos
  have hco := roundDiv_bounds mode (R - B) two_pos
  have hcg := roundDiv_bounds mode (2 * G - R - B) four_pos
  refine ⟨by omega, by omega, by omega, fun hm => ?_, ?_, ?_⟩
  · have hco' := fun hn : 0 ≤ R - B => roundDiv_le_of_ne_halfUp hm hn two_pos
    have hcg' := fun hn : 0 ≤ 2 * G - R - B => roundDiv_le_of_ne_halfUp hm hn four_pos
    omega
  · rintro rfl
    have hco' := fun hn : R - B ≤ 0 => roundDiv_trunc_bounds_of_nonpos hn two_pos
    have hcg' := fun hn : 2 * G - R - B ≤ 0 => roundDiv_trunc_bounds_of_nonpos hn four_pos
    omega
  · rintro rfl
    have hco' := roundDiv_halfUp_bounds (R - B) two_pos
    have hcg' := roundDiv_halfUp_bounds (2 * G - R - B) four_pos
    omega

/-! ## Exchanging R and B (R81) -/

theorem yccY_exchange (mode : YccDiv) (r g b : Byte) : yccY mode b g r = yccY mode r g b := by
  simp only [yccY, add_right_comm]

theorem yccCg_exchange (mode : YccDiv) (r g b : Byte) : yccCg mode b g r = yccCg mode r g b := by
  simp only [yccCg, sub_right_comm]

section Exchange
variable {mode : YccDiv}

/-- Where the rounding is symmetric about 0, it does not lengthen the dividend. -/
theorem roundDiv_two_symmetric {n : Int} (h : mode = .trunc ∨ n % 2 = 0) :
    roundDiv mode (-n) 2 = -roundDiv mode n 2 ∧ (2 * roundDiv mode n 2).natAbs ≤ n.natAbs := by
  obtain rfl | heven := h
  · refine ⟨roundDiv_trunc_neg n 2, ?_⟩
    have hpos := fun hn : 0 ≤ n => roundDiv_trunc_bounds_of_nonneg hn two_pos
    have hneg := fun hn : n ≤ 0 => roundDiv_trunc_bounds_of_nonpos hn two_pos
    omega
  · have hq := roundDiv_two_of_even mode heven
    have hq' := roundDiv_two_of_even mode (n := -n) (by omega)
    omega

theorem sampleInt_yccCo_exchange {r b : Byte} (h : mode = .trunc ∨ (sampleInt r - sampleInt b) % 2 = 0) :
    sampleInt (yccCo mode b r) = 256 - sampleInt (yccCo mode r b) := by
  have hr := sampleInt_bounds r
  have hb := sampleInt_bounds b
  obtain ⟨hneg, habs⟩ := roundDiv_two_symmetric h
  rw [neg_sub] at hneg
  rw [yccCo, yccCo, sampleInt_sat8, sampleInt_sat8, hneg]
  omega

end Exchange

/-- The inverse exchanges R and B when co is reflected at 128. -/
theorem yccR_eq_yccB {co co' : Byte} (h : sampleInt co' = 256 - sampleInt co) (y cg : Byte) :
    yccR y co' cg = yccB y co cg := by
  rw [yccR, yccB, h]
  congr 1
  omega

/-- Settles O15: y and cg are symmetric in R and B, and DIV by 2 is odd where the rounding is symmetric. -/
theorem exchangingRedAndBlueNegatesCo : Obligations.ExchangingRedAndBlueNegatesCo := by
  unfold Obligations.ExchangingRedAndBlueNegatesCo
  intro mode r g b
  refine ⟨yccY_exchange mode r g b, yccCg_exchange mode r g b, fun h => ?_⟩
  have hco : sampleInt (yccCo mode b r) = 256 - sampleInt (yccCo mode r b) := sampleInt_yccCo_exchange h
  have hco' : sampleInt (yccCo mode r b) = 256 - sampleInt (yccCo mode b r) := by omega
  refine ⟨?_, fun y cg => ⟨yccR_eq_yccB hco y cg, (yccR_eq_yccB hco' y cg).symm⟩⟩
  unfold sampleInt at hco
  omega

/-! ## The round trip (R79) -/

section RoundTrip
variable (mode : YccDiv) (r g b : Byte)

/-- What y loses to rounding, in quarters. -/
def lumaLoss : Int := 2 * sampleInt g + sampleInt r + sampleInt b - 4 * sampleInt (yccY mode r g b)

/-- What co loses to rounding and saturation, in halves. -/
def orangeLoss : Int := sampleInt r - sampleInt b - 2 * (sampleInt (yccCo mode r b) - 128)

/-- What cg loses to rounding and saturation, in quarters. -/
def greenLoss : Int := 2 * sampleInt g - sampleInt r - sampleInt b - 4 * (sampleInt (yccCg mode r g b) - 128)

theorem lumaLoss_bounds :
    -3 ≤ lumaLoss mode r g b ∧ lumaLoss mode r g b ≤ 3 ∧ (mode ≠ .trunc → -2 ≤ lumaLoss mode r g b) := by
  have hr := sampleInt_bounds r
  have hg := sampleInt_bounds g
  have hb := sampleInt_bounds b
  have hq := roundDiv_bounds mode (2 * sampleInt g + sampleInt r + sampleInt b) four_pos
  rw [lumaLoss, yccY, sampleInt_sat8]
  refine ⟨by omega, by omega, fun hm => ?_⟩
  have hhalf := roundDiv_le_of_ne_trunc hm (2 * sampleInt g + sampleInt r + sampleInt b) four_pos
  omega

theorem orangeLoss_bounds : -1 ≤ orangeLoss mode r b ∧ orangeLoss mode r b ≤ 1 := by
  have hr := sampleInt_bounds r
  have hb := sampleInt_bounds b
  have hq := roundDiv_bounds mode (sampleInt r - sampleInt b) two_pos
  rw [orangeLoss, yccCo, sampleInt_sat8]
  omega

theorem greenLoss_bounds :
    -3 ≤ greenLoss mode r g b ∧ greenLoss mode r g b ≤ 3 ∧ (mode ≠ .trunc → -2 ≤ greenLoss mode r g b) := by
  have hr := sampleInt_bounds r
  have hg := sampleInt_bounds g
  have hb := sampleInt_bounds b
  have hq := roundDiv_bounds mode (2 * sampleInt g - sampleInt r - sampleInt b) four_pos
  rw [greenLoss, yccCg, sampleInt_sat8]
  refine ⟨by omega, by omega, fun hm => ?_⟩
  have hhalf := roundDiv_le_of_ne_trunc hm (2 * sampleInt g - sampleInt r - sampleInt b) four_pos
  omega

/-! Four times the error of each channel before saturation is a sum of the losses. -/

theorem four_mul_red_error :
    4 * (sampleInt (yccY mode r g b) + sampleInt (yccCo mode r b) - sampleInt (yccCg mode r g b) - sampleInt r) =
      greenLoss mode r g b - lumaLoss mode r g b - 2 * orangeLoss mode r b := by
  unfold lumaLoss orangeLoss greenLoss
  ring

theorem four_mul_green_error :
    4 * (sampleInt (yccY mode r g b) + sampleInt (yccCg mode r g b) - 128 - sampleInt g) =
      -lumaLoss mode r g b - greenLoss mode r g b := by
  unfold lumaLoss greenLoss
  ring

theorem four_mul_blue_error :
    4 * (sampleInt (yccY mode r g b) - sampleInt (yccCo mode r b) - sampleInt (yccCg mode r g b) + 256 -
        sampleInt b) =
      greenLoss mode r g b - lumaLoss mode r g b + 2 * orangeLoss mode r b := by
  unfold lumaLoss orangeLoss greenLoss
  ring

end RoundTrip

theorem natAbs_sat8_sub_le_tolerance {mode : YccDiv} {v e : Int} {b : Byte} (he : 4 * (v - sampleInt b) = e)
    (h8 : e.natAbs ≤ 8) (h7 : mode ≠ .trunc → e.natAbs ≤ 7) :
    (sampleInt (sat8 v) - sampleInt b).natAbs ≤ if mode = .trunc then 2 else 1 := by
  refine (natAbs_sat8_sub_le v b).trans ?_
  split
  · omega
  · next hm =>
    have := h7 hm
    omega

/-- Settles O16: the losses add up to at most 8 quarters in each channel, and to at most 7 unless the rounding is TRUNC. -/
theorem colorRoundTripErrorIsSmall : Obligations.ColorRoundTripErrorIsSmall := by
  unfold Obligations.ColorRoundTripErrorIsSmall
  intro mode r g b
  obtain ⟨hy, hy', hyt⟩ := lumaLoss_bounds mode r g b
  obtain ⟨hco, hco'⟩ := orangeLoss_bounds mode r b
  obtain ⟨hcg, hcg', hcgt⟩ := greenLoss_bounds mode r g b
  refine ⟨natAbs_sat8_sub_le_tolerance (four_mul_red_error mode r g b) (by omega) fun hm => ?_,
    natAbs_sat8_sub_le_tolerance (four_mul_green_error mode r g b) (by omega) fun hm => ?_,
    natAbs_sat8_sub_le_tolerance (four_mul_blue_error mode r g b) (by omega) fun hm => ?_⟩ <;>
  · have := hyt hm
    have := hcgt hm
    omega

/-! ## The commands (R82, R83) -/

theorem sampleInt_byteLane (w : Word) (i : Nat) : sampleInt (byteLane w i) = Rule.lane w i :=
  congrArg Nat.cast (byteLane_toNat_eq_lane w i)

/-- Settles O12: DIV and sat8 of the model are those of R75 and R11. -/
theorem yccfWritesTheForwardTransform : Obligations.YccfWritesTheForwardTransform := by
  refine ⟨rfl, ?_⟩
  rintro s r g b hidle rfl rfl rfl
  calc exec .yccf s = execYccf s := rfl
    _ = _ := primitive_idle_of_toNat hidle (by
      simp only [resBytes3_toNat, yccY, yccCo, yccCg, sat8_toNat, sampleInt_byteLane, roundDiv_eq_div, zero_le_two,
        zero_le_four])

/-- Settles O13: each lane is the saturated sum of R78. -/
theorem ycciWritesTheInverseTransform : Obligations.YcciWritesTheInverseTransform := by
  refine ⟨rfl, ?_⟩
  rintro s y co cg hidle rfl rfl rfl
  calc exec .ycci s = execYcci s := rfl
    _ = _ := primitive_idle_of_toNat hidle (by
      simp only [resBytes3_toNat, yccR, yccG, yccB, sat8_toNat, sampleInt_byteLane])

end Sys2Proof.Machine
end

section
/-! PROOFS. The NibblePacker (42_nibble.md R84 to R91): which codes each byte of a packed sequence holds, and from that the
round trip through unpack; the three commands. -/

namespace Sys2Proof.Machine

/-! ## Packing and unpacking (R84, R85, R87) -/

/-- The code in bits [7:4] of byte j of a packed sequence: code 2j + 1, or code 2j again at an odd end (R84). -/
def laterCode (q : List Code) (j : Nat) : Code :=
  if 2 * j + 1 < q.length then q.getD (2 * j + 1) 0 else q.getD (2 * j) 0

theorem laterCode_cons_cons (c d : Code) (rest : List Code) (j : Nat) :
    laterCode (c :: d :: rest) (j + 1) = laterCode rest j := by
  have hlen : 2 * (j + 1) + 1 < (c :: d :: rest).length ↔ 2 * j + 1 < rest.length := by
    simp only [List.length_cons]
    omega
  simp only [laterCode, hlen]
  rfl

theorem pack_getD : ∀ (q : List Code) (j : Nat), 2 * j < q.length →
    (pack q).getD j 0 = packByte (q.getD (2 * j) 0) (laterCode q j)
  | [], _, hj => absurd hj (Nat.not_lt_zero _)
  | [_], j, hj => by
    obtain rfl : j = 0 := by simp only [List.length_singleton] at hj; omega
    rfl
  | _ :: _ :: _, 0, _ => by simp [pack, laterCode]
  | _ :: _ :: rest, j + 1, hj => by
    have hrest : 2 * j < rest.length := by simp only [List.length_cons] at hj; omega
    rw [laterCode_cons_cons]
    exact pack_getD rest j hrest

/-- Settles O18: byte j is the packed pair of code 2j and the code after it. -/
theorem packPutsTheEarlierCodeInTheLowNibble : Obligations.PackPutsTheEarlierCodeInTheLowNibble := by
  refine fun q => ⟨pack_length q, fun j hj => ?_⟩
  rw [pack_getD q j hj, packByte_toNat, Nat.add_comm, laterCode]

theorem unpack_length (bytes : List Byte) (n : Nat) : (unpack bytes n).length = n := by simp [unpack]

/-- R85, code by code. -/
theorem unpack_getElem {bytes : List Byte} {n i : Nat} (hi : i < (unpack bytes n).length) :
    (unpack bytes n)[i] =
      if i % 2 = 0 then lowNibble (bytes.getD (i / 2) 0) else highNibble (bytes.getD (i / 2) 0) := by
  simp [unpack]

/-- R87: only the bytes of the packed sequence are read, and code i is in the nibble its parity says. -/
theorem unpack_pack_append (q : List Code) (more : List Byte) : unpack (pack q ++ more) q.length = q := by
  refine List.ext_getElem (unpack_length _ _) fun i hu hi => ?_
  have hbyte : i / 2 < (pack q).length := by rw [pack_length]; omega
  rw [unpack_getElem hu, getD_append_first _ _ _ _ hbyte, pack_getD q (i / 2) (by omega)]
  obtain heven | hodd := Nat.mod_two_eq_zero_or_one i
  · have hpos : 2 * (i / 2) = i := by omega
    rw [if_pos heven, lowNibble_packByte, hpos, List.getD_eq_getElem _ _ hi]
  · have hpos : 2 * (i / 2) + 1 = i := by omega
    rw [if_neg (by omega), highNibble_packByte, laterCode, hpos, if_pos hi, List.getD_eq_getElem _ _ hi]

/-- Settles O19: the bytes that follow may be none. -/
theorem unpackOfPackIsTheSequence : Obligations.UnpackOfPackIsTheSequence := by
  refine fun q more => ⟨?_, unpack_pack_append q more⟩
  simpa using unpack_pack_append q []

/-! ## The commands (R89 to R91) -/

theorem resByte_packByte_toNat (v w : Word) :
    (resByte (packByte (codeField v) (codeField w))).toNat = 16 * Rule.nibble w + Rule.nibble v := by
  simp only [resByte_toNat, packByte_toNat, codeField_toNat_eq_nibble]

/-- Settles O17: the byte NPACK2 and NPACK1 write is a packed pair; NUNPACK writes the quotient and the remainder by 16. -/
theorem nibbleCommandsPackAndUnpack : Obligations.NibbleCommandsPackAndUnpack := by
  refine ⟨⟨rfl, rfl, rfl⟩, fun s hidle => ⟨?_, ?_, ?_⟩⟩
  · calc exec .npack2 s = execNpack2 s := rfl
      _ = _ := primitive_idle_of_toNat hidle (resByte_packByte_toNat _ _)
  · calc exec .npack1 s = execNpack1 s := rfl
      _ = _ := primitive_idle_of_toNat hidle (resByte_packByte_toNat _ _)
  · calc exec .nunpack s = execNunpack s := rfl
      _ = _ := primitive_idle_of_toNat hidle (by
        rw [resCodes2_toNat, highNibble_toNat, lowNibble_toNat, byteLane_toNat_eq_lane])

end Sys2Proof.Machine
end

section
/-! PROOFS. The ChromaSubsampler (43_chroma.md R93 to R100): its means as numbers, none of which leaves a byte, and from that
the pixels of the rebuilt plane by parity; the three commands. -/

namespace Sys2Proof.Machine

/-! ## The means as numbers (R93, R96) -/

theorem toNat_ofNat_byte {n : Nat} (h : n < 256) : (BitVec.ofNat 8 n).toNat = n :=
  (BitVec.toNat_ofNat n 8).trans (Nat.mod_eq_of_lt h)

theorem cmean_toNat (mode : CsubRound) (a b c d : Byte) :
    (cmean mode a b c d).toNat = Rule.mean4 mode (a.toNat + b.toNat + c.toNat + d.toNat) := by
  cases mode with
  | floor => exact toNat_ofNat_byte (by omega)
  | halfUp => exact toNat_ofNat_byte (by omega)

theorem average2_toNat (a b : Byte) : (average2 a b).toNat = (a.toNat + b.toNat + 1) / 2 :=
  toNat_ofNat_byte (by omega)

theorem average4_toNat (a b c d : Byte) :
    (average4 a b c d).toNat = (a.toNat + b.toNat + c.toNat + d.toNat + 2) / 4 :=
  toNat_ofNat_byte (by omega)

/-! ## Reconstruction (R96) -/

section Parity
variable (S : Plane) {x y : Nat}

theorem interpolateAt_even_even (hx : x % 2 = 0) (hy : y % 2 = 0) :
    interpolateAt S x y = planeAt S (x / 2) (y / 2) :=
  (if_pos hx).trans (if_pos hy)

theorem interpolateAt_odd_even (hx : x % 2 = 1) (hy : y % 2 = 0) :
    interpolateAt S x y =
      average2 (planeAt S (x / 2) (y / 2)) (planeAt S (min (x / 2 + 1) (S.width - 1)) (y / 2)) :=
  (if_neg (by omega)).trans (if_pos hy)

theorem interpolateAt_even_odd (hx : x % 2 = 0) (hy : y % 2 = 1) :
    interpolateAt S x y =
      average2 (planeAt S (x / 2) (y / 2)) (planeAt S (x / 2) (min (y / 2 + 1) (S.height - 1))) :=
  (if_pos hx).trans (if_neg (by omega))

theorem interpolateAt_odd_odd (hx : x % 2 = 1) (hy : y % 2 = 1) :
    interpolateAt S x y =
      average4 (planeAt S (x / 2) (y / 2)) (planeAt S (min (x / 2 + 1) (S.width - 1)) (y / 2))
        (planeAt S (x / 2) (min (y / 2 + 1) (S.height - 1)))
        (planeAt S (min (x / 2 + 1) (S.width - 1)) (min (y / 2 + 1) (S.height - 1))) :=
  (if_neg (by omega)).trans (if_neg (by omega))

end Parity

/-- A pixel of the w-wide plane has its subsampled sample inside the row, so clamping leaves that one alone (R97). -/
theorem min_half_of_lt {n w x : Nat} (hn : n = (w + 1) / 2) (hx : x < w) : min (x / 2) (n - 1) = x / 2 := by omega

/-- Settles O22: only the neighbours one further right or below are ever clamped. -/
theorem interpolationFollowsTheParityOfThePixel : Obligations.InterpolationFollowsTheParityOfThePixel := by
  intro S w h x y hw hh hx hy
  simp only [cinterp, planeAt_planeOf _ hx hy, min_half_of_lt hw hx, min_half_of_lt hh hy]
  refine ⟨fun hx2 hy2 => ?_, fun hx2 hy2 => ?_, fun hx2 hy2 => ?_, fun hx2 hy2 => ?_⟩
  · rw [interpolateAt_even_even S hx2 hy2]
  · rw [interpolateAt_odd_even S hx2 hy2, average2_toNat]
  · rw [interpolateAt_even_odd S hx2 hy2, average2_toNat]
  · rw [interpolateAt_odd_odd S hx2 hy2, average4_toNat]

/-! ## The commands (R98 to R100) -/

/-- Settles O20: the mean of four bytes is a byte under both roundings. -/
theorem cavgWritesTheMeanOfFour : Obligations.CavgWritesTheMeanOfFour := by
  refine ⟨rfl, fun s hidle => ?_⟩
  calc exec .cavg s = execCavg s := rfl
    _ = _ := primitive_idle_of_toNat hidle (by simp only [resByte_toNat, cmean_toNat, byteLane_toNat_eq_lane])

/-- Settles O21: the averages rounded up are bytes too. -/
theorem interpolationCommandsRoundUp : Obligations.InterpolationCommandsRoundUp := by
  refine ⟨⟨rfl, rfl⟩, fun s hidle => ⟨?_, ?_⟩⟩
  · calc exec .cint2 s = execCint2 s := rfl
      _ = _ := primitive_idle_of_toNat hidle (by simp only [resByte_toNat, average2_toNat, byteLane_toNat_eq_lane])
  · calc exec .cint4 s = execCint4 s := rfl
      _ = _ := primitive_idle_of_toNat hidle (by simp only [resByte_toNat, average4_toNat, byteLane_toNat_eq_lane])

end Sys2Proof.Machine
end

section
/-! PROOFS. Lines (44_modes.md R109 to R113): which samples a line has, what its decoding is sample by sample, and that one
delta is coded against the predecessor the decoder rebuilds. -/

namespace Sys2Proof.Machine

/-! ## The lines of a plane (R109, R110) -/

theorem scansColumns_iff (d : Descriptor) (w h : Nat) :
    scansColumns d w h = true ↔ d.layout = .adaptive ∧ h > w := by simp [scansColumns]

/-- The line a sample stands in. -/
def lineIndex (cols : Bool) (x y : Nat) : Nat := if cols then x else y

/-- Where a sample stands in its line. -/
def linePos (cols : Bool) (x y : Nat) : Nat := if cols then y else x

theorem planeLines_getD_row {P : Plane} {j : Nat} (hj : j < P.height) :
    (planeLines false P).getD j [] = (List.range P.width).map fun i => planeAt P i j :=
  getD_map_range _ _ _ _ hj

theorem planeLines_getD_col {P : Plane} {i : Nat} (hi : i < P.width) :
    (planeLines true P).getD i [] = (List.range P.height).map fun j => planeAt P i j :=
  getD_map_range _ _ _ _ hi

theorem planeLines_getD_length (cols : Bool) (P : Plane) {l : Nat} (hl : l < (planeLines cols P).length) :
    ((planeLines cols P).getD l []).length = if cols then P.height else P.width := by
  rw [List.getD_eq_getElem _ _ hl]
  exact planeLines_each cols P _ (List.getElem_mem hl)

theorem lineIndex_lt {P : Plane} {x y : Nat} (cols : Bool) (hx : x < P.width) (hy : y < P.height) :
    lineIndex cols x y < (planeLines cols P).length := by
  rw [planeLines_length]
  cases cols <;> assumption

/-- Every sample of a plane, read from its line. -/
theorem planeLines_getD_getD {P : Plane} {x y : Nat} (cols : Bool) (hx : x < P.width) (hy : y < P.height) :
    ((planeLines cols P).getD (lineIndex cols x y) []).getD (linePos cols x y) 0 = planeAt P x y := by
  cases cols with
  | false => exact (congrArg (·.getD x 0) (planeLines_getD_row hy)).trans (getD_map_range _ _ _ _ hx)
  | true => exact (congrArg (·.getD y 0) (planeLines_getD_col hx)).trans (getD_map_range _ _ _ _ hy)

/-- Settles O24: the lines are listed by their index, and a line by the position along it. -/
theorem linesAreRowsOrColumns : Obligations.LinesAreRowsOrColumns := by
  refine ⟨scansColumns_iff, fun P => ⟨⟨planeLines_length false P, fun j hj => ⟨?_, fun x hx => ?_⟩⟩,
    ⟨planeLines_length true P, fun i hi => ⟨?_, fun y hy => ?_⟩⟩⟩⟩
  · exact planeLines_getD_length false P ((planeLines_length false P).symm ▸ hj)
  · exact planeLines_getD_getD false hx hj
  · exact planeLines_getD_length true P ((planeLines_length true P).symm ▸ hi)
  · exact planeLines_getD_getD true hi hy

/-! ## Decoding a line (R112) -/

theorem lineDec_length (kind : DeltaKind) (v : Byte) (q : List Byte) : (lineDec kind v q).length = q.length + 1 := by
  induction q generalizing v with
  | nil => rfl
  | cons b q ih => rw [lineDec, List.length_cons, ih, List.length_cons]

@[simp] theorem lineDec_getD_zero (kind : DeltaKind) (v : Byte) (q : List Byte) : (lineDec kind v q).getD 0 0 = v := by
  cases q <;> rfl

theorem lineDec_getD_succ (kind : DeltaKind) (v : Byte) {q : List Byte} {t : Nat} (ht : t < q.length) :
    (lineDec kind v q).getD (t + 1) 0 = (lineDec kind v q).getD t 0 + deltaStep kind (q.getD t 0) := by
  induction q generalizing v t with
  | nil => cases ht
  | cons b q ih =>
    simp only [lineDec, List.getD_cons_succ]
    cases t with
    | zero => exact lineDec_getD_zero kind _ q
    | succ t => exact ih _ (Nat.lt_of_succ_lt_succ ht)

/-- Settles O25: each delta adds its step to the sample before it. -/
theorem linesDecodeByAddingEachDelta : Obligations.LinesDecodeByAddingEachDelta := by
  intro kind hdr q v
  refine ⟨lineDec_length kind hdr q, lineDec_getD_zero kind hdr q, fun t ht => ?_⟩
  rw [lineDec_getD_succ kind hdr ht, BitVec.toNat_add]
  cases kind with
  | q4 => rw [deltaStep, rep_toNat, lowNibble_toNat]
  | raw8 => rfl

/-! ## Coding a line (R111, R113) -/

/-- What is stored for one wrapped delta: its code as a byte under Q4, itself under RAW8. -/
def codedDelta (kind : DeltaKind) (δ : Byte) : Byte :=
  match kind with
  | .q4 => codeByte (qcode δ)
  | .raw8 => δ

/-- The predecessor the decoder rebuilds from p when a is coded against p. -/
def rebuilt (kind : DeltaKind) (p a : Byte) : Byte := p + deltaStep kind (codedDelta kind (wrappedDelta p a))

theorem rebuilt_raw8 (p a : Byte) : rebuilt .raw8 p a = a := add_sub_cancel p a

theorem rebuilt_q4 (p a : Byte) : rebuilt .q4 p a = recon p (qcode (wrappedDelta p a)) :=
  congrArg (fun c => p + rep c) (lowNibble_codeByte _)

/-- R111 for both delta kinds: the later samples are coded against the rebuilt predecessor. -/
theorem lineDeltas_cons (kind : DeltaKind) (p a : Byte) (rest : List Byte) :
    lineDeltas kind p (a :: rest) = codedDelta kind (wrappedDelta p a) :: lineDeltas kind (rebuilt kind p a) rest := by
  cases kind with
  | q4 => rw [rebuilt_q4]; rfl
  | raw8 => rw [rebuilt_raw8]; rfl

/-- Delta t is coded against sample t of the decoded line. -/
theorem lineDeltas_getD (kind : DeltaKind) (p : Byte) {l : List Byte} {t : Nat} (ht : t < l.length) :
    (lineDeltas kind p l).getD t 0 =
      codedDelta kind (wrappedDelta ((lineDec kind p (lineDeltas kind p l)).getD t 0) (l.getD t 0)) := by
  induction l generalizing p t with
  | nil => cases ht
  | cons a l ih =>
    rw [lineDeltas_cons]
    cases t with
    | zero => rfl
    | succ t => exact ih (rebuilt kind p a) (Nat.lt_of_succ_lt_succ ht)

/-- Under RAW8 the predecessor rebuilt is the true one. -/
theorem lineDec_lineDeltas_raw8 (p : Byte) (l : List Byte) : lineDec .raw8 p (lineDeltas .raw8 p l) = p :: l := by
  induction l generalizing p with
  | nil => rfl
  | cons a l ih =>
    rw [lineDeltas_cons, rebuilt_raw8]
    exact congrArg (p :: ·) ((congrArg (lineDec .raw8 · _) (rebuilt_raw8 p a)).trans (ih a))

/-- Settles O26: each delta is coded against the decoded sample before it, which under RAW8 is the sample itself. -/
theorem linesAreCodedAgainstTheReconstructedPredecessor :
    Obligations.LinesAreCodedAgainstTheReconstructedPredecessor := by
  intro hdr rest line
  refine ⟨fun kind => ⟨rfl, lineDeltas_length kind hdr rest⟩, fun t ht => ?_, fun t ht => ?_⟩
  · have hcode : (lineEnc .q4 line).2.getD t 0 = _ := lineDeltas_getD .q4 hdr ht
    rw [hcode, codedDelta, codeByte_toNat, ← wrappedDelta_toNat]
    exact isQcode_qcode _
  · have hdelta : (lineEnc .raw8 line).2.getD t 0 = _ := lineDeltas_getD .raw8 hdr ht
    rw [hdelta, lineDec_lineDeltas_raw8, ← wrappedDelta_toNat]
    rfl

/-- A line coded and decoded again (R113). -/
def codedLine (kind : DeltaKind) (line : List Byte) : List Byte :=
  lineDec kind (lineEnc kind line).1 (lineEnc kind line).2

theorem codedLine_raw8 {line : List Byte} (h : line ≠ []) : codedLine .raw8 line = line := by
  cases line with
  | nil => exact absurd rfl h
  | cons hdr rest => exact lineDec_lineDeltas_raw8 hdr rest

theorem codedLine_getD_zero (kind : DeltaKind) (line : List Byte) : (codedLine kind line).getD 0 0 = line.getD 0 0 := by
  cases line with
  | nil => rfl
  | cons hdr rest => exact lineDec_getD_zero kind hdr _

/-- A predecessor off by at most 32 is what the next sample is coded against, so no error grows along the line. -/
theorem lineDec_lineDeltas_q4_error {a v : Byte} (hv : (a - v).toNat ≤ 32) (l : List Byte) {t : Nat}
    (ht : t < (a :: l).length) :
    ((a :: l).getD t 0 - (lineDec .q4 v (lineDeltas .q4 v l)).getD t 0).toNat ≤ 32 := by
  induction l generalizing a v t with
  | nil =>
    obtain rfl : t = 0 := Nat.lt_one_iff.1 ht
    exact hv
  | cons b l ih =>
    rw [lineDeltas_cons]
    cases t with
    | zero => exact hv
    | succ t =>
      have hb : (b - rebuilt .q4 v b).toNat ≤ 32 := by
        rw [rebuilt_q4]
        exact toNat_sub_recon_qcode_le v b
      exact ih hb (Nat.lt_of_succ_lt_succ ht)

theorem codedLine_q4_error {line : List Byte} {t : Nat} (ht : t < line.length) :
    (line.getD t 0 - (codedLine .q4 line).getD t 0).toNat ≤ 32 := by
  cases line with
  | nil => cases ht
  | cons hdr rest =>
    have hhdr : (hdr - hdr).toNat ≤ 32 := by simp
    exact lineDec_lineDeltas_q4_error hhdr rest ht

/-- Settles O30: RAW8 rebuilds every sample, and under Q4 the header starts the line without error. -/
theorem lineDecodesWithinTheQuantizerError : Obligations.LineDecodesWithinTheQuantizerError := by
  intro hdr rest line
  refine ⟨codedLine_raw8 (List.cons_ne_nil hdr rest), ?_, codedLine_getD_zero .q4 line, fun t ht => codedLine_q4_error ht⟩
  rw [lineDec_length, lineEnc_length, List.length_cons, Nat.add_sub_cancel]

end Sys2Proof.Machine
end

section
/-! PROOFS. Storage (44_modes.md R114): a stored segment holds each delta where the rule says, is read back exactly, and is
read no further than its own bytes. -/

namespace Sys2Proof.Machine

theorem delta_q4_of_packed {d : Descriptor} (hd : d.legal = true) (hs : d.storage = .packed) : d.delta = .q4 := by
  simp only [Descriptor.legal, Bool.and_eq_true, Bool.or_eq_true] at hd
  simpa [hs] using hd.2

/-- Under Q4 every delta is a code in the low nibble of its byte. -/
def DeltasFit (d : Descriptor) (q : List Byte) : Prop := d.delta = .q4 → ∀ b ∈ q, codeByte (lowNibble b) = b

theorem map_codeByte_lowNibble {d : Descriptor} {q : List Byte} (hq : DeltasFit d q) (h4 : d.delta = .q4) :
    q.map (fun b => codeByte (lowNibble b)) = q :=
  (List.map_congr_left (hq h4)).trans (List.map_id' q)

/-- A packed delta as a number is the code that unpacking gives (R85). -/
theorem storedDelta_packed {d : Descriptor} (hs : d.storage = .packed) {bytes : List Byte} {n i : Nat} (hi : i < n) :
    Rule.storedDelta d bytes i = ((unpack bytes n).getD i 0).toNat := by
  have hlen : i < (unpack bytes n).length := (unpack_length bytes n).symm ▸ hi
  rw [List.getD_eq_getElem _ _ hlen, unpack_getElem hlen]
  simp only [Rule.storedDelta, hs]
  split
  · exact (lowNibble_toNat _).symm
  · exact (highNibble_toNat _).symm

theorem storedDelta_storeDeltas {d : Descriptor} (hd : d.legal = true) {q : List Byte} (hq : DeltasFit d q)
    (more : List Byte) {i : Nat} (hi : i < q.length) :
    Rule.storedDelta d (storeDeltas d q ++ more) i = (q.getD i 0).toNat := by
  cases hs : d.storage with
  | simple => simp only [Rule.storedDelta, storeDeltas, hs, getD_append_first _ _ _ _ hi]
  | packed =>
    have hfit := hq (delta_q4_of_packed hd hs) q[i] (List.getElem_mem hi)
    have hunpack := unpack_pack_append (q.map lowNibble) more
    rw [List.length_map] at hunpack
    simp only [storedDelta_packed hs hi, storeDeltas, hs, hunpack]
    rw [List.getD_eq_getElem _ _ hi, List.getD_eq_getElem _ _ (by simpa using hi), List.getElem_map, ← codeByte_toNat,
      hfit]

theorem loadDeltas_storeDeltas {d : Descriptor} (hd : d.legal = true) {q : List Byte} (hq : DeltasFit d q)
    (more : List Byte) : loadDeltas d (storeDeltas d q ++ more) q.length = q := by
  cases hs : d.storage with
  | simple =>
    cases h4 : d.delta with
    | q4 => simp only [loadDeltas, storeDeltas, hs, h4, List.take_left', map_codeByte_lowNibble hq h4]
    | raw8 => simp only [loadDeltas, storeDeltas, hs, h4, List.take_left']
  | packed =>
    have hunpack := unpack_pack_append (q.map lowNibble) more
    rw [List.length_map] at hunpack
    simp only [loadDeltas, storeDeltas, hs, hunpack, List.map_map]
    exact map_codeByte_lowNibble hq (delta_q4_of_packed hd hs)

/-- LOAD reads SEG(d, n) bytes. -/
theorem loadDeltas_append {d : Descriptor} {bytes : List Byte} {n : Nat} (h : segLen d n ≤ bytes.length)
    (more : List Byte) : loadDeltas d (bytes ++ more) n = loadDeltas d bytes n := by
  cases hs : d.storage with
  | simple =>
    simp only [segLen, hs] at h
    simp only [loadDeltas, hs, List.take_append_of_le_length h]
  | packed =>
    simp only [segLen, hs, ceil2] at h
    simp only [loadDeltas, hs]
    refine congrArg (List.map codeByte) (List.ext_getElem (by simp only [unpack_length]) fun i hi hi' => ?_)
    have hbyte : i / 2 < bytes.length := by
      rw [unpack_length] at hi
      omega
    rw [unpack_getElem hi, unpack_getElem hi', getD_append_first _ _ _ _ hbyte]

end Sys2Proof.Machine
end

section
/-! PROOFS. The planes of the source image (44_modes.md R108): which list they are in each case, and their samples as
numbers. -/

namespace Sys2Proof.Machine

/-! ## The transforms as numbers (R76, R92) -/

theorem yccY_toNat (mode : YccDiv) (r g b : Byte) : (yccY mode r g b).toNat = Rule.luma mode r.toNat g.toNat b.toNat := by
  rw [yccY, sat8_toNat, roundDiv_eq_div _ _ zero_le_four]
  rfl

theorem yccCo_toNat (mode : YccDiv) (r b : Byte) : (yccCo mode r b).toNat = Rule.orange mode r.toNat b.toNat := by
  rw [yccCo, sat8_toNat, roundDiv_eq_div _ _ zero_le_two]
  rfl

theorem yccCg_toNat (mode : YccDiv) (r g b : Byte) :
    (yccCg mode r g b).toNat = Rule.green mode r.toNat g.toNat b.toNat := by
  rw [yccCg, sat8_toNat, roundDiv_eq_div _ _ zero_le_four]
  rfl

/-- The four samples of a block lie in the plane, its edge replicated. -/
theorem planeAt_csub_toNat (mode : CsubRound) {w h i j : Nat} (f : Nat → Nat → Byte) (hi : i < (w + 1) / 2)
    (hj : j < (h + 1) / 2) :
    (planeAt (csub mode (planeOf w h f)) i j).toNat = Rule.csub mode w h (fun x y => (f x y).toNat) i j := by
  have hx0 : 2 * i < w := by omega
  have hy0 : 2 * j < h := by omega
  have hx1 : min (2 * i + 1) (w - 1) < w := by omega
  have hy1 : min (2 * j + 1) (h - 1) < h := by omega
  have hi' : i < ceil2 (planeOf w h f).width := hi
  have hj' : j < ceil2 (planeOf w h f).height := hj
  rw [csub, planeAt_planeOf _ hi' hj', cmean_toNat]
  simp only [planeOf_width, planeOf_height, planeAt_planeOf _ hx0 hy0, planeAt_planeOf _ hx0 hy1,
    planeAt_planeOf _ hx1 hy0, planeAt_planeOf _ hx1 hy1]
  rfl

/-! ## The list of planes -/

section Lists
variable (cfg : Config) {d : Descriptor} {c : Nat} (w h : Nat) (img : Nat → Nat → Nat → Byte)

/-- The full-size luma plane of R108. -/
def sourceY : Plane := planeOf w h fun x y => yccY cfg.yccDiv (img x y 0) (img x y 1) (img x y 2)

/-- The full-size Co plane. -/
def sourceCo : Plane := planeOf w h fun x y => yccCo cfg.yccDiv (img x y 0) (img x y 2)

/-- The full-size Cg plane. -/
def sourceCg : Plane := planeOf w h fun x y => yccCg cfg.yccDiv (img x y 0) (img x y 1) (img x y 2)

/-- A chroma plane as CHROMA asks for it. -/
def atChroma (chroma : Chroma) (P : Plane) : Plane :=
  match chroma with
  | .full => P
  | .sub2x2 => csub cfg.csubRound P

/-- The alpha plane of a four-channel image. -/
def alphaPlanes (c : Nat) : List Plane := if c = 4 then [planeOf w h fun x y => img x y 3] else []

theorem planesEnc_gray (hc : c = 1) : planesEnc cfg d c w h img = [planeOf w h fun x y => img x y 0] := if_pos hc

theorem planesEnc_rgb (hc : c ≠ 1) (hcol : d.color = .rgb) :
    planesEnc cfg d c w h img = (List.range c).map fun k => planeOf w h fun x y => img x y k := by
  simp only [planesEnc, if_neg hc, hcol]

theorem planesEnc_ycocg (hc : c ≠ 1) (hcol : d.color = .ycocg) :
    planesEnc cfg d c w h img =
      [sourceY cfg w h img, atChroma cfg d.chroma (sourceCo cfg w h img), atChroma cfg d.chroma (sourceCg cfg w h img)] ++
        alphaPlanes w h img c := by
  simp only [planesEnc, if_neg hc, hcol]
  cases d.chroma <;> rfl

theorem planesEnc_length (hc : c = 1 ∨ c = 3 ∨ c = 4) : (planesEnc cfg d c w h img).length = c := by
  have hlen := congrArg List.length (planesEnc_sizes cfg d c w h img)
  rwa [List.length_map, planeSizes_length w h hc] at hlen

end Lists

/-- Every plane has the image's size, unless the chroma of a colour image is subsampled. -/
theorem planeSizes_full {d : Descriptor} {c : Nat} (w h : Nat) (hc : c = 1 ∨ c = 3 ∨ c = 4)
    (hfull : c = 1 ∨ d.color = .rgb ∨ d.chroma = .full) : planeSizes d c w h = List.replicate c (w, h) := by
  unfold planeSizes
  split
  · next h1 => rw [h1]; rfl
  · next h1 =>
    cases hcol : d.color with
    | rgb => rfl
    | ycocg =>
      have hchr : d.chroma = .full := by simpa [h1, hcol] using hfull
      rw [hchr]
      obtain rfl | rfl | rfl := hc
      · exact absurd rfl h1
      · rfl
      · rfl

theorem planeSizes_sub2x2 {d : Descriptor} {c : Nat} (w h : Nat) (hc : c = 3 ∨ c = 4) (hcol : d.color = .ycocg)
    (hchr : d.chroma = .sub2x2) :
    planeSizes d c w h = [(w, h), (ceil2 w, ceil2 h), (ceil2 w, ceil2 h)] ++ List.replicate (c - 3) (w, h) := by
  unfold planeSizes
  rw [hcol, hchr]
  obtain rfl | rfl := hc <;> rfl

/-- Settles O23: the list of planes in each case, its sizes being those compute_length uses. -/
theorem planesOfTheSourceImage : Obligations.PlanesOfTheSourceImage := by
  intro cfg d c w h img hlegal hacc hw hh planes sizes s Y CO CG
  have hc := accepts_channels hacc
  have hsizes : sizes = planeSizes d c w h := planesEnc_sizes cfg d c w h img
  refine ⟨fun h1 => ?_, fun h1 hcol => ?_, fun h1 hcol => ?_⟩
  · have hplanes : planes = _ := planesEnc_gray cfg w h img h1
    refine ⟨by rw [hsizes, planeSizes_full w h hc (.inl h1), h1]; rfl, fun x y hx hy => ?_⟩
    rw [hplanes]
    exact congrArg BitVec.toNat (planeAt_planeOf _ hx hy)
  · have hplanes : planes = _ := planesEnc_rgb cfg w h img h1 hcol
    refine ⟨by rw [hsizes, planeSizes_full w h hc (.inr (.inl hcol))], fun x y k hx hy hk => ?_⟩
    rw [hplanes, Rule.sampleOf, getD_map_range _ _ _ _ hk]
    exact congrArg BitVec.toNat (planeAt_planeOf _ hx hy)
  · have hplanes : planes = _ := planesEnc_ycocg cfg w h img h1 hcol
    refine ⟨fun x y hx hy => ?_, fun h4 x y hx hy => ?_, fun hchr => ⟨?_, fun x y hx hy => ⟨?_, ?_⟩⟩,
      fun hchr => ⟨?_, fun i j hi hj => ⟨?_, ?_⟩⟩⟩
    · rw [hplanes]
      exact (congrArg BitVec.toNat (planeAt_planeOf _ hx hy)).trans (yccY_toNat ..)
    · rw [hplanes, alphaPlanes, if_pos h4]
      exact congrArg BitVec.toNat (planeAt_planeOf _ hx hy)
    · rw [hsizes, planeSizes_full w h hc (.inr (.inr hchr))]
    · rw [hplanes, hchr]
      exact (congrArg BitVec.toNat (planeAt_planeOf _ hx hy)).trans (yccCo_toNat ..)
    · rw [hplanes, hchr]
      exact (congrArg BitVec.toNat (planeAt_planeOf _ hx hy)).trans (yccCg_toNat ..)
    · rw [hsizes, planeSizes_sub2x2 w h (by omega) hcol hchr]
      rfl
    · rw [hplanes, hchr]
      refine (planeAt_csub_toNat cfg.csubRound _ hi hj).trans ?_
      simp only [yccCo_toNat]
      rfl
    · rw [hplanes, hchr]
      refine (planeAt_csub_toNat cfg.csubRound _ hi hj).trans ?_
      simp only [yccCg_toNat]
      rfl

end Sys2Proof.Machine
end

section
/-! PROOFS. Streams and lengths (44_modes.md R114 to R118, R123): a row of a ROW stream and a plane of the others are header
bytes and one stored segment, and the stream is their concatenation. -/

namespace Sys2Proof.Machine

/-! ## Pieces of a stream -/

/-- From the start of piece i on, a concatenation of equally long pieces is that piece and the rest. -/
theorem flatMap_drop {α β : Type} {f : α → List β} {n : Nat} {l : List α} {i : Nat} (hi : i < l.length)
    (h : ∀ a ∈ l, (f a).length = n) : ∃ rest, (l.flatMap f).drop (i * n) = f l[i] ++ rest :=
  ⟨_, flatMap_piece f n l i hi h ▸ (List.take_append_drop n _).symm⟩

theorem getD_map_append {α β : Type} (f : α → β) {l : List α} (m : List β) {i : Nat} (hi : i < l.length) (z : β) (a : α) :
    (l.map f ++ m).getD i z = f (l.getD i a) := by
  rw [getD_append_first _ _ _ _ (by rwa [List.length_map])]
  simp [List.getD, hi]

/-- Element j of piece i lies within n pieces of length m. -/
theorem mul_add_lt_mul {i n j m : Nat} (hi : i < n) (hj : j < m) : i * m + j < n * m := by
  rw [Nat.mul_comm i m]
  exact Nat.mul_add_lt_mul_of_lt_of_lt hi hj

/-- Every delta of a line fits its storage. -/
theorem lineEnc_deltasFit (d : Descriptor) (line : List Byte) : DeltasFit d (lineEnc d.delta line).2 := by
  intro h4 b hb
  rw [h4] at hb
  cases line with
  | nil => cases hb
  | cons hdr rest => exact lineDeltas_codes hdr rest b hb

/-! ## A row of a ROW stream (R115) -/

/-- Row y of plane k, as ROW_STREAM codes it. -/
def rowLine (planes : List Plane) (w y k : Nat) : List Byte :=
  (List.range w).map fun x => planeAt (planes.getD k (planeOf 0 0 fun _ _ => 0)) x y

/-- The deltas of row y, pixel by pixel. -/
def rowDeltas (kind : DeltaKind) (c w : Nat) (planes : List Plane) (y : Nat) : List Byte :=
  (List.range (w - 1)).flatMap fun t => (List.range c).map fun k => (lineEnc kind (rowLine planes w y k)).2.getD t 0

theorem lineEnc_rowLine_length (kind : DeltaKind) (planes : List Plane) (w y k : Nat) :
    (lineEnc kind (rowLine planes w y k)).2.length = w - 1 := by
  rw [lineEnc_length, rowLine, List.length_map, List.length_range]

section Row
variable (d : Descriptor) (c w : Nat) (planes : List Plane) (y : Nat)

theorem rowStreamAt_eq : rowStreamAt d c w planes y =
    (List.range c).map (fun k => (lineEnc d.delta (rowLine planes w y k)).1) ++
      storeDeltas d (rowDeltas d.delta c w planes y) := by
  simp only [rowStreamAt, List.map_map]
  rfl

theorem rowDeltas_length : (rowDeltas d.delta c w planes y).length = (w - 1) * c := by
  rw [rowDeltas, flatMap_length_const _ _ c fun t _ => by rw [List.length_map, List.length_range], List.length_range]

theorem rowDeltas_getD {t k : Nat} (ht : t < w - 1) (hk : k < c) :
    (rowDeltas d.delta c w planes y).getD (t * c + k) 0 = (lineEnc d.delta (rowLine planes w y k)).2.getD t 0 := by
  rw [rowDeltas, flatMap_getD _ c _ _ _ _ (by rwa [List.length_range]) hk fun t _ => by
    rw [List.length_map, List.length_range], getD_map_range _ _ _ _ hk, List.getElem_range]

theorem rowDeltas_deltasFit : DeltasFit d (rowDeltas d.delta c w planes y) := by
  intro h4 b hb
  obtain ⟨t, ht, hb⟩ := List.mem_flatMap.1 hb
  obtain ⟨k, -, rfl⟩ := List.mem_map.1 hb
  have hlen : t < (lineEnc d.delta (rowLine planes w y k)).2.length := by
    rw [lineEnc_rowLine_length]
    exact List.mem_range.1 ht
  rw [List.getD_eq_getElem _ _ hlen]
  exact lineEnc_deltasFit d _ h4 _ (List.getElem_mem hlen)

end Row

theorem encodeImage_row (cfg : Config) {d : Descriptor} (c w h : Nat) (img : Nat → Nat → Nat → Byte)
    (hl : d.layout = .row) : encodeImage cfg d c w h img = rowStream d c w h (planesEnc cfg d c w h img) := by
  simp only [encodeImage, hl]

/-- From its start on, a ROW stream is row y and the rest. -/
theorem rowStream_drop (d : Descriptor) (c w : Nat) {h : Nat} (planes : List Plane) {y : Nat} (hy : y < h) :
    ∃ rest, (rowStream d c w h planes).drop (y * rowLen d c w) = rowStreamAt d c w planes y ++ rest := by
  have hi : y < (List.range h).length := by rwa [List.length_range]
  obtain ⟨rest, hrest⟩ := flatMap_drop (f := rowStreamAt d c w planes) (n := rowLen d c w) hi
    fun y _ => rowStreamAt_length d c w planes y
  rw [List.getElem_range] at hrest
  exact ⟨rest, hrest⟩

/-- A row of the statement's samples is the row ROW_STREAM codes. -/
theorem map_sampleOf (planes : List Plane) (w y k : Nat) :
    ((List.range w).map fun x => BitVec.ofNat 8 (Rule.sampleOf planes k x y)) = rowLine planes w y k :=
  List.map_congr_left fun _ _ => (BitVec.ofNat_toNat 8 _).trans (BitVec.setWidth_eq _)

/-- Settles O27: row y is a piece of the stream, and delta t of channel k is number t·c + k of its segment. `Rule.seg` and
`segLen` are one function by definition, so the statement's offsets are those of the pieces. -/
theorem rowStreamsInterleaveThePixels : Obligations.RowStreamsInterleaveThePixels := by
  intro cfg d c w h img hlegal hacc hw hh hl stream planes coded y hy row
  have hcoded : ∀ k, coded y k = lineEnc d.delta (rowLine planes w y k) := fun k =>
    congrArg (lineEnc d.delta) (map_sampleOf planes w y k)
  obtain ⟨rest, hrest⟩ := rowStream_drop d c w planes hy
  have hrow : row = rowStreamAt d c w planes y ++ rest :=
    (congrArg (List.drop _) (encodeImage_row cfg c w h img hl)).trans hrest
  rw [rowStreamAt_eq, List.append_assoc] at hrow
  have hhdrs : ∀ k, k < c → k < (List.range c).length := fun k hk => by rwa [List.length_range]
  refine ⟨fun k hk => ?_, fun x k hx hxw hk => ?_⟩
  · rw [hcoded, hrow, getD_map_append _ _ (hhdrs k hk) _ 0, List.getD_eq_getElem _ _ (hhdrs k hk), List.getElem_range]
  · have ht : x - 1 < w - 1 := by omega
    rw [hcoded, hrow, List.drop_left' (by rw [List.length_map, List.length_range]),
      storedDelta_storeDeltas hlegal (rowDeltas_deltasFit d c w planes y) _
        (by rw [rowDeltas_length]; exact mul_add_lt_mul ht hk),
      rowDeltas_getD d c w planes y ht hk]

/-! ## A plane of a PLANAR or ADAPTIVE stream (R116) -/

/-- The deltas of a plane, line by line. -/
def planeDeltas (kind : DeltaKind) (cols : Bool) (P : Plane) : List Byte :=
  (planeLines cols P).flatMap fun line => (lineEnc kind line).2

/-- The number of samples of each line. -/
def lineLen (cols : Bool) (P : Plane) : Nat := if cols then P.height else P.width

section Plane
variable (d : Descriptor) (cols : Bool) (P : Plane)

theorem planeStream_eq : planeStream d cols P =
    (planeLines cols P).map (fun line => (lineEnc d.delta line).1) ++ storeDeltas d (planeDeltas d.delta cols P) := by
  simp only [planeStream, List.map_map, List.flatMap_map]
  rfl

theorem lineEnc_planeLine_length : ∀ line ∈ planeLines cols P, (lineEnc d.delta line).2.length = lineLen cols P - 1 := by
  intro line hline
  rw [lineEnc_length, planeLines_each cols P line hline, lineLen]

theorem planeDeltas_length :
    (planeDeltas d.delta cols P).length = (planeLines cols P).length * (lineLen cols P - 1) :=
  flatMap_length_const _ _ _ (lineEnc_planeLine_length d cols P)

/-- The deltas of line l. -/
theorem planeDeltas_piece {l : Nat} (hl : l < (planeLines cols P).length) :
    ((planeDeltas d.delta cols P).drop (l * (lineLen cols P - 1))).take (lineLen cols P - 1) =
      (lineEnc d.delta ((planeLines cols P).getD l [])).2 := by
  rw [List.getD_eq_getElem _ _ hl]
  exact flatMap_piece _ _ _ _ hl (lineEnc_planeLine_length d cols P)

theorem planeDeltas_getD {l t : Nat} (hl : l < (planeLines cols P).length) (ht : t < lineLen cols P - 1) :
    (planeDeltas d.delta cols P).getD (l * (lineLen cols P - 1) + t) 0 =
      (lineEnc d.delta ((planeLines cols P).getD l [])).2.getD t 0 := by
  rw [List.getD_eq_getElem _ _ hl]
  exact flatMap_getD _ _ _ _ _ _ hl ht (lineEnc_planeLine_length d cols P)

theorem planeDeltas_deltasFit : DeltasFit d (planeDeltas d.delta cols P) := by
  intro h4 b hb
  obtain ⟨line, -, hb⟩ := List.mem_flatMap.1 hb
  exact lineEnc_deltasFit d line h4 b hb

end Plane

theorem encodeImage_planes (cfg : Config) {d : Descriptor} (c w h : Nat) (img : Nat → Nat → Nat → Byte)
    (hl : d.layout ≠ .row) : encodeImage cfg d c w h img =
      (planesEnc cfg d c w h img).flatMap (planeStream d (scansColumns d w h)) := by
  unfold encodeImage
  cases hlay : d.layout with
  | row => exact absurd hlay hl
  | planar => rfl
  | adaptive => rfl

theorem flatMap_planeStream_length (d : Descriptor) (cols : Bool) (planes : List Plane) :
    (planes.flatMap (planeStream d cols)).length =
      (planes.map fun P => planeLen d cols (P.width, P.height)).sum := by
  rw [List.length_flatMap]
  exact congrArg List.sum (List.map_congr_left fun P _ => planeStream_length d cols P)

/-- Settles O28: the plane's stream starts after those before it, and delta t of line l is number l·(n − 1) + t of its
segment. -/
theorem planeStreamsPutTheHeadersFirst : Obligations.PlaneStreamsPutTheHeadersFirst := by
  intro cfg d c w h img hlegal hacc hw hh hl stream planes cols size before after P hplanes block lines n l hlt
  have hstream : stream = before.flatMap (planeStream d cols) ++
      (planeStream d cols P ++ after.flatMap (planeStream d cols)) := by
    rw [← List.flatMap_cons, ← List.flatMap_append, ← hplanes]
    exact encodeImage_planes cfg c w h img hl
  have hblock : block = planeStream d cols P ++ after.flatMap (planeStream d cols) :=
    (congrArg (List.drop _) hstream).trans (List.drop_left' (flatMap_planeStream_length d cols before))
  rw [planeStream_eq, List.append_assoc] at hblock
  refine ⟨by rw [hblock, getD_map_append _ _ hlt _ []], fun t ht => ?_⟩
  have hin : l * (n - 1) + t < lines.length * (n - 1) := mul_add_lt_mul hlt ht
  rw [hblock, List.drop_left' (by rw [List.length_map]),
    storedDelta_storeDeltas hlegal (planeDeltas_deltasFit d cols P) _ (hin.trans_eq (planeDeltas_length d cols P).symm)]
  exact congrArg BitVec.toNat (planeDeltas_getD d cols P hlt ht)

/-! ## compute_length (R118, R123) -/

/-- Settles O31: each stream has the length of its headers and segments. -/
theorem encodedLengthIsComputeLength : Obligations.EncodedLengthIsComputeLength :=
  fun cfg d c w h f _ _ _ _ => encodeImage_length cfg d c w h f

/-- m headers and m·(n − 1) unpacked deltas. -/
theorem headers_add_segLen_simple {d : Descriptor} (hs : d.storage = .simple) (m : Nat) {n : Nat} (hn : 1 ≤ n) :
    m + segLen d (m * (n - 1)) = m * n := by
  simp only [segLen, hs]
  rw [Nat.add_comm, ← Nat.mul_succ, Nat.succ_eq_add_one, Nat.sub_add_cancel hn]

theorem planeLen_simple {d : Descriptor} (hs : d.storage = .simple) (cols : Bool) {w h : Nat} (hw : 1 ≤ w)
    (hh : 1 ≤ h) : planeLen d cols (w, h) = w * h := by
  cases cols with
  | true => exact headers_add_segLen_simple hs w hh
  | false => exact (headers_add_segLen_simple hs h hw).trans (Nat.mul_comm h w)

theorem computeLength_row {d : Descriptor} (c w h : Nat) (hl : d.layout = .row) :
    computeLength d c w h = h * rowLen d c w := by
  simp only [computeLength, hl]

theorem computeLength_planes {d : Descriptor} (c w h : Nat) (hl : d.layout ≠ .row) :
    computeLength d c w h = ((planeSizes d c w h).map (planeLen d (scansColumns d w h))).sum := by
  unfold computeLength
  cases hlay : d.layout with
  | row => exact absurd hlay hl
  | planar => rfl
  | adaptive => rfl

/-- Settles O35: every row takes w·c bytes, every plane w·h. -/
theorem simpleUnsubsampledLengthIsTheImageSize : Obligations.SimpleUnsubsampledLengthIsTheImageSize := by
  intro d c w h hs hfull hacc hw hh
  by_cases hl : d.layout = .row
  · rw [computeLength_row c w h hl, rowLen, Nat.mul_comm (w - 1), headers_add_segLen_simple hs c hw]
    ring
  · rw [computeLength_planes c w h hl, planeSizes_full w h (accepts_channels hacc) (.inr (.inr hfull)),
      List.map_replicate, List.sum_replicate, planeLen_simple hs _ hw hh, smul_eq_mul, Nat.mul_comm]

end Sys2Proof.Machine
end

section
/-! PROOFS. Decoding a stream into planes (44_modes.md R119, R121, R122): the sizes of the planes, the bytes that are read, and
that every plane sample is the one its coded line gives. -/

namespace Sys2Proof.Machine

/-- The size (wp, hp) of a plane. -/
def planeSize (P : Plane) : Nat × Nat := (P.width, P.height)

/-- Plane k of a list. -/
def planeNo (planes : List Plane) (k : Nat) : Plane := planes.getD k { width := 0, height := 0, rows := [] }

theorem planeSize_planeNo (planes : List Plane) (k : Nat) :
    planeSize (planeNo planes k) = (planes.map planeSize).getD k (0, 0) :=
  (List.getD_map planes { width := 0, height := 0, rows := [] } planeSize).symm

theorem chroma_full_of_row {d : Descriptor} (hd : d.legal = true) (hl : d.layout = .row) : d.chroma = .full := by
  simp only [Descriptor.legal, Bool.and_eq_true] at hd
  cases hchr : d.chroma with
  | full => rfl
  | sub2x2 => simp [hchr, hl] at hd

theorem decodePlanes_row {d : Descriptor} (c w h : Nat) (bytes : List Byte) (hl : d.layout = .row) :
    decodePlanes d c w h bytes = rowPlanes d c w h bytes := by
  simp only [decodePlanes, hl]

theorem decodePlanes_planes {d : Descriptor} (c w h : Nat) (bytes : List Byte) (hl : d.layout ≠ .row) :
    decodePlanes d c w h bytes = planesDec d (scansColumns d w h) (planeSizes d c w h) bytes := by
  unfold decodePlanes
  cases hlay : d.layout with
  | row => exact absurd hlay hl
  | planar => rfl
  | adaptive => rfl

/-! ## The sizes of the decoded planes -/

theorem planesDec_sizes (d : Descriptor) (cols : Bool) (sizes : List (Nat × Nat)) (bytes : List Byte) :
    (planesDec d cols sizes bytes).map planeSize = sizes := by
  induction sizes generalizing bytes with
  | nil => rfl
  | cons size sizes ih =>
    obtain ⟨hw, hh⟩ := planeDec_size d cols size bytes
    rw [planesDec, List.map_cons, ih, planeSize, hw, hh]

theorem decodePlanes_sizes {d : Descriptor} {c : Nat} (hd : d.legal = true) (hc : c = 1 ∨ c = 3 ∨ c = 4) (w h : Nat)
    (bytes : List Byte) : (decodePlanes d c w h bytes).map planeSize = planeSizes d c w h := by
  by_cases hl : d.layout = .row
  · rw [decodePlanes_row c w h bytes hl, planeSizes_full w h hc (.inr (.inr (chroma_full_of_row hd hl))), rowPlanes,
      List.map_map]
    exact List.map_const'.trans (congrArg (List.replicate · (w, h)) List.length_range)
  · rw [decodePlanes_planes c w h bytes hl, planesDec_sizes]

/-- In a ROW stream every plane has the image's size. -/
theorem planesEnc_size_of_row (cfg : Config) {d : Descriptor} {c w h : Nat} (img : Nat → Nat → Nat → Byte)
    (hd : d.legal = true) (hc : c = 1 ∨ c = 3 ∨ c = 4) (hl : d.layout = .row) {P : Plane}
    (hP : P ∈ planesEnc cfg d c w h img) : P.width = w ∧ P.height = h := by
  have hmem := List.mem_map_of_mem (f := fun P : Plane => (P.width, P.height)) hP
  rw [planesEnc_sizes, planeSizes_full w h hc (.inr (.inr (chroma_full_of_row hd hl)))] at hmem
  exact Prod.mk.inj (List.eq_of_mem_replicate hmem)

/-! ## The bytes that are read (R119) -/

theorem le_length_drop {α : Type} {l : List α} {m n : Nat} (h : m + n ≤ l.length) : n ≤ (l.drop m).length := by
  rw [List.length_drop]
  exact Nat.le_sub_of_add_le' h

theorem rowDec_append {d : Descriptor} {c w : Nat} {bytes : List Byte} (h : rowLen d c w ≤ bytes.length)
    (more : List Byte) : rowDec d c w (bytes ++ more) = rowDec d c w bytes := by
  have hc : c ≤ bytes.length := (Nat.le_add_right _ _).trans h
  simp only [rowDec, List.drop_append_of_le_length hc, loadDeltas_append (le_length_drop h)]
  refine List.map_congr_left fun k hk => ?_
  rw [getD_append_first _ _ _ _ ((List.mem_range.1 hk).trans_le hc)]

theorem rowPlanes_append {d : Descriptor} {c w h : Nat} {bytes : List Byte} (hlen : bytes.length = h * rowLen d c w)
    (more : List Byte) : rowPlanes d c w h (bytes ++ more) = rowPlanes d c w h bytes := by
  have hrows : ∀ y ∈ List.range h, rowDec d c w ((bytes ++ more).drop (y * rowLen d c w)) =
      rowDec d c w (bytes.drop (y * rowLen d c w)) := by
    intro y hy
    have hend : (y + 1) * rowLen d c w ≤ bytes.length := by
      rw [hlen]
      exact Nat.mul_le_mul_right _ (List.mem_range.1 hy)
    rw [Nat.succ_mul] at hend
    rw [List.drop_append_of_le_length ((Nat.le_add_right _ _).trans hend)]
    exact rowDec_append (le_length_drop hend) more
  simp only [rowPlanes, List.map_congr_left hrows]

/-- The lines of a plane as DEC reads them: m lines of n samples. -/
def decodedLines (d : Descriptor) (m n : Nat) (bytes : List Byte) : List (List Byte) :=
  (List.range m).map fun l => lineDec d.delta (bytes.getD l 0)
    (((loadDeltas d (bytes.drop m) (m * (n - 1))).drop (l * (n - 1))).take (n - 1))

theorem planeDec_rows (d : Descriptor) (w h : Nat) (bytes : List Byte) :
    planeDec d false (w, h) bytes = { width := w, height := h, rows := decodedLines d h w bytes } := rfl

theorem planeDec_cols (d : Descriptor) (w h : Nat) (bytes : List Byte) :
    planeDec d true (w, h) bytes = planeOf w h fun x y => ((decodedLines d w h bytes).getD x []).getD y 0 := rfl

theorem decodedLines_append {d : Descriptor} {m n : Nat} {bytes : List Byte}
    (h : m + segLen d (m * (n - 1)) ≤ bytes.length) (more : List Byte) :
    decodedLines d m n (bytes ++ more) = decodedLines d m n bytes := by
  have hm : m ≤ bytes.length := (Nat.le_add_right _ _).trans h
  simp only [decodedLines, List.drop_append_of_le_length hm, loadDeltas_append (le_length_drop h)]
  refine List.map_congr_left fun l hl => ?_
  rw [getD_append_first _ _ _ _ ((List.mem_range.1 hl).trans_le hm)]

theorem planeDec_append {d : Descriptor} {cols : Bool} {size : Nat × Nat} {bytes : List Byte}
    (h : planeLen d cols size ≤ bytes.length) (more : List Byte) :
    planeDec d cols size (bytes ++ more) = planeDec d cols size bytes := by
  obtain ⟨wp, hp⟩ := size
  cases cols with
  | false => rw [planeDec_rows, planeDec_rows, decodedLines_append h more]
  | true => rw [planeDec_cols, planeDec_cols, decodedLines_append h more]

theorem planesDec_append {d : Descriptor} {cols : Bool} {sizes : List (Nat × Nat)} {bytes : List Byte}
    (h : (sizes.map (planeLen d cols)).sum ≤ bytes.length) (more : List Byte) :
    planesDec d cols sizes (bytes ++ more) = planesDec d cols sizes bytes := by
  induction sizes generalizing bytes with
  | nil => rfl
  | cons size sizes ih =>
    rw [List.map_cons, List.sum_cons] at h
    have hfirst : planeLen d cols size ≤ bytes.length := (Nat.le_add_right _ _).trans h
    rw [planesDec, planesDec, planeDec_append hfirst, List.drop_append_of_le_length hfirst, ih (le_length_drop h)]

/-- Settles O37: each row or plane reads its own bytes, which compute_length counts. -/
theorem decodeIgnoresBytesPastComputeLength : Obligations.DecodeIgnoresBytesPastComputeLength := by
  intro d c w h bytes more hlegal hacc hw hh hlen
  refine congrArg (pixelsDec d c w h) ?_
  by_cases hl : d.layout = .row
  · rw [computeLength_row c w h hl] at hlen
    rw [decodePlanes_row c w h _ hl, decodePlanes_row c w h _ hl, rowPlanes_append hlen]
  · rw [computeLength_planes c w h hl] at hlen
    rw [decodePlanes_planes c w h _ hl, decodePlanes_planes c w h _ hl, planesDec_append hlen.ge]

/-! ## Decoding what ENC gives (R121, R122) -/

/-- A row of a ROW stream decodes to the coded line of each channel, whatever follows it. -/
theorem rowDec_rowStreamAt {d : Descriptor} (hd : d.legal = true) (c w : Nat) (planes : List Plane) (y : Nat)
    (more : List Byte) : rowDec d c w (rowStreamAt d c w planes y ++ more) =
      (List.range c).map fun k => codedLine d.delta (rowLine planes w y k) := by
  have hload := loadDeltas_storeDeltas hd (rowDeltas_deltasFit d c w planes y) more
  rw [rowDeltas_length] at hload
  rw [rowStreamAt_eq, List.append_assoc]
  unfold rowDec
  rw [List.drop_left' (by rw [List.length_map, List.length_range]), hload]
  refine List.map_congr_left fun k hk => ?_
  have hk' : k < (List.range c).length := by rwa [List.length_range, ← List.mem_range]
  rw [getD_map_append _ _ hk' _ 0, List.getD_eq_getElem _ _ hk', List.getElem_range, codedLine]
  congr 1
  refine List.ext_getElem (by rw [List.length_map, List.length_range, lineEnc_rowLine_length]) fun t ht ht' => ?_
  have htw : t < w - 1 := by rwa [lineEnc_rowLine_length] at ht'
  rw [List.getElem_map, List.getElem_range, rowDeltas_getD d c w planes y htw (List.mem_range.1 hk),
    List.getD_eq_getElem _ _ ht']

/-- A plane's stream decodes to its coded lines, whatever follows it. -/
theorem decodedLines_planeStream {d : Descriptor} (hd : d.legal = true) (cols : Bool) (P : Plane) (more : List Byte) :
    decodedLines d (planeLines cols P).length (lineLen cols P) (planeStream d cols P ++ more) =
      (planeLines cols P).map (codedLine d.delta) := by
  have hload := loadDeltas_storeDeltas hd (planeDeltas_deltasFit d cols P) more
  rw [planeDeltas_length] at hload
  rw [planeStream_eq, List.append_assoc]
  unfold decodedLines
  rw [List.drop_left' (by rw [List.length_map]), hload]
  refine List.ext_getElem (by simp only [List.length_map, List.length_range]) fun l hl hl' => ?_
  rw [List.length_map] at hl'
  rw [List.getElem_map, List.getElem_range, getD_map_append _ _ hl' _ [], planeDeltas_piece d cols P hl', List.getElem_map,
    List.getD_eq_getElem _ _ hl', codedLine]

/-- Sample (x, y) of a plane coded line by line and decoded again. -/
def codedSample (kind : DeltaKind) (cols : Bool) (P : Plane) (x y : Nat) : Byte :=
  (codedLine kind ((planeLines cols P).getD (lineIndex cols x y) [])).getD (linePos cols x y) 0

theorem linePos_eq_zero (cols : Bool) (x y : Nat) : linePos cols x y = 0 ↔ if cols then y = 0 else x = 0 := by
  cases cols <;> rfl

section Plane
variable {P : Plane} {x y : Nat} (hx : x < P.width) (hy : y < P.height)
include hx hy

theorem planeAt_planeDec_planeStream {d : Descriptor} (hd : d.legal = true) (cols : Bool) (more : List Byte) :
    planeAt (planeDec d cols (P.width, P.height) (planeStream d cols P ++ more)) x y = codedSample d.delta cols P x y := by
  have hlines := decodedLines_planeStream hd cols P more
  rw [planeLines_length] at hlines
  have hline : ((planeLines cols P).map (codedLine d.delta)).getD (lineIndex cols x y) [] =
      codedLine d.delta ((planeLines cols P).getD (lineIndex cols x y) []) := by
    simpa using getD_map_append (codedLine d.delta) [] (lineIndex_lt cols hx hy) [] []
  cases cols with
  | false =>
    rw [planeDec_rows]
    exact congrArg (·.getD x 0) ((congrArg (·.getD y []) hlines).trans hline)
  | true =>
    rw [planeDec_cols, planeAt_planeOf _ hx hy]
    exact congrArg (·.getD y 0) ((congrArg (·.getD x []) hlines).trans hline)

/-- R122: the header of a line is exact. -/
theorem codedSample_header (kind : DeltaKind) {cols : Bool} (hpos : linePos cols x y = 0) :
    codedSample kind cols P x y = planeAt P x y := by
  rw [codedSample, ← planeLines_getD_getD cols hx hy, hpos, codedLine_getD_zero]

theorem linePos_lt (cols : Bool) : linePos cols x y < ((planeLines cols P).getD (lineIndex cols x y) []).length := by
  rw [planeLines_getD_length cols P (lineIndex_lt cols hx hy)]
  cases cols <;> assumption

theorem codedSample_raw8 (cols : Bool) : codedSample .raw8 cols P x y = planeAt P x y := by
  have hline := linePos_lt hx hy cols
  rw [codedSample, codedLine_raw8 (List.ne_nil_of_length_pos (Nat.zero_lt_of_lt hline)), planeLines_getD_getD cols hx hy]

theorem codedSample_q4_error (cols : Bool) : (planeAt P x y - codedSample .q4 cols P x y).toNat ≤ 32 := by
  rw [← planeLines_getD_getD cols hx hy]
  exact codedLine_q4_error (linePos_lt hx hy cols)

end Plane

/-- Every sample of every decoded plane, in every layout and storage. -/
theorem planeAt_decodePlanes_encodeImage (cfg : Config) {d : Descriptor} {c w h : Nat} (img : Nat → Nat → Nat → Byte)
    (hd : d.legal = true) (hc : c = 1 ∨ c = 3 ∨ c = 4) {k : Nat} (hk : k < (planesEnc cfg d c w h img).length) {x y : Nat}
    (hx : x < (planesEnc cfg d c w h img)[k].width) (hy : y < (planesEnc cfg d c w h img)[k].height) :
    planeAt (planeNo (decodePlanes d c w h (encodeImage cfg d c w h img)) k) x y =
      codedSample d.delta (scansColumns d w h) (planesEnc cfg d c w h img)[k] x y := by
  by_cases hl : d.layout = .row
  · obtain ⟨hwidth, hheight⟩ := planesEnc_size_of_row cfg img hd hc hl (List.getElem_mem hk)
    have hyh : y < h := hheight ▸ hy
    have hkc : k < c := by rwa [planesEnc_length cfg w h img hc] at hk
    have hcols : scansColumns d w h = false := by simp [scansColumns, hl]
    obtain ⟨rest, hrest⟩ := rowStream_drop d c w (planesEnc cfg d c w h img) hyh
    have hline : rowLine (planesEnc cfg d c w h img) w y k = (planeLines false (planesEnc cfg d c w h img)[k]).getD y [] := by
      rw [planeLines_getD_row hy, hwidth, rowLine, List.getD_eq_getElem _ _ hk]
    rw [decodePlanes_row c w h _ hl, encodeImage_row cfg c w h img hl, rowPlanes, planeNo, getD_map_range _ _ _ _ hkc, hcols,
      codedSample, lineIndex, linePos, planeAt]
    simp only [List.map_map, getD_map_range _ _ _ _ hyh, Function.comp_apply, hrest, rowDec_rowStreamAt hd,
      getD_map_range _ _ _ _ hkc, hline]
    rfl
  · obtain ⟨rest, hrest⟩ := planesDec_getD (d := d) (scansColumns d w h) (planesEnc cfg d c w h img) [] k hk
      { width := 0, height := 0, rows := [] }
    rw [planesEnc_sizes, List.append_nil] at hrest
    rw [decodePlanes_planes c w h _ hl, encodeImage_planes cfg c w h img hl, planeNo, hrest,
      planeAt_planeDec_planeStream hx hy hd]

/-- Settles O33: the planes have the sizes of the coded ones, and their samples are those of the coded lines. -/
theorem quantizedPlanesDecodeWithin32 : Obligations.QuantizedPlanesDecodeWithin32 := by
  intro cfg d c w h img hlegal hacc h4 hw hh planes back
  have hc := accepts_channels hacc
  have hsizes : back.map planeSize = planes.map planeSize :=
    (decodePlanes_sizes hlegal hc w h _).trans (planesEnc_sizes cfg d c w h img).symm
  have hlen : back.length = planes.length := by simpa using congrArg List.length hsizes
  refine ⟨hlen, fun k hk => ?_⟩
  intro P Q
  have hP : P = planes[k] := List.getD_eq_getElem _ _ hk
  have hsize : planeSize Q = planeSize P :=
    (planeSize_planeNo back k).trans (hsizes ▸ (planeSize_planeNo planes k).symm)
  obtain ⟨hwidth, hheight⟩ := Prod.mk.inj hsize
  refine ⟨hwidth, hheight, fun x y hx hy => ?_⟩
  rw [hP] at hx hy ⊢
  have hsample : planeAt Q x y = codedSample .q4 (scansColumns d w h) planes[k] x y :=
    h4 ▸ planeAt_decodePlanes_encodeImage cfg img hlegal hc hk hx hy
  rw [hsample]
  refine ⟨codedSample_q4_error hx hy _, fun hpos => codedSample_header hx hy .q4 ((linePos_eq_zero ..).2 hpos)⟩

end Sys2Proof.Machine
end

section
/-! PROOFS. The pixels of the decoded planes (44_modes.md R120, R121, R122): where each stands in the output, and the error of
gray and RGB images, whose pixels are plane samples. -/

namespace Sys2Proof.Machine

/-! ## The pixels of a list of planes (R120, R126) -/

/-- A chroma plane at full size. -/
def fullChroma (d : Descriptor) (w h : Nat) (P : Plane) : Plane :=
  match d.chroma with
  | .sub2x2 => cinterp P w h
  | .full => P

/-- The samples of one pixel. -/
def pixelOf (d : Descriptor) (c w h : Nat) (planes : List Plane) (x y : Nat) : List Byte :=
  pixelDec d c (planeNo planes) (fullChroma d w h (planeNo planes 1)) (fullChroma d w h (planeNo planes 2)) x y

theorem pixelsDec_eq (d : Descriptor) (c w h : Nat) (planes : List Plane) : pixelsDec d c w h planes =
    (List.range h).flatMap fun y => (List.range w).flatMap fun x => pixelOf d c w h planes x y := by
  unfold pixelsDec pixelOf fullChroma
  cases d.chroma <;> rfl

section Pixels
variable {d : Descriptor} {c : Nat} (w h : Nat) (planes : List Plane)

theorem pixelOf_length (hacc : Rule.accepts d c) (x y : Nat) : (pixelOf d c w h planes x y).length = c :=
  pixelDec_length ((acceptsChannels_iff d c).2 hacc) _ _ _ x y

theorem pixelRow_length (hacc : Rule.accepts d c) (y : Nat) :
    ((List.range w).flatMap fun x => pixelOf d c w h planes x y).length = w * c := by
  rw [flatMap_length_const _ _ c fun x _ => pixelOf_length w h planes hacc x y, List.length_range]

theorem pixelsDec_length (hacc : Rule.accepts d c) : (pixelsDec d c w h planes).length = w * h * c := by
  rw [pixelsDec_eq, flatMap_length_const _ _ (w * c) fun y _ => pixelRow_length w h planes hacc y, List.length_range]
  ring

/-- R126: channel k of pixel (x, y) stands at (y·w + x)·c + k. -/
theorem pixelsDec_getD (hacc : Rule.accepts d c) {x y k : Nat} (hx : x < w) (hy : y < h) (hk : k < c) :
    (pixelsDec d c w h planes).getD ((y * w + x) * c + k) 0 = (pixelOf d c w h planes x y).getD k 0 := by
  have hpos : (y * w + x) * c + k = y * (w * c) + (x * c + k) := by ring
  rw [hpos, pixelsDec_eq, flatMap_getD _ (w * c) _ _ _ _ (by rwa [List.length_range]) (mul_add_lt_mul hx hk) fun y _ =>
    pixelRow_length w h planes hacc y, flatMap_getD _ c _ _ _ _ (by rwa [List.length_range]) hk fun x _ =>
    pixelOf_length w h planes hacc x _, List.getElem_range, List.getElem_range]

theorem pixelOf_gray_or_rgb (hc : c = 1 ∨ d.color = .rgb) (x y : Nat) :
    pixelOf d c w h planes x y = (List.range c).map fun k => planeAt (planeNo planes k) x y := by
  unfold pixelOf pixelDec
  split
  · next h1 => rw [h1]; rfl
  · next h1 => rw [hc.resolve_left h1]

theorem pixelOf_ycocg (h1 : c ≠ 1) (hcol : d.color = .ycocg) (x y : Nat) :
    pixelOf d c w h planes x y =
      let yy := planeAt (planeNo planes 0) x y
      let co := planeAt (fullChroma d w h (planeNo planes 1)) x y
      let cg := planeAt (fullChroma d w h (planeNo planes 2)) x y
      [yccR yy co cg, yccG yy cg, yccB yy co cg] ++ (if c = 4 then [planeAt (planeNo planes 3) x y] else []) := by
  simp only [pixelOf, pixelDec, if_neg h1, hcol]

/-- The pixels of a gray or RGB image are the samples of its planes. -/
theorem pixelsDec_getD_gray_or_rgb (hacc : Rule.accepts d c) (hc : c = 1 ∨ d.color = .rgb) {x y k : Nat} (hx : x < w)
    (hy : y < h) (hk : k < c) :
    (pixelsDec d c w h planes).getD ((y * w + x) * c + k) 0 = planeAt (planeNo planes k) x y := by
  rw [pixelsDec_getD w h planes hacc hx hy hk, pixelOf_gray_or_rgb w h planes hc, getD_map_range _ _ _ _ hk]

end Pixels

/-- Settles O29: each pixel's samples stand together, and are plane samples or their inverse colour transform. -/
theorem pixelsOfTheDecodedPlanes : Obligations.PixelsOfTheDecodedPlanes := by
  intro d c w h planes hacc out chromaPlane
  have hc := accepts_channels hacc
  refine ⟨pixelsDec_length w h planes hacc, fun x y hx hy => ⟨fun h1 => ?_, fun _ hrgb k hk => ?_, ?_⟩⟩
  · exact congrArg BitVec.toNat (pixelsDec_getD_gray_or_rgb w h planes hacc (.inl h1) hx hy (by omega))
  · exact congrArg BitVec.toNat (pixelsDec_getD_gray_or_rgb w h planes hacc (.inr hrgb) hx hy hk)
  · rintro h1 hcol _ _ _ rfl rfl rfl
    have hout : ∀ k, k < c → out x y k = ((pixelOf d c w h planes x y).getD k 0).toNat := fun k hk =>
      congrArg BitVec.toNat (pixelsDec_getD w h planes hacc hx hy hk)
    rw [pixelOf_ycocg w h planes h1 hcol] at hout
    refine ⟨?_, ?_, ?_, fun h4 => ?_⟩
    · exact (hout 0 (by omega)).trans (sat8_toNat _)
    · exact (hout 1 (by omega)).trans (sat8_toNat _)
    · exact (hout 2 (by omega)).trans (sat8_toNat _)
    · rw [if_pos h4] at hout
      exact hout 3 (by omega)

/-! ## Gray and RGB images (R121, R122) -/

/-- Their planes are the image's channels. -/
theorem planesEnc_gray_or_rgb (cfg : Config) {d : Descriptor} {c : Nat} (w h : Nat) (img : Nat → Nat → Nat → Byte)
    (hc : c = 1 ∨ d.color = .rgb) :
    planesEnc cfg d c w h img = (List.range c).map fun k => planeOf w h fun x y => img x y k := by
  by_cases h1 : c = 1
  · rw [planesEnc_gray cfg w h img h1, h1]
    rfl
  · exact planesEnc_rgb cfg w h img h1 (hc.resolve_left h1)

/-- Every sample of the decoded image is that of its channel's coded line. -/
theorem decodeImage_encodeImage_getD (cfg : Config) {d : Descriptor} {c w h : Nat} (f : Nat → Nat → Nat → Byte)
    (hd : d.legal = true) (hacc : Rule.accepts d c) (hc : c = 1 ∨ d.color = .rgb) {x y k : Nat} (hx : x < w) (hy : y < h)
    (hk : k < c) : (decodeImage d c w h (encodeImage cfg d c w h f)).getD ((y * w + x) * c + k) 0 =
      codedSample d.delta (scansColumns d w h) (planeOf w h fun x y => f x y k) x y := by
  have hplanes := planesEnc_gray_or_rgb cfg w h f hc
  have hlen : k < (planesEnc cfg d c w h f).length := by rwa [planesEnc_length cfg w h f (accepts_channels hacc)]
  have hplane : (planesEnc cfg d c w h f)[k] = planeOf w h fun x y => f x y k := by
    simp only [hplanes, List.getElem_map, List.getElem_range]
  rw [decodeImage, pixelsDec_getD_gray_or_rgb w h _ hacc hc hx hy hk,
    planeAt_decodePlanes_encodeImage cfg f hd (accepts_channels hacc) hlen (by rwa [hplane]) (by rwa [hplane]), hplane]

/-- Settles O34: the pixels are plane samples, each within the error of its line. -/
theorem quantizedGrayOrRgbImageErrorIsAtMost32 : Obligations.QuantizedGrayOrRgbImageErrorIsAtMost32 := by
  intro cfg d c w h f hlegal hacc h4 hc hw hh x y k hx hy hk
  rw [decodeImage_encodeImage_getD cfg f hlegal hacc hc hx hy hk, h4,
    ← planeAt_planeOf (fun x y => f x y k) hx hy]
  exact codedSample_q4_error hx hy _

/-- Settles O32: under RAW8 every coded line decodes to itself, and position i holds channel i mod c of pixel i / c. -/
theorem rawImagesRoundTripExactly : Obligations.RawImagesRoundTripExactly := by
  intro cfg d c w h f hlegal hacc hw hh h8 hc
  have hlen := decodeImage_length ((acceptsChannels_iff d c).2 hacc) w h (encodeImage cfg d c w h f)
  refine List.ext_getElem (by rw [hlen, Rule.imageBytes, List.length_map, List.length_range]) fun i hi hi' => ?_
  have hcpos : 0 < c := by have := accepts_channels hacc; omega
  have hi2 : i < w * h * c := hlen ▸ hi
  have hx : i / c % w < w := Nat.mod_lt _ hw
  have hy : i / c / w < h := Nat.div_lt_of_lt_mul ((Nat.div_lt_iff_lt_mul hcpos).2 hi2)
  have hk : i % c < c := Nat.mod_lt _ hcpos
  have hpos : (i / c / w * w + i / c % w) * c + i % c = i := by rw [Nat.div_add_mod', Nat.div_add_mod']
  have hpixel := decodeImage_encodeImage_getD cfg f hlegal hacc hc hx hy hk
  rw [hpos, List.getD_eq_getElem _ _ hi, h8, codedSample_raw8 hx hy, planeAt_planeOf _ hx hy] at hpixel
  simp only [hpixel, Rule.imageBytes, List.getElem_map, List.getElem_range]

end Sys2Proof.Machine
end

section
/-! PROOFS. The frame commands at their issue (45_engine.md R128, R129, R130): RESOLVE and CLEN complete at once, ENCODE and
DECODE whose checks pass stay pending. -/

namespace Sys2Proof.Machine

/-! ## The issue of a frame command -/

/-- An issue while idle performs its command on a clear STATUS (R58). -/
theorem issue_idle_clear {s : State} (hidle : s.status.busy = false) (f : State → State) :
    issue f s = .next (f { s with status := Status.reset }) := by
  rw [issue_idle hidle, ← acceptIssue_status_idle hidle]
  rfl

section Resolve
variable {s : State} (hidle : s.status.busy = false) (cmd : Instr) (proceed : Descriptor → State → State)
include hidle

theorem issue_withResolved_of_resolves {e : BitVec 16} {d : Descriptor}
    (hr : Rule.resolves s.cfg s.mode s.chan.toNat e d) :
    issue (withResolved cmd proceed) s =
      .next (proceed d { s with status := Status.reset, desc := Rule.descValue e d }) := by
  rw [issue_idle_clear hidle, withResolved_some (s := { s with status := Status.reset }) _ _ (resolveMode_eq_some_iff.2 hr),
    descWord_eq_descValue]

theorem issue_withResolved_of_resolveFails (hr : Rule.resolveFails s.cfg s.mode s.chan.toNat) :
    issue (withResolved cmd proceed) s =
      .next (raiseError (some cmd) .variantNotSupported { s with status := Status.reset, desc := 0 }) := by
  rw [issue_idle_clear hidle, withResolved_none (s := { s with status := Status.reset }) _ _
    (resolveMode_eq_none_iff.2 hr)]

end Resolve

/-! ## RESOLVE (R128) -/

/-- Settles O39: `withResolved` is all RESOLVE does, and the causes of failure are the cases in which nothing resolves. -/
theorem resolveWritesDescOrReportsVariantNotSupported :
    Obligations.ResolveWritesDescOrReportsVariantNotSupported := by
  refine ⟨decode_encode .resolve, fun s hidle => ⟨fun e d hr => ?_, fun hr => ?_, ?_⟩⟩
  · exact issue_withResolved_of_resolves hidle .resolve _ hr
  · exact issue_withResolved_of_resolveFails hidle .resolve _ hr
  · rw [resolveFails_iff]
    by_cases h : ∃ e d, Rule.resolves s.cfg s.mode s.chan.toNat e d
    · exact .inl h
    · exact .inr fun e d hr => h ⟨e, d, hr⟩

/-! ## CLEN (R129) -/

/-- Settles O40: after the resolve step CLEN makes the dimension check alone, on the registers, which that step left as they
were. -/
theorem clenWritesComputeLengthOrItsError : Obligations.ClenWritesComputeLengthOrItsError := by
  refine ⟨decode_encode .clen, fun s hidle => ⟨fun hr => ?_, fun e d hr => ?_⟩⟩
  · exact issue_withResolved_of_resolveFails hidle .clen performClen hr
  · have hclen : exec .clen s = _ := issue_withResolved_of_resolves hidle .clen performClen hr
    rw [hclen, ← dimensionsBad_takeSnapshot, Bool.not_eq_true]
    exact ⟨fun hdim => congrArg Host.Outcome.next (performClen_error hdim),
      fun hdim => congrArg Host.Outcome.next (performClen_ok hdim)⟩

/-! ## ENCODE and DECODE (R130) -/

/-- A frame command whose checks pass is pending, with the snapshot of its registers. -/
theorem exec_commandOf_starts {s : State} {op : FrameOp} {e : BitVec 16} {d : Descriptor} (hidle : s.status.busy = false)
    (hr : Rule.resolves s.cfg s.mode s.chan.toNat e d) (hdim : ¬ Rule.dimensionsFail s)
    (hsrc : ¬ Rule.sourceFails op d s) (hplace : ¬ Rule.placementFails op d s) :
    exec (Rule.commandOf op) s =
      .next { s with
        desc := Rule.descValue e d
        status := Rule.busyStatus
        pend := some (pendingOf op d (takeSnapshot s)) } := by
  rw [← dimensionsBad_takeSnapshot, Bool.not_eq_true] at hdim
  rw [← sourceBad_takeSnapshot, Bool.not_eq_true] at hsrc
  rw [← placementBad_takeSnapshot, Bool.not_eq_true] at hplace
  have hpass : frameError s.cfg op d (takeSnapshot s) = none := (frameError_none_iff ..).2 ⟨hdim, hsrc, hplace⟩
  rw [exec_commandOf, issue_withResolved_of_resolves hidle _ _ hr]
  exact congrArg Host.Outcome.next (startFrame_ok _ hpass)

/-- Settles O41: the snapshot is of the frame registers, and the output length is compute_length. -/
theorem encodeStartsWhenEveryCheckPasses : Obligations.EncodeStartsWhenEveryCheckPasses :=
  ⟨decode_encode .encode, fun _ _ _ hidle hr hdim hsrc hplace =>
    exec_commandOf_starts (op := .encode) hidle hr hdim hsrc hplace⟩

/-- Settles O42: as for ENCODE, with the image's size as output length. -/
theorem decodeStartsWhenEveryCheckPasses : Obligations.DecodeStartsWhenEveryCheckPasses :=
  ⟨decode_encode .decode, fun _ _ _ hidle hr hdim hsrc hplace =>
    exec_commandOf_starts (op := .decode) hidle hr hdim hsrc hplace⟩

end Sys2Proof.Machine
end

section
/-! PROOFS. The completion step (45_engine.md R125, R126, R131): the bytes a pending command writes, what they depend on, and
where they stand in BUF. -/

namespace Sys2Proof.Machine

/-! ## What ENC reads (R125) -/

section Samples
variable {c w h : Nat} {f g : Nat → Nat → Nat → Byte}
  (hfg : ∀ x y k, x < w → y < h → k < c → f x y k = g x y k)
include hfg

theorem planeOf_channel_congr {k : Nat} (hk : k < c) :
    planeOf w h (fun x y => f x y k) = planeOf w h fun x y => g x y k :=
  planeOf_congr fun x y hx hy => hfg x y k hx hy hk

theorem planeOf_color_congr (hc : 3 ≤ c) (color : Byte → Byte → Byte → Byte) :
    planeOf w h (fun x y => color (f x y 0) (f x y 1) (f x y 2)) =
      planeOf w h fun x y => color (g x y 0) (g x y 1) (g x y 2) :=
  planeOf_congr fun x y hx hy => by
    rw [hfg x y 0 hx hy (by omega), hfg x y 1 hx hy (by omega), hfg x y 2 hx hy (by omega)]

theorem alphaPlanes_congr : alphaPlanes w h f c = alphaPlanes w h g c := by
  unfold alphaPlanes
  split
  · next h4 => rw [planeOf_channel_congr hfg (k := 3) (by omega)]
  · rfl

/-- Each plane is made of the image's samples, a chroma plane before it is subsampled (R108). -/
theorem planesEnc_congr (cfg : Config) (d : Descriptor) (hc : c = 1 ∨ c = 3 ∨ c = 4) :
    planesEnc cfg d c w h f = planesEnc cfg d c w h g := by
  by_cases h1 : c = 1
  · rw [planesEnc_gray cfg w h f h1, planesEnc_gray cfg w h g h1, planeOf_channel_congr hfg (by omega)]
  cases hcol : d.color with
  | rgb =>
    rw [planesEnc_rgb cfg w h f h1 hcol, planesEnc_rgb cfg w h g h1 hcol]
    exact List.map_congr_left fun k hk => planeOf_channel_congr hfg (List.mem_range.1 hk)
  | ycocg =>
    have hc3 : 3 ≤ c := by omega
    have hY : sourceY cfg w h f = sourceY cfg w h g := planeOf_color_congr hfg hc3 (yccY cfg.yccDiv)
    have hCo : sourceCo cfg w h f = sourceCo cfg w h g :=
      planeOf_color_congr hfg hc3 fun r _ b => yccCo cfg.yccDiv r b
    have hCg : sourceCg cfg w h f = sourceCg cfg w h g := planeOf_color_congr hfg hc3 (yccCg cfg.yccDiv)
    rw [planesEnc_ycocg cfg w h f h1 hcol, planesEnc_ycocg cfg w h g h1 hcol, hY, hCo, hCg, alphaPlanes_congr hfg]

theorem encodeImage_congr (cfg : Config) (d : Descriptor) (hc : c = 1 ∨ c = 3 ∨ c = 4) :
    encodeImage cfg d c w h f = encodeImage cfg d c w h g := by
  rw [encodeImage, planesEnc_congr hfg cfg d hc, encodeImage]

end Samples

/-! ## The bytes of a pending command (R125, R126) -/

section Bytes
variable (cfg : Config) (buf : Memory) {p : Pending}

theorem frameBytes_encode (hop : p.op = .encode) : frameBytes cfg buf p =
    encodeImage cfg p.desc p.snap.chan.toNat p.snap.width.toNat p.snap.height.toNat (Rule.img buf p.snap) := by
  rw [frameBytes, hop]
  rfl

theorem frameBytes_decode (hop : p.op = .decode) : frameBytes cfg buf p =
    decodeImage p.desc p.snap.chan.toNat p.snap.width.toNat p.snap.height.toNat
      (readBytes buf p.snap.srcAddr.toNat (streamLength p.desc p.snap)) := by
  rw [frameBytes, hop]
  rfl

end Bytes

/-- Settles O38: the bytes of BUF come in as samples of the image, and ENC takes no sample outside it. -/
theorem encodeReadsOnlyTheSamples : Obligations.EncodeReadsOnlyTheSamples := by
  intro cfg buf buf' p hop hacc _ _ _ himg
  rw [frameBytes_encode cfg buf hop, frameBytes_encode cfg buf' hop]
  exact encodeImage_congr himg cfg p.desc (accepts_channels hacc)

/-! ## The completion step (R131) -/

section Completion
variable {s : State} {p : Pending} {rest : List Event} (hs : s.Inv) (hp : s.pend = some p)
include hs hp

/-- Both ways to the completion step, a turn of the sequencer and an empty boundary, end in the same state. -/
theorem step_completes (hi : s.inputs = .sequencer :: rest ∨ (s.inputs = [] ∧ rest = [])) :
    step s = .next (completePending p { s with inputs := rest }) := by
  obtain hi | ⟨hi, rfl⟩ := hi
  · exact step_sequencer hs.cfg hi hp
  · rw [step_noEvent hs.cfg hi hp, ← hi]

theorem completePending_eq : completePending p { s with inputs := rest } =
    { s with
      inputs := rest
      buf := (completePending p { s with inputs := rest }).buf
      outLen := BitVec.ofNat 32 (outputLength p.op p.desc p.snap)
      pend := none
      status := { s.status with busy := false, done := true } } := by
  obtain ⟨-, -, hnOut⟩ := hs.pend p hp
  rw [← hnOut]
  rfl

theorem readByte_completePending_inside {i : Nat} (hlt : i < outputLength p.op p.desc p.snap) :
    readByte (completePending p { s with inputs := rest }).buf (p.snap.dstAddr.toNat + i) =
      (frameBytes s.cfg s.buf p).getD i 0 := by
  rw [← frameBytes_length (hs.pend p hp) s.buf] at hlt
  rw [completePending_buf, readByte_writeBytes _ hs.buf.1,
    if_pos ⟨Nat.le_add_right .., Nat.add_lt_add_left hlt _⟩, Nat.add_sub_cancel_left]

theorem readByte_completePending_outside {a : Nat}
    (ha : ¬ (p.snap.dstAddr.toNat ≤ a ∧ a < p.snap.dstAddr.toNat + outputLength p.op p.desc p.snap)) :
    readByte (completePending p { s with inputs := rest }).buf a = readByte s.buf a :=
  readByte_writeBytes_destination hs.buf.1 (frameBytes_length (hs.pend p hp) s.buf)
    (mt (inDestinationRange_iff p a).1 ha)

end Completion

/-- Settles O44: the stream has the output length of ENCODE, and byte i of it is stored at DST_ADDR + i. -/
theorem encodeCompletionWritesTheStream : Obligations.EncodeCompletionWritesTheStream := by
  intro s p rest hs hp hop hi c w h bytes
  have hbytes : frameBytes s.cfg s.buf p = bytes := frameBytes_encode s.cfg s.buf hop
  have hout : outputLength p.op p.desc p.snap = computeLength p.desc c w h := by rw [hop]; rfl
  have hlen : bytes.length = computeLength p.desc c w h := encodeImage_length ..
  rw [hlen, ← hout, ← hbytes]
  exact ⟨rfl, _, step_completes hs hp hi, completePending_eq hs hp,
    fun i hlt => readByte_completePending_inside hs hp hlt, fun a ha => readByte_completePending_outside hs hp ha⟩

/-- Settles O45: there are w·h·c samples, and that of channel k at (x, y) is number (y·w + x)·c + k of them. -/
theorem decodeCompletionWritesThePixels : Obligations.DecodeCompletionWritesThePixels := by
  intro s p rest hs hp hop hi c w h source bytes
  have hbytes : frameBytes s.cfg s.buf p = bytes := frameBytes_decode s.cfg s.buf hop
  have hout : outputLength p.op p.desc p.snap = w * h * c := by rw [hop]; rfl
  have hlen : bytes.length = w * h * c := decodeImage_length (hs.pend p hp).acceptsChannels ..
  refine ⟨hlen, _, step_completes hs hp hi, hout ▸ completePending_eq hs hp, fun x y k hx hy hk => ?_,
    fun a ha => readByte_completePending_outside hs hp (hout ▸ ha)⟩
  have hlt : (y * w + x) * c + k < w * h * c := Nat.mul_comm h w ▸ mul_add_lt_mul (mul_add_lt_mul hy hx) hk
  rw [← hbytes, Nat.add_assoc]
  exact readByte_completePending_inside hs hp (hout.symm ▸ hlt)

end Sys2Proof.Machine
end

section
/-! PROOFS. Reset (70_reset_and_hazards.md R152, R153, R154): the registers, the destination of an abandoned command, and
the first commands afterwards. -/

namespace Sys2Proof.Machine

/-! ## What reset leaves behind (R152, R153) -/

theorem readReg_applyReset (r : Reg) (s : State) : readReg r (applyReset s) = 0 :=
  calc readReg r (applyReset s) = readReg r State.reset := by cases r <;> rfl
    _ = 0 := resetStateIsAllZero.1 r

theorem bufAfterReset_none {s : State} (hp : s.pend = none) : bufAfterReset s = s.buf := by
  simp [bufAfterReset, hp]

theorem bufAfterReset_some {s : State} {p : Pending} (hp : s.pend = some p) :
    bufAfterReset s =
      writeBytes s.buf p.snap.dstAddr.toNat (freeBytes s.draws (outputLength p.op p.desc p.snap)) := by
  simp [bufAfterReset, abandonedLength, hp]

section Abandoned
variable {s : State} {p : Pending} {a : Nat} (hwf : Memory.wf s.buf) (hp : s.pend = some p)
include hwf hp

/-- The free values stand in the destination range in the order they were drawn. -/
theorem readByte_bufAfterReset_inside (ha : Rule.inDestinationRange p a) :
    readByte (bufAfterReset s) a = Config.freeByte (s.draws + (a - p.snap.dstAddr.toNat)) := by
  rw [inDestinationRange_iff] at ha
  rw [bufAfterReset_some hp, readByte_writeBytes _ hwf, freeBytes_length, if_pos ha, freeBytes_getD (by omega)]

theorem readByte_bufAfterReset_outside (ha : ¬ Rule.inDestinationRange p a) :
    readByte (bufAfterReset s) a = readByte s.buf a := by
  rw [bufAfterReset_some hp]
  exact readByte_writeBytes_destination hwf (freeBytes_length ..) ha

end Abandoned

/-- Settles O51: the step is `applyReset`, which writes BUF only as far as `bufAfterReset` does. -/
theorem resetClearsRegistersAndAbandonsThePendingCommand :
    Obligations.ResetClearsRegistersAndAbandonsThePendingCommand := by
  intro s rest hl hwf hi
  have hstep : step s = .next (applyReset { s with inputs := rest }) := step_event hl hi
  refine ⟨_, hstep, fun r => readReg_applyReset r _, rfl, rfl, rfl, rfl, fun hp => ?_,
    fun p hp => ⟨fun a ha => ?_, fun a ha => ?_⟩⟩
  · exact bufAfterReset_none (s := { s with inputs := rest }) hp
  · exact readByte_bufAfterReset_inside (s := { s with inputs := rest }) hwf hp ha
  · exact readByte_bufAfterReset_outside (s := { s with inputs := rest }) hwf hp ha

/-! ## The first command after reset (R154) -/

/-- CHAN = 0 is no channel count, whatever the mode and the table. -/
theorem resolveFails_zero_channels (cfg : Config) (m : BitVec 16) : Rule.resolveFails cfg m 0 := .inl (by decide)

/-- What a frame command does after its resolve step plays no part right after reset. -/
theorem issue_withResolved_reset (cmd : Instr) (proceed : Descriptor → State → State) :
    issue (withResolved cmd proceed) State.reset = .next { State.reset with status := Rule.errorStatus 2 } := by
  have hfail : Rule.resolveFails State.reset.cfg State.reset.mode State.reset.chan.toNat :=
    resolveFails_zero_channels _ _
  have hout : (if errorClearsOutLen (some cmd) then 0 else State.reset.outLen) = State.reset.outLen := ite_self _
  rw [issue_withResolved_of_resolveFails rfl cmd proceed hfail, raiseError, hout]
  rfl

/-- A primitive command whose value on OPA = OPB = 0 is 0 leaves RES as reset did. -/
theorem primitive_reset {f : Word → Word → Word} (hf : (f 0 0).toNat = 0) :
    primitive f State.reset = .next { State.reset with status := Rule.doneStatus } :=
  primitive_idle_of_toNat (s := State.reset) rfl hf

/-- Settles O53: with CHAN = 0 nothing resolves, and the code, its representative and the reconstruction for two zero
operands are 0. -/
theorem firstCommandAfterReset : Obligations.FirstCommandAfterReset := by
  refine ⟨fun i hi => ?_, ?_, ?_⟩
  · simp only [List.mem_cons, List.not_mem_nil, or_false] at hi
    obtain rfl | rfl | rfl | rfl := hi
    all_goals exact issue_withResolved_reset _ _
  · calc exec .qdec State.reset = execQdec State.reset := rfl
      _ = _ := primitive_reset (by decide)
  · calc exec .qstep State.reset = execQstep State.reset := rfl
      _ = _ := primitive_reset (by decide)

end Sys2Proof.Machine
end

section
/-! PROOFS. The completion step and the host's other accesses (70_reset_and_hazards.md R156, R157): an access that sees nothing
of a completion and touches no byte of its command may come on either side of it. -/

namespace Sys2Proof.Machine

/-! ## What a completion depends on (R125, R127) -/

/-- Every sample ENCODE takes lies in its source read range. -/
theorem inSourceRange_sampleAddress {p : Pending} (hop : p.op = .encode) {x y k : Nat} (hx : x < p.snap.width.toNat)
    (hy : y < p.snap.height.toNat) (hk : k < p.snap.chan.toNat) :
    Rule.inSourceRange p (sampleAddress p.snap x y k) := by
  have hrow : y * p.snap.srcStride.toNat ≤ (p.snap.height.toNat - 1) * p.snap.srcStride.toNat :=
    Nat.mul_le_mul_right _ (Nat.le_sub_one_of_lt hy)
  have hsample : x * p.snap.chan.toNat + k < p.snap.width.toNat * p.snap.chan.toNat := mul_add_lt_mul hx hk
  rw [inSourceRange_iff, hop]
  dsimp only [sampleAddress, sourceLength]
  omega

/-- A pending command computes its bytes from those of its source read range alone. -/
theorem frameBytes_congr {cfg : Config} {p : Pending} (hok : Pending.Ok cfg p) {buf buf' : Memory}
    (hsource : ∀ a, Rule.inSourceRange p a → readByte buf a = readByte buf' a) :
    frameBytes cfg buf p = frameBytes cfg buf' p := by
  cases hop : p.op with
  | encode =>
    have hchan := accepts_channels ((acceptsChannels_iff _ _).1 hok.acceptsChannels)
    rw [frameBytes_encode cfg buf hop, frameBytes_encode cfg buf' hop]
    exact encodeImage_congr
      (fun x y k hx hy hk => hsource _ (inSourceRange_sampleAddress hop hx hy hk)) cfg p.desc hchan
  | decode =>
    have hstream : readBytes buf p.snap.srcAddr.toNat (streamLength p.desc p.snap) =
        readBytes buf' p.snap.srcAddr.toNat (streamLength p.desc p.snap) := by
      refine List.map_congr_left fun i hi => hsource _ ?_
      rw [inSourceRange_iff, hop]
      exact ⟨Nat.le_add_right .., Nat.add_lt_add_left (List.mem_range.1 hi) _⟩
    rw [frameBytes_decode cfg buf hop, frameBytes_decode cfg buf' hop, hstream]

/-! ## Accesses and the completion -/

theorem completePending_writeReg (p : Pending) (r : Reg) (v : Word) (s : State) :
    completePending p (writeReg r v s) = writeReg r v (completePending p s) := by cases r <;> rfl

/-- STATUS and OUT_LEN are the registers in which a completion shows. -/
theorem readReg_completePending {r : Reg} (hstatus : r ≠ .status) (hout : r ≠ .outLen) (p : Pending) (s : State) :
    readReg r (completePending p s) = readReg r s := by
  cases r with
  | status => exact absurd rfl hstatus
  | outLen => exact absurd rfl hout
  | _ => rfl

theorem writeByte_writeBytes_comm {m : Memory} (hm : Memory.wf m) {a : Nat} (v : Byte) {start : Nat} {bs : List Byte}
    (ha : ¬ (start ≤ a ∧ a < start + bs.length)) :
    writeBytes (writeByte m a v) start bs = writeByte (writeBytes m start bs) a v := by
  have hwrite := writeByte_wf hm a v
  have hbytes := writeBytes_wf bs hm start
  refine memory_ext (writeBytes_wf bs hwrite start) (writeByte_wf hbytes a v) fun b => ?_
  rw [readByte_writeBytes bs hwrite, readByte_writeByte hm, readByte_writeByte hbytes, readByte_writeBytes bs hm]
  by_cases hb : b = a
  · subst hb
    rw [if_neg ha, if_pos rfl, if_pos rfl]
  · rw [if_neg hb, if_neg hb]

section Completion
variable {s : State} {p : Pending} {a : Nat} (hwf : Memory.wf s.buf) (hok : Pending.Ok s.cfg p)
  (hdst : ¬ Rule.inDestinationRange p a)
include hwf hok hdst

theorem readByte_completePending_buf : readByte (completePending p s).buf a = readByte s.buf a :=
  readByte_writeBytes_destination hwf (frameBytes_length hok s.buf) hdst

/-- A byte stored outside both ranges is neither read nor overwritten by the completion. -/
theorem completePending_writeByte (hsrc : ¬ Rule.inSourceRange p a) (v : Byte) :
    completePending p { s with buf := writeByte s.buf a v } =
      { completePending p s with buf := writeByte (completePending p s).buf a v } := by
  have hbytes : frameBytes s.cfg (writeByte s.buf a v) p = frameBytes s.cfg s.buf p := by
    refine frameBytes_congr hok fun b hb => ?_
    have hne : b ≠ a := fun hba => hsrc (hba ▸ hb)
    rw [readByte_writeByte hwf, if_neg hne]
  rw [inDestinationRange_iff, ← frameBytes_length hok s.buf] at hdst
  rw [completePending_buf, ← writeByte_writeBytes_comm hwf v hdst, ← hbytes]
  rfl

end Completion

/-! ## The two orders -/

theorem step_withEvent {s : State} (hl : s.cfg.legal = true) (e : Event) (rest : List Event) :
    step { s with inputs := e :: rest } = performEvent e { s with inputs := rest } :=
  step_event (s := { s with inputs := e :: rest }) hl rfl

theorem runSteps_two {s t u : State} (hfirst : step s = .next t) (hsecond : step t = .next u) :
    runSteps 2 s = .next u := by
  rw [runSteps_succ 1 hfirst, runSteps_succ 0 hsecond, runSteps_zero]

/-- The access `e` and the turn of the sequencer end in the same state in either order. -/
def CommutesWithCompletion (s : State) (e : Event) (rest : List Event) : Prop :=
  ∃ t, runSteps 2 { s with inputs := e :: .sequencer :: rest } = .next t ∧
    runSteps 2 { s with inputs := .sequencer :: e :: rest } = .next t

/-- An access that leads from `s` to `u` also when it comes after the completion may change places with it. -/
theorem commutesWithCompletion_of_access {s u : State} {p : Pending} {e : Event} {rest : List Event}
    (hl : s.cfg.legal = true) (hp : s.pend = some p) (hpu : u.pend = some p)
    (hfirst : performEvent e { s with inputs := .sequencer :: rest } = .next { u with inputs := .sequencer :: rest })
    (hafter : performEvent e (completePending p { s with inputs := rest }) =
      .next (completePending p { u with inputs := rest })) :
    CommutesWithCompletion s e rest := by
  have hlu : u.cfg.legal = true := performEvent_next_cfg hfirst ▸ hl
  refine ⟨completePending p { u with inputs := rest }, ?_, ?_⟩
  · exact runSteps_two ((step_withEvent hl ..).trans hfirst) (step_sequencer hlu rfl hpu)
  · have hturn : step { s with inputs := .sequencer :: e :: rest } =
        .next (completePending p { s with inputs := e :: rest }) := step_sequencer hl rfl hp
    have haccess : step (completePending p { s with inputs := e :: rest }) =
        performEvent e (completePending p { s with inputs := rest }) :=
      step_withEvent (s := completePending p { s with inputs := rest }) hl e rest
    exact runSteps_two hturn (haccess.trans hafter)

section Orders
variable {s : State} {p : Pending} (hs : s.Inv) (hp : s.pend = some p) (rest : List Event)
include hs hp

theorem regWrite_commutesWithCompletion {offset : Byte} (v : Word) (halign : offset.toNat % 4 = 0)
    (hcmd : offset.toNat ≠ 0x00) : CommutesWithCompletion s (.regWrite offset 4 v) rest := by
  cases hr : regAt offset with
  | none =>
    have ha := (alignedWordAccess_iff offset 4).2 ⟨rfl, halign⟩
    exact commutesWithCompletion_of_access hs.cfg hp hp (hostRegWrite_reserved v ha hr)
      (hostRegWrite_reserved v ha hr)
  | some r =>
    obtain rfl := eq_offsetOf_of_regAt hr
    have hne : r ≠ .cmd := fun h => hcmd (by rw [h]; rfl)
    have hinputs (l : List Event) : writeReg r v { s with inputs := l } = { writeReg r v s with inputs := l } := by
      cases r <;> rfl
    obtain ⟨-, -, -, -, -, hpend, -⟩ := writeReg_frame r v s
    refine commutesWithCompletion_of_access (u := writeReg r v s) hs.cfg hp (hpend.trans hp) ?_ ?_
    · exact (hostRegWrite_reg v hne _).trans (congrArg Host.Outcome.next (hinputs _))
    · rw [← hinputs, completePending_writeReg]
      exact hostRegWrite_reg v hne _

theorem regRead_commutesWithCompletion {offset : Byte} (halign : offset.toNat % 4 = 0) (hstatus : offset.toNat ≠ 0x04)
    (hout : offset.toNat ≠ 0x38) : CommutesWithCompletion s (.regRead offset 4) rest := by
  cases hr : regAt offset with
  | none =>
    have ha := (alignedWordAccess_iff offset 4).2 ⟨rfl, halign⟩
    exact commutesWithCompletion_of_access (u := { s with readData := 0 }) hs.cfg hp hp (hostRegRead_reserved ha hr)
      (hostRegRead_reserved ha hr)
  | some r =>
    obtain rfl := eq_offsetOf_of_regAt hr
    have hnstatus : r ≠ .status := fun h => hstatus (by rw [h]; rfl)
    have hnout : r ≠ .outLen := fun h => hout (by rw [h]; rfl)
    have hinputs (l : List Event) : readReg r { s with inputs := l } = readReg r s := by cases r <;> rfl
    refine commutesWithCompletion_of_access (u := { s with readData := readReg r s }) hs.cfg hp hp ?_ ?_
    · rw [← hinputs]
      exact hostRegRead_reg r _
    · rw [← hinputs rest, ← readReg_completePending hnstatus hnout p]
      exact hostRegRead_reg r _

theorem bufWrite_commutesWithCompletion {a : Nat} (v : Byte) (ha : a < s.cfg.bufSize) (hsrc : ¬ Rule.inSourceRange p a)
    (hdst : ¬ Rule.inDestinationRange p a) :
    CommutesWithCompletion s (.bufWrite a v) rest := by
  have hfree : ownedByPending s.pend a = false := by
    rw [Bool.eq_false_iff, Ne, ownedByPending_iff, hp]
    rintro ⟨q, hq, hin⟩
    obtain rfl := Option.some.inj hq
    exact not_or.2 ⟨hsrc, hdst⟩ hin
  refine commutesWithCompletion_of_access (u := { s with buf := writeByte s.buf a v }) hs.cfg hp hp ?_ ?_
  · exact hostBufWrite_free ha hfree
  · have hcomm := completePending_writeByte (s := { s with inputs := rest }) hs.buf.1 (hs.pend p hp) hdst hsrc v
    rw [hcomm]
    exact hostBufWrite_free (s := completePending p { s with inputs := rest }) ha rfl

theorem bufRead_commutesWithCompletion {a : Nat} (ha : a < s.cfg.bufSize) (hdst : ¬ Rule.inDestinationRange p a) :
    CommutesWithCompletion s (.bufRead a) rest := by
  have hstored : unspecifiedByte s.pend a = false := by
    rw [Bool.eq_false_iff, Ne, unspecifiedByte_iff, hp]
    rintro ⟨q, hq, hin⟩
    obtain rfl := Option.some.inj hq
    exact hdst hin
  refine commutesWithCompletion_of_access (u := { s with readData := resByte (readByte s.buf a) }) hs.cfg hp hp ?_ ?_
  · exact hostBufRead_stored ha hstored
  · have hsame := readByte_completePending_buf (s := { s with inputs := rest }) hs.buf.1 (hs.pend p hp) hdst
    rw [← hsame]
    exact hostBufRead_stored (s := completePending p { s with inputs := rest }) ha rfl

end Orders

/-- Settles O60: the completion reads only the source range, which none of these accesses writes, and writes only the
destination range, OUT_LEN, STATUS and PEND, which none of them writes or returns. -/
theorem completionCommutesWithAllowedHostAccesses : Obligations.CompletionCommutesWithAllowedHostAccesses := by
  intro s p e rest hs hp hallowed
  obtain ⟨offset, v, rfl, halign, hcmd⟩ | ⟨offset, rfl, halign, hstatus, hout⟩ | ⟨a, v, rfl, ha, hsrc, hdst⟩ |
    ⟨a, rfl, ha, hdst⟩ := hallowed
  · exact regWrite_commutesWithCompletion hs hp rest v halign hcmd
  · exact regRead_commutesWithCompletion hs hp rest halign hstatus hout
  · exact bufWrite_commutesWithCompletion hs hp rest v ha hsrc hdst
  · exact bufRead_commutesWithCompletion hs hp rest ha hdst

end Sys2Proof.Machine
end
